-- ==== Sys2Proof/Word.lean ====
section
/-! DEFINITION. The machine's words: the widths that the spec gives its registers, its bus and its bytes
(00_scope.md R6, R9, R18; 20_memory.md R60). -/

namespace Sys2Proof

/-- One byte of the address space (20_memory.md R62). -/
abbrev Byte := BitVec 8

/-- A register or bus data word, u32 or s32 (20_memory.md R60). -/
abbrev Word := BitVec 32

/-- A byte address of the register block (ADDR_W = 16, 00_scope.md R6; 20_memory.md R60). -/
abbrev Addr := BitVec 16

/-- A u17 value: a normalized control value, a layer mix or an envelope level, 0..0x10000
(10_state.md R35, R39, R42). -/
abbrev Level := BitVec 17

/-- One 24-entry array indexed by the harmonic; entry `h` stands for harmonic `h + 1`
(10_state.md R41, R43). -/
abbrev Bank := Vector Word 24

end Sys2Proof
end

