-- ==== Sys2Proof/Config.lean ====
section
/-! DEFINITION. What an implementation fixes: the sizes of 00_scope.md R5 and R6, the parameters of an instance
(00_scope.md R6, 93_implementation_defined.md section 2), and the free value of an OUTBUF byte after reset
(10_state.md R48, 70_reset_and_hazards.md R304). -/

namespace Sys2Proof

/-- FS_MAX: the largest legal sample rate (00_scope.md R6). -/
abbrev Config.fsMax : Nat := 1048575

/-- The largest legal BLOCK_MAX (00_scope.md R6). -/
abbrev Config.blockMaxLimit : Nat := 4096

/-- The most words OUTBUF may have: CH_MAX · BLOCK_MAX is at most this (00_scope.md R6). -/
abbrev Config.outWordsLimit : Nat := 8192

/-- NORM_ONE and LEVEL_ONE: 1.0 of a normalized value and of an envelope level (00_scope.md R6). -/
abbrev Config.levelOne : Nat := 65536

/-- The largest legal q, raw UQ8.16 (00_scope.md R6). -/
abbrev Config.resonMax : Nat := 0xFFFFFF

/-- The sum every harmonic table is normalized to, 1.0 in Q8.24 (40_oscillator.md R112). -/
abbrev Config.weightOne : Int := 16777216

/-- How far a harmonic table's sum may be from 1.0, in Q8.24 units (40_oscillator.md R112). -/
abbrev Config.weightTolerance : Int := 167

/-- The constant of the ID register (20_memory.md R64). -/
abbrev Config.idWord : Word := 0x48564331#32

/-- The constant of the VERSION register (20_memory.md R64). -/
abbrev Config.versionWord : Word := 0x00010000#32

/-- The parameters of an instance: "a model takes the ones marked parameter as arguments"
(00_scope.md R6, 10_state.md R20). DESIGN CHOICE (safe): State carries them, and no step changes them
(assumption log 2). -/
structure Instance where
  /-- BLOCK_MAX: samples per channel in OUTBUF. -/
  blockMax : Nat
  /-- CH_MAX: output channels. -/
  chMax : Nat
  /-- HARM_SAW, s32 Q8.24 (40_oscillator.md R110). -/
  saw : Bank
  /-- HARM_SQR, s32 Q8.24 (40_oscillator.md R110). -/
  sqr : Bank
deriving DecidableEq, Repr

/-- FREE VALUE. What the OUTBUF byte at a byte address holds after a reset, as long as nothing has written it:
"each word any s32 value" (10_state.md R48, 70_reset_and_hazards.md R304). The first argument counts the resets so far, so
that each reset leaves contents of its own. DESIGN CHOICE (safe), assumption log 1. -/
opaque Config.outbufFree : Nat → Nat → Byte

end Sys2Proof
end

