-- ==== Sys2Proof/Syntax.lean ====
section
/-! DEFINITION. The six commands (30_encoding.md R91), the one format of a command word (R90), and the base statements of
a HOST program (R96). -/

namespace Sys2Proof

/-- The commands, one constructor per row of the opcode table. No command has an operand field: operands come from
ARG0..ARG2 (30_encoding.md R90, R92). -/
inductive Instr where
  /-- 0x00: a no-operation completion probe (44_commands.md R236). -/
  | nop
  /-- 0x01: `prepareToPlay(sampleRate, blockSize, channelCount)` (44_commands.md R237). -/
  | prepare
  /-- 0x02: `noteOn(frequency, velocity)` (44_commands.md R238). -/
  | noteOn
  /-- 0x03: `noteOff()` (44_commands.md R239). -/
  | noteOff
  /-- 0x04: `forceStop()` (44_commands.md R240). -/
  | forceStop
  /-- 0x05: `renderBlock(outputChannels, startSample, numSamples)` (44_commands.md R241). -/
  | renderBlock
deriving DecidableEq, Repr

/-- The fields of a command word (30_encoding.md R90). -/
structure CmdWord where
  /-- Bits 31:8, must be 0. -/
  rsvd : BitVec 24
  /-- Bits 7:0. -/
  opcode : BitVec 8
deriving DecidableEq, Repr

/-- A base statement of a HOST program: one bus transaction, or one repeated until it succeeds (30_encoding.md R96). The
statements `wr` and `rd` are `write` and `read` of size 4; the size is kept because a HOST step may have any size
(20_memory.md R60). -/
inductive HostOp where
  /-- `MemRead(a, n)`; `expect` is the value the program asserts, if it asserts one (`rd A` and `rd A, V`). -/
  | read (a : Addr) (n : Nat) (expect : Option Word)
  /-- `MemWrite(a, n, d)` (`wr A, V`). -/
  | write (a : Addr) (n : Nat) (d : Word)
  /-- `poll A, M, V`: repeat `MemRead(A, 4)` until (value & M) = V, one read per iteration. -/
  | poll (a : Addr) (mask value : Word)
deriving DecidableEq, Repr

/-- Who takes the next step of the total order (10_state.md R20, 20_memory.md R72): the HOST, the ENGINE, or the reset
input as it is asserted or released (70_reset_and_hazards.md R300). -/
inductive Turn where
  | host
  | engine
  | assertReset
  | releaseReset
deriving DecidableEq, Repr

end Sys2Proof
end

