-- ==== Sys2Proof/WellFormed.lean ====
section
/-! DEFINITION. The checks on command words (30_encoding.md R90, R91, R94) and on the parameters of an instance
(00_scope.md R6, 40_oscillator.md R112). An instruction has no operand fields, so its own check, `Instr.wf`, is that of its
command word: it stands in Decode.lean beside the opcode map. -/

namespace Sys2Proof

/-- Bits 31:8 of a command word are 0 (30_encoding.md R90). -/
def CmdWord.rsvdOk (w : CmdWord) : Bool := w.rsvd == 0#24

/-- The opcode is one of 0x00..0x05 (30_encoding.md R91, R94). -/
def CmdWord.opcodeOk (w : CmdWord) : Bool := w.opcode.toNat ≤ 5

/-- A legal command word (30_encoding.md R91). -/
def CmdWord.wf (w : CmdWord) : Bool := w.rsvdOk && w.opcodeOk

/-- BLOCK_MAX is 1..4096 (00_scope.md R6). -/
def Instance.blockMaxOk (c : Instance) : Bool := 1 ≤ c.blockMax && c.blockMax ≤ Config.blockMaxLimit

/-- CH_MAX is at least 1 (00_scope.md R6). -/
def Instance.chMaxOk (c : Instance) : Bool := 1 ≤ c.chMax

/-- CH_MAX · BLOCK_MAX is at most 8192 (00_scope.md R6). -/
def Instance.sizeOk (c : Instance) : Bool := c.chMax * c.blockMax ≤ Config.outWordsLimit

/-- The sizes of an instance are legal (00_scope.md R6). -/
def Instance.wf (c : Instance) : Bool := c.blockMaxOk && c.chMaxOk && c.sizeOk

/-- The sum of a harmonic table's 24 entries, each read as s32. -/
def tableSum (t : Bank) : Int := (t.toList.map BitVec.toInt).sum

/-- A harmonic table sums to 1.0 within 1e-5 (40_oscillator.md R112). -/
def tableNormalized (t : Bank) : Bool :=
  -Config.weightTolerance ≤ tableSum t - Config.weightOne && tableSum t - Config.weightOne ≤ Config.weightTolerance

/-- Both tables of an instance satisfy the source's normalization property (40_oscillator.md R112). No rule of the machine
needs it: a model takes any s32 entries (93_implementation_defined.md section 2). -/
def Instance.tablesNormalized (c : Instance) : Bool := tableNormalized c.saw && tableNormalized c.sqr

end Sys2Proof
end

