-- ==== Sys2Proof/Decode.lean ====
section
/-! DEFINITION. Reading and writing command words: total on any bytes, rejecting by name (30_encoding.md R90, R91, R94, R95;
byte order 20_memory.md R62). -/

namespace Sys2Proof

/-- Why bytes are no command. -/
inductive DecodeError where
  /-- Fewer than the four bytes of the one command length (30_encoding.md R95). -/
  | tooShort
  /-- Bits 31:8 are not 0 (30_encoding.md R94). -/
  | reservedBits
  /-- The opcode is in 0x06..0xFF (30_encoding.md R94). -/
  | unknownOpcode
deriving DecidableEq, Repr

/-- The command word that stands for an instruction (30_encoding.md R91, the opcode map). -/
def Instr.fields : Instr → CmdWord
  | .nop => ⟨0#24, 0x00#8⟩
  | .prepare => ⟨0#24, 0x01#8⟩
  | .noteOn => ⟨0#24, 0x02#8⟩
  | .noteOff => ⟨0#24, 0x03#8⟩
  | .forceStop => ⟨0#24, 0x04#8⟩
  | .renderBlock => ⟨0#24, 0x05#8⟩

/-- An instruction is well formed when its command word is: it has no operand fields to check (30_encoding.md R90). -/
def Instr.wf (i : Instr) : Bool := i.fields.wf

/-- The fields of a command word (30_encoding.md R90). -/
def splitWord (w : Word) : CmdWord := ⟨w.extractLsb' 8 24, w.extractLsb' 0 8⟩

/-- The opcode map (30_encoding.md R91). -/
def opcodeInstr (op : BitVec 8) : Option Instr :=
  match op.toNat with
  | 0 => some .nop
  | 1 => some .prepare
  | 2 => some .noteOn
  | 3 => some .noteOff
  | 4 => some .forceStop
  | 5 => some .renderBlock
  | _ => none

/-- The command a 32-bit word selects (30_encoding.md R91, R94). -/
def decodeWord (w : Word) : Except DecodeError Instr :=
  if (splitWord w).rsvdOk then
    match opcodeInstr (splitWord w).opcode with
    | some i => .ok i
    | none => .error .unknownOpcode
  else .error .reservedBits

/-- Four bytes, the one at the lowest address first, as a word (20_memory.md R62). -/
def wordOfBytes (b0 b1 b2 b3 : Byte) : Word := b3 ++ b2 ++ b1 ++ b0

/-- Byte `b` (0..3) of a word: bits 8b+7 : 8b (20_memory.md R62). -/
def byteOfWord (w : Word) (b : Nat) : Byte := w.extractLsb' (8 * b) 8

/-- A word as the four bytes it is stored in, lowest address first (20_memory.md R62). -/
def bytesOfWord (w : Word) : List Byte := [byteOfWord w 0, byteOfWord w 1, byteOfWord w 2, byteOfWord w 3]

/-- The command at the front of a list of bytes, with the bytes after it. -/
def decodeBytes : List Byte → Except DecodeError (Instr × List Byte)
  | b0 :: b1 :: b2 :: b3 :: rest =>
    match decodeWord (wordOfBytes b0 b1 b2 b3) with
    | .ok i => .ok (i, rest)
    | .error e => .error e
  | _ => .error .tooShort

/-- The opcode byte of a command: what CUR_CMD holds for it (30_encoding.md R91, 10_state.md R24). -/
def Instr.opcode (i : Instr) : BitVec 8 := i.fields.opcode

/-- The word of an instruction (30_encoding.md R90, R91). -/
def encodeWord (i : Instr) : Word := i.fields.rsvd ++ i.fields.opcode

/-- The bytes of an instruction. -/
def encode (i : Instr) : List Byte := bytesOfWord (encodeWord i)

/-- The instruction the decoder reads from an instruction whose low `nbits` bits are `w`, bit 0 the least significant bit of
the one word; the bits above are 0. -/
def decodeTableWord (nbits w : Nat) : Option Instr :=
  match decodeBytes (bytesOfWord (BitVec.ofNat 32 (w % 2 ^ nbits))) with
  | .ok (i, _) => some i
  | .error _ => none

end Sys2Proof
end

