-- ==== Sys2Proof/Machine/State.lean ====
section
/-! DEFINITION. The machine's state (10_state.md), why a step can stop, and the state after reset (10_state.md R48). -/

namespace Sys2Proof.Machine

/-- The stages of an envelope generator (10_state.md R42, 41_envelope.md R140); the values 5 to 7 never occur. -/
inductive Stage where
  | idle
  | attack
  | decay
  | sustain
  | release
deriving DecidableEq, Repr

/-- The codes of ERR_CODE (10_state.md R28, 60_exceptions.md R270); 6 and 7 are never written. -/
inductive ErrCode where
  | none
  | illegal
  | busy
  | notPrepared
  | config
  | range
deriving DecidableEq, Repr

/-- RB_PHASE: where a RENDER_BLOCK stands (10_state.md R25). -/
inductive RbPhase where
  | commit
  | sample
  | finish
deriving DecidableEq, Repr

/-- The parameters of one envelope generator (10_state.md R35, R36). -/
structure EgParams where
  attack : Level
  decay : Level
  sustain : Level
  release : Level
deriving DecidableEq, Repr

/-- The filter group (10_state.md R37, R38). -/
structure FilterParams where
  /-- FLOOR, UQ16.16 Hz. -/
  floor : Word
  /-- PEAK, UQ16.16 Hz. -/
  peak : Word
  /-- RESON, UQ8.16. -/
  reson : Word
deriving DecidableEq, Repr

/-- The oscillator group (10_state.md R39, R40). -/
structure OscParams where
  mix1 : Level
  mix2 : Level
  /-- RATIO, UQ16.16. -/
  ratio : Word
deriving DecidableEq, Repr

/-- One whole set of parameter registers; State holds two, the shadow and the active one (10_state.md R35 to R40, R47). -/
structure ParamSet where
  eg1 : EgParams
  eg2 : EgParams
  eg3 : EgParams
  filter : FilterParams
  osc : OscParams
deriving DecidableEq, Repr

/-- The state of one envelope generator (10_state.md R42). -/
structure Eg where
  stage : Stage
  level : Level
  elapsed : Word
  start : Level
deriving DecidableEq, Repr

/-- The three envelope generators (41_envelope.md R140). -/
structure EgBank where
  eg1 : Eg
  eg2 : Eg
  eg3 : Eg
deriving DecidableEq, Repr

/-- The oscillator bank: PHASE[j][k] and INC[j][k] (10_state.md R41). -/
structure OscBank where
  phase1 : Bank
  phase2 : Bank
  inc1 : Bank
  inc2 : Bank
deriving DecidableEq, Repr

/-- OUTBUF as the bytes written since the last reset, by byte address (10_state.md R46, 20_memory.md R62). -/
abbrev Memory := List Host.Cell

/-- Everything the spec gives the machine, and the model's own fields that stand for the HOST, the interleaving and the reset
input. Each register is named as in 10_state.md. -/
structure State where
  /-- The instance's parameters, which no step changes (10_state.md R20; assumption log 2). -/
  inst : Instance
  /-- ARG0 (10_state.md R21). -/
  arg0 : Word
  /-- ARG1. -/
  arg1 : Word
  /-- ARG2. -/
  arg2 : Word
  /-- BUSY (10_state.md R23). -/
  busy : Bool
  /-- ABORT_REQ (10_state.md R26). -/
  abortReq : Bool
  /-- CUR_CMD, the opcode of the accepted command (10_state.md R24). -/
  curCmd : BitVec 8
  /-- LARG0, a latched operand (10_state.md R24). -/
  larg0 : Word
  /-- LARG1. -/
  larg1 : Word
  /-- LARG2. -/
  larg2 : Word
  /-- RB_PHASE (10_state.md R25). -/
  rbPhase : RbPhase
  /-- RB_I (10_state.md R25). -/
  rbI : Word
  /-- ERR_CODE (10_state.md R28). -/
  errCode : ErrCode
  /-- IRQ_STATUS (10_state.md R29). -/
  irqStatus : BitVec 5
  /-- IRQ_ENABLE (10_state.md R30). -/
  irqEnable : BitVec 5
  /-- DIRTY (10_state.md R32). -/
  dirty : BitVec 5
  /-- FS (10_state.md R33). -/
  fs : Word
  /-- BLOCK_SIZE (10_state.md R33). -/
  blockSize : Word
  /-- CHANNELS (10_state.md R33). -/
  channels : Word
  /-- PREPARED (10_state.md R33). -/
  prepared : Bool
  /-- NOTE_FREQ (10_state.md R34). -/
  noteFreq : Word
  /-- NOTE_VEL (10_state.md R34). -/
  noteVel : Word
  /-- ACTIVE (10_state.md R34). -/
  active : Bool
  /-- The shadow parameter registers (10_state.md R35, R37, R39). -/
  shadow : ParamSet
  /-- The active copies, the ones with the suffix _A (10_state.md R36, R38, R40). -/
  live : ParamSet
  /-- The envelope generators (10_state.md R42). -/
  egs : EgBank
  /-- The oscillator bank (10_state.md R41). -/
  osc : OscBank
  /-- LAST_SAMPLE (10_state.md R44). -/
  lastSample : Word
  /-- LAST_CUTOFF (10_state.md R44). -/
  lastCutoff : Word
  /-- SAMPLE_CNT (10_state.md R44). -/
  sampleCnt : Word
  /-- OUTBUF: the bytes written since the last reset, by byte address, addresses strictly rising (10_state.md R46,
  20_memory.md R62, R80). A byte not listed is a free value (assumption log 1). -/
  outbuf : Memory
  /-- MODEL'S OWN: how many resets there have been, the free OUTBUF contents' first argument (assumption log 1). -/
  epoch : Nat
  /-- The reset input's level: true while it is asserted (70_reset_and_hazards.md R300). -/
  resetPin : Bool
  /-- MODEL'S OWN: the HOST's pending statements, the next one first (30_encoding.md R96; assumption log 4). -/
  host : List HostOp
  /-- MODEL'S OWN: whose turns come next (20_memory.md R72; assumption log 3). -/
  sched : List Turn
  /-- MODEL'S OWN: the data word that the HOST's last read returned (20_memory.md R60; assumption log 5). -/
  rdata : Word
  /-- MODEL'S OWN: some `rd A, V` of the HOST's program read another value than V (30_encoding.md R96; assumption log 5). -/
  hostFailed : Bool
deriving DecidableEq, Repr

/-- Why a step can stop. The spec gives the machine no trap (60_exceptions.md R278); each fault stands where the spec's rules
give no result because an invariant of 10_state.md R49 or 60_exceptions.md R281 is broken, so no run from reset reaches
one (assumption log 7). -/
inductive Fault where
  /-- Raised by step: BUSY = 1 and CUR_CMD names no command that 44_commands.md R234 gives a step. Safe. -/
  | noEnabledStep
  /-- Raised by NOTE_ON's ENGINE step: FS = 0, where 40_oscillator.md R113 asks for FS ≥ 1. Safe. -/
  | zeroSampleRate
  /-- Raised by RENDER_BLOCK's sample step: a cutoff or a q of 0, where 42_filter.md R182 asks for at least 1. Safe. -/
  | gainUndefined
  /-- Raised by RENDER_BLOCK's sample step: a sample index or a channel outside OUTBUF (43_render.md R200, 20_memory.md
  R80). Safe. -/
  | outsideOutbuf
deriving DecidableEq, Repr

/-- Why an instruction has no meaning. -/
inductive Refusal where
  /-- Raised by exec for an instruction without a meaning; no arm raises it. Safe. -/
  | notModelled (mnemonic : String)
deriving DecidableEq, Repr

/-- One envelope generator after reset (10_state.md R48). -/
def Eg.zero : Eg := ⟨.idle, 0#17, 0#32, 0#17⟩

/-- The parameters of one envelope generator after reset (10_state.md R48). -/
def EgParams.reset : EgParams := ⟨0#17, 0#17, 0x10000#17, 0#17⟩

/-- The parameter registers after reset, shadow and active alike (10_state.md R48). -/
def ParamSet.reset : ParamSet :=
  { eg1 := EgParams.reset
    eg2 := EgParams.reset
    eg3 := EgParams.reset
    filter := ⟨0x5DC00000#32, 0x5DC00000#32, 0x00010000#32⟩
    osc := ⟨0#17, 0#17, 0x00010000#32⟩ }

/-- A bank of zeros. -/
def zeroBank : Bank := Vector.replicate 24 0#32

/-- The state after reset of an instance (10_state.md R48). The reset input is released, nothing is pending
(DESIGN CHOICE, assumption logs 3, 4, 5 and 9); OUTBUF lists nothing, so every byte of it is a free value (R304). -/
def State.resetOf (c : Instance) : State :=
  { inst := c
    arg0 := 0#32
    arg1 := 0#32
    arg2 := 0#32
    busy := false
    abortReq := false
    curCmd := 0#8
    larg0 := 0#32
    larg1 := 0#32
    larg2 := 0#32
    rbPhase := .commit
    rbI := 0#32
    errCode := .none
    irqStatus := 0#5
    irqEnable := 0#5
    dirty := 0#5
    fs := 0#32
    blockSize := 0#32
    channels := 0#32
    prepared := false
    noteFreq := 0#32
    noteVel := 0#32
    active := false
    shadow := ParamSet.reset
    live := ParamSet.reset
    egs := ⟨Eg.zero, Eg.zero, Eg.zero⟩
    osc := ⟨zeroBank, zeroBank, zeroBank, zeroBank⟩
    lastSample := 0#32
    lastCutoff := 0#32
    sampleCnt := 0#32
    outbuf := []
    epoch := 0
    resetPin := false
    host := []
    sched := []
    rdata := 0#32
    hostFailed := false }

/-- The machine right after reset, as the default instance (10_state.md R48, 00_scope.md R6). -/
def State.reset : State := State.resetOf defaultInstance

end Sys2Proof.Machine
end

