-- ==== Sys2Proof/Machine/Flags.lean ====
section
/-! DEFINITION. The status and interrupt flags: how each is set, read, enabled and acknowledged (10_state.md R27 to R32,
60_exceptions.md R275 to R277). -/

namespace Sys2Proof.Machine

/-- The five sticky flags of IRQ_STATUS (10_state.md R29). -/
inductive Flag where
  | cmdDone
  | voiceDone
  | clip
  | cmdErr
  | busErr
deriving DecidableEq, Repr

/-- A flag's bit of IRQ_STATUS and IRQ_ENABLE (10_state.md R29, R30). -/
def Flag.bit : Flag → Nat
  | .cmdDone => 0
  | .voiceDone => 1
  | .clip => 2
  | .cmdErr => 3
  | .busErr => 4

/-- The word with only a flag's bit set. -/
def Flag.mask (f : Flag) : BitVec 5 := 1#5 <<< f.bit

/-- Whether a flag is 1. -/
def State.flag (s : State) (f : Flag) : Bool := s.irqStatus.getLsbD f.bit

/-- `set IRQ_STATUS.X`: the flag becomes 1, the others stay (00_scope.md R11, 10_state.md R29). -/
def State.setFlag (s : State) (f : Flag) : State := { s with irqStatus := s.irqStatus ||| f.mask }

/-- The number of an error code (10_state.md R28, 60_exceptions.md R270). -/
def ErrCode.code : ErrCode → BitVec 3
  | .none => 0#3
  | .illegal => 1#3
  | .busy => 2#3
  | .notPrepared => 3#3
  | .config => 4#3
  | .range => 5#3

/-- The number of a stage (10_state.md R42). -/
def Stage.code : Stage → BitVec 3
  | .idle => 0#3
  | .attack => 1#3
  | .decay => 2#3
  | .sustain => 3#3
  | .release => 4#3

/-- STATUS: BUSY, PREPARED, ACTIVE, ABORT_REQ in bits 0 to 3, ERR_CODE in bits 10:8, the rest 0 (10_state.md R27). -/
def State.statusWord (s : State) : Word :=
  0#21 ++ s.errCode.code ++ 0#4 ++ BitVec.ofBool s.abortReq ++ BitVec.ofBool s.active ++ BitVec.ofBool s.prepared ++
    BitVec.ofBool s.busy

/-- The interrupt output: some flag is both set and enabled (10_state.md R31). -/
def State.irq (s : State) : Bool := s.irqStatus &&& s.irqEnable != 0#5

/-- A write of `d` to IRQ_STATUS: write-1-to-clear, and bit 3 also resets ERR_CODE, in the same step (20_memory.md R67,
60_exceptions.md R277). This is the HOST's acknowledge, the nearest the machine has to a return from an exception (R279). -/
def State.ackIrq (s : State) (d : Word) : State :=
  { s with
    irqStatus := s.irqStatus &&& ~~~(d.extractLsb' 0 5)
    errCode := if d.getLsbD 3 then .none else s.errCode }

/-- A write of `d` to IRQ_ENABLE (10_state.md R30, 60_exceptions.md R276). -/
def State.setIrqEnable (s : State) (d : Word) : State := { s with irqEnable := d.extractLsb' 0 5 }

/-- A write of `d` to DIRTY: write-1-to-set, bit 5 and up ignored (10_state.md R32, 20_memory.md R70). -/
def State.setDirty (s : State) (d : Word) : State := { s with dirty := s.dirty ||| d.extractLsb' 0 5 }

/-- Whether a sample's accumulator clips: its magnitude is above 1.0 in Q8.24, before saturation (43_render.md R207). -/
def clips (acc : Int) : Bool := decide (16777216 < acc ∨ acc < -16777216)

end Sys2Proof.Machine
end

