-- ==== Sys2Proof/Machine/Arith.lean ====
section
/-! DEFINITION. The integer primitives of the spec's pseudocode (00_scope.md R10, R12 to R16). Every one works on unbounded
integers. -/

namespace Sys2Proof.Machine

/-- `tdiv(a, b)`: division truncated toward zero, b > 0 (00_scope.md R12). -/
def tdiv (a b : Int) : Int := a.tdiv b

/-- `rhu(a, b)` = ⌊(2a + b) / (2b)⌋: round half up, a ≥ 0 and b > 0 (00_scope.md R12). -/
def rhu (a b : Nat) : Nat := (2 * a + b) / (2 * b)

/-- `a >>> n`: the arithmetic shift right, rounding toward minus infinity (00_scope.md R13). -/
def asr (a : Int) (n : Nat) : Int := a / (2 ^ n : Int)

/-- The bits of an integer square root, from bit `b - 1` down to bit 0, on top of the bits `r` found so far. -/
def isqrtBits (a : Nat) : Nat → Nat → Nat
  | 0, r => r
  | b + 1, r => if (r + 2 ^ b) * (r + 2 ^ b) ≤ a then isqrtBits a b (r + 2 ^ b) else isqrtBits a b r

/-- `isqrt(a)`: the largest r with r² ≤ a (00_scope.md R14). -/
def isqrt (a : Nat) : Nat := isqrtBits a (a.log2 / 2 + 1) 0

/-- `lerp(a, b, n, N)`: the linear interpolation from a (n = 0) to b (n = N), its fraction truncated toward a
(00_scope.md R15). -/
def lerp (a b n N : Int) : Int := a + tdiv ((b - a) * n) N

/-- `clamp(v, lo, hi)` (00_scope.md R16). -/
def clamp (v lo hi : Int) : Int := min (max v lo) hi

/-- `sat32(v)` (00_scope.md R16). -/
def sat32 (v : Int) : Int := clamp v (-2147483648) 2147483647

/-- An integer of -2^31 .. 2^31 - 1 as the s32 word that holds it (00_scope.md R9). -/
def s32 (v : Int) : Word := BitVec.ofInt 32 v

/-- The low 32 bits of a natural number: the stores marked `mod 2^32` (00_scope.md R10). -/
def mod32 (v : Nat) : Word := BitVec.ofNat 32 v

end Sys2Proof.Machine
end

