-- ==== Sys2Proof/Machine/Operands.lean ====
section
/-! DEFINITION. Operand forms: argument registers, latched operands (30_encoding.md R92, R93), and the clamps a parameter
register applies to the word written to it (10_state.md R35, R37, R39). -/

namespace Sys2Proof.Machine

/-- `x[i]`: argument register ARGi (00_scope.md R11, 10_state.md R21). -/
def State.x (s : State) : Fin 3 → Word
  | 0 => s.arg0
  | 1 => s.arg1
  | 2 => s.arg2

/-- `x[i] <- v` (00_scope.md R11, 10_state.md R21). -/
def State.setX (s : State) (i : Fin 3) (v : Word) : State :=
  match i with
  | 0 => { s with arg0 := v }
  | 1 => { s with arg1 := v }
  | 2 => { s with arg2 := v }

/-- PREPARE's operands are legal, as ARG0..ARG2 hold them at issue (44_commands.md R230, R237). -/
def State.configOk (s : State) : Bool :=
  1 ≤ s.arg0.toNat && s.arg0.toNat ≤ Config.fsMax && 1 ≤ s.arg1.toNat && s.arg1.toNat ≤ s.inst.blockMax &&
    1 ≤ s.arg2.toNat && s.arg2.toNat ≤ s.inst.chMax

/-- RENDER_BLOCK's operands fit the block, as ARG0 and ARG1 hold them at issue; the sum does not wrap
(44_commands.md R230, 30_encoding.md R93). -/
def State.rangeOk (s : State) : Bool := s.arg0.toNat + s.arg1.toNat ≤ s.blockSize.toNat

/-- The number of samples of a RENDER_BLOCK (44_commands.md R241). -/
def State.numSamples (s : State) : Word := s.larg1

/-- The index in OUT[c][·] of the sample that the current RENDER_BLOCK produces next: start + i (43_render.md R200). -/
def State.sampleIndex (s : State) : Nat := s.larg0.toNat + s.rbI.toNat

/-- The value that a write of `d` stores in a register of range 0..0x10000: min(d, 0x10000) (10_state.md R35, R39). -/
def clampLevel (d : Word) : Level := BitVec.ofNat 17 (min d.toNat Config.levelOne)

/-- The value that a write of `d` stores in FLOOR or PEAK: max(d, 1) (10_state.md R37). -/
def clampFreq (d : Word) : Word := mod32 (max d.toNat 1)

/-- The value that a write of `d` stores in RESON: clamp(d, 1, 0xFFFFFF) (10_state.md R37). -/
def clampReson (d : Word) : Word := mod32 (min (max d.toNat 1) Config.resonMax)

end Sys2Proof.Machine
end

