-- ==== Sys2Proof/Machine/Ops.lean ====
section
/-! DEFINITION. The named operations over memory and registers that the commands and the bus share: OUTBUF's bytes and words
(20_memory.md R62, R80), rejecting a command (44_commands.md R231), a bus error (60_exceptions.md R272), acceptance (R233),
commit (R232), completion (R242), reset (70_reset_and_hazards.md R300). -/

namespace Sys2Proof.Machine

/-- The canonical form: addresses strictly rising, so that two memories that list the same bytes are the same list. An
unlisted address reads as no value, which no entry can equal. -/
abbrev Memory.wf (m : Memory) : Prop := m.Pairwise (fun p q => p.1 < q.1)

/-- What is listed at a byte address: none where nothing was written since the last reset. -/
def Memory.byte? : Memory → Nat → Option Byte
  | [], _ => none
  | (b, v) :: m, a => if b = a then some v else Memory.byte? m a

/-- A byte stored, the canonical form kept. -/
def Memory.put : Memory → Nat → Byte → Memory
  | [], a, v => [(a, v)]
  | (b, w) :: m, a, v =>
    if a < b then (a, v) :: (b, w) :: m
    else if a = b then (a, v) :: m
    else (b, w) :: Memory.put m a v

/-- A word stored at the byte address `a`, least significant byte first (20_memory.md R62). -/
def Memory.putWord (m : Memory) (a : Nat) (w : Word) : Memory :=
  (((m.put a (byteOfWord w 0)).put (a + 1) (byteOfWord w 1)).put (a + 2) (byteOfWord w 2)).put (a + 3) (byteOfWord w 3)

/-- A byte of OUTBUF after `epoch` resets: what was written, else the free value (70_reset_and_hazards.md R304). -/
def Memory.byte (m : Memory) (epoch a : Nat) : Byte := (m.byte? a).getD (Config.outbufFree epoch a)

/-- A word of OUTBUF (20_memory.md R62). -/
def Memory.word (m : Memory) (epoch a : Nat) : Word :=
  wordOfBytes (m.byte epoch a) (m.byte epoch (a + 1)) (m.byte epoch (a + 2)) (m.byte epoch (a + 3))

/-- The byte of OUTBUF at a byte address. -/
def State.outByte (s : State) (a : Nat) : Byte := s.outbuf.byte s.epoch a

/-- The byte address of OUT[c][i] (20_memory.md R80). -/
def outAddr (c : Instance) (ch i : Nat) : Nat := 0x8000 + 4 * (ch * c.blockMax + i)

/-- OUT[c][i] (10_state.md R46). -/
def State.out (s : State) (ch i : Nat) : Word := s.outbuf.word s.epoch (outAddr s.inst ch i)

/-- OUT[c][i] <- w. -/
def State.setOut (s : State) (ch i : Nat) (w : Word) : State :=
  { s with outbuf := s.outbuf.putWord (outAddr s.inst ch i) w }

/-- `raise CmdError(code)`: the one way a command is turned away. It records the code and sets CMD_ERR, and nothing else
(44_commands.md R231, 60_exceptions.md R270). The machine has no trap: this is what it has for one (R278). -/
def State.reject (s : State) (e : ErrCode) : State :=
  { s with errCode := e, irqStatus := s.irqStatus ||| Flag.cmdErr.mask }

/-- An illegal bus access: BUS_ERR and nothing else (60_exceptions.md R272). -/
def State.busError (s : State) : State := s.setFlag .busErr

/-- The command and its operands latched, BUSY set: what every acceptance but that of a FORCE_STOP during a command does
(44_commands.md R233, 10_state.md R24). It clears no flag: a CMD_DONE that an earlier command set stays pending while this one
runs, where 20_memory.md R74 reads otherwise (DEDUCED, assumption log 21). -/
def State.latch (s : State) (i : Instr) : State :=
  { s with curCmd := i.opcode, larg0 := s.arg0, larg1 := s.arg1, larg2 := s.arg2, busy := true }

/-- `accept(op)` (44_commands.md R233). -/
def State.accept (s : State) (i : Instr) : State :=
  match i with
  | .forceStop => if s.busy then { s with abortReq := true } else { s.latch .forceStop with abortReq := true }
  | .renderBlock => { s.latch .renderBlock with rbPhase := .commit, rbI := 0#32 }
  | .nop => s.latch .nop
  | .prepare => s.latch .prepare
  | .noteOn => s.latch .noteOn
  | .noteOff => s.latch .noteOff

/-- Command issue, the checks in the spec's order, after the check for ILLEGAL that the decoder makes
(44_commands.md R230, 60_exceptions.md R274). -/
def State.issue (s : State) (i : Instr) : State :=
  if s.busy && i != .forceStop then s.reject .busy
  else if (i == .noteOn || i == .renderBlock) && !s.prepared then s.reject .notPrepared
  else if i == .prepare && !s.configOk then { s with prepared := false }.reject .config
  else if i == .renderBlock && !s.rangeOk then s.reject .range
  else s.accept i

/-- The active copies after a commit: each group whose DIRTY bit is set, copied whole (10_state.md R47,
44_commands.md R232). -/
def committed (dirty : BitVec 5) (shadow live : ParamSet) : ParamSet :=
  { eg1 := if dirty.getLsbD 0 then shadow.eg1 else live.eg1
    eg2 := if dirty.getLsbD 1 then shadow.eg2 else live.eg2
    eg3 := if dirty.getLsbD 2 then shadow.eg3 else live.eg3
    filter := if dirty.getLsbD 3 then shadow.filter else live.filter
    osc := if dirty.getLsbD 4 then shadow.osc else live.osc }

/-- `commit()` (44_commands.md R232). -/
def State.commit (s : State) : State := { s with live := committed s.dirty s.shadow s.live, dirty := 0#5 }

/-- `complete()`: the last part of a command's final ENGINE step (44_commands.md R242). CMD_DONE is sticky, and does not say which
command set it (DEDUCED, assumption log 21). -/
def State.complete (s : State) : State := { s with busy := false, irqStatus := s.irqStatus ||| Flag.cmdDone.mask }

/-- The reset input is asserted: every piece of state takes its reset value, and OUTBUF's contents are free anew
(70_reset_and_hazards.md R300, 10_state.md R48). What is outside the block stays: the HOST's program and what it last read,
the turns still to come (DEDUCED, assumption log 8). -/
def State.hardReset (s : State) : State :=
  { State.resetOf s.inst with
    epoch := s.epoch + 1
    resetPin := true
    host := s.host
    sched := s.sched
    rdata := s.rdata
    hostFailed := s.hostFailed }

/-- Whose turn it is: the next one of the list. When the list is used up, the ENGINE's while it has a step to take, else the
HOST's: one fair order among those that 70_reset_and_hazards.md R316 allows (DESIGN CHOICE, assumption log 3). -/
def State.turn (s : State) : Turn :=
  match s.sched with
  | t :: _ => t
  | [] => if s.busy && !s.resetPin then .engine else .host

end Sys2Proof.Machine
end

