-- ==== Sys2Proof/Machine/Envelope.lean ====
section
/-! DEFINITION. The envelope generators (41_envelope.md): note events and the per-sample tick. -/

namespace Sys2Proof.Machine

/-- The three envelope generators (00_scope.md R5). -/
inductive EgId where
  | e1
  | e2
  | e3
deriving DecidableEq, Repr

/-- EG[e]. -/
def EgBank.get (b : EgBank) : EgId → Eg
  | .e1 => b.eg1
  | .e2 => b.eg2
  | .e3 => b.eg3

/-- The parameters of EG e in one parameter set. -/
def ParamSet.eg (p : ParamSet) : EgId → EgParams
  | .e1 => p.eg1
  | .e2 => p.eg2
  | .e3 => p.eg3

/-- `dur(t)`: samples in t · 4 seconds, rounded half up (41_envelope.md R141). -/
def dur (t fs : Nat) : Nat := (t * 4 * fs + 32768) / 65536

/-- An integer level, 0..LEVEL_ONE, as the register holds it. -/
def levelOf (v : Int) : Level := BitVec.ofInt 17 v

/-- LEVEL_ONE as a register value. -/
def levelTop : Level := 0x10000#17

/-- A register level as an integer. -/
def lvl (v : Level) : Int := (v.toNat : Int)

/-- `eg_note_on(e)` (41_envelope.md R142). -/
def Eg.noteOn (g : Eg) : Eg := { g with start := g.level, elapsed := 0#32, stage := .attack }

/-- `eg_note_off(e)` (41_envelope.md R143). -/
def Eg.noteOff (g : Eg) : Eg :=
  if g.stage = .idle then g else { g with start := g.level, elapsed := 0#32, stage := .release }

/-- `eg_stop(e)` and `enter_idle(e)`: all four fields zeroed (41_envelope.md R144, R145). -/
def Eg.stop (_ : Eg) : Eg := Eg.zero

/-- `tick_idle(e)` (41_envelope.md R146). -/
def Eg.tickIdle (g : Eg) : Eg := { g with level := 0#17 }

/-- `tick_sustain(e)` (41_envelope.md R149). -/
def Eg.tickSustain (g : Eg) (p : EgParams) : Eg := { g with level := p.sustain }

/-- The end of Decay: the level at SUSTAIN_A, the stage Sustain (41_envelope.md R148). -/
def Eg.enterSustain (g : Eg) (p : EgParams) : Eg :=
  { g with level := p.sustain, stage := .sustain, elapsed := 0#32 }

/-- The end of Attack: the level at 1.0, the stage Decay (41_envelope.md R147). -/
def Eg.enterDecay (g : Eg) : Eg := { g with level := levelTop, stage := .decay, elapsed := 0#32 }

/-- `tick_decay(e)` (41_envelope.md R148). -/
def Eg.tickDecay (g : Eg) (p : EgParams) (fs : Nat) : Eg :=
  let N := dur p.decay.toNat fs
  if N = 0 then (g.enterSustain p).tickSustain p
  else
    let n := g.elapsed.toNat + 1
    if N ≤ n then g.enterSustain p
    else { g with elapsed := mod32 n, level := levelOf (lerp (lvl levelTop) (lvl p.sustain) n N) }

/-- `tick_attack(e)` (41_envelope.md R147), with the cascade of R151. -/
def Eg.tickAttack (g : Eg) (p : EgParams) (fs : Nat) : Eg :=
  let N := dur p.attack.toNat fs
  if N = 0 then g.enterDecay.tickDecay p fs
  else
    let n := g.elapsed.toNat + 1
    if N ≤ n then g.enterDecay
    else { g with elapsed := mod32 n, level := levelOf (lerp (lvl g.start) (lvl levelTop) n N) }

/-- `tick_release(e)` (41_envelope.md R150). -/
def Eg.tickRelease (g : Eg) (p : EgParams) (fs : Nat) : Eg :=
  let N := dur p.release.toNat fs
  if N = 0 then Eg.zero
  else
    let n := g.elapsed.toNat + 1
    if N ≤ n then Eg.zero
    else { g with elapsed := mod32 n, level := levelOf (lerp (lvl g.start) 0 n N) }

/-- `eg_tick(e)`: one sample of an envelope generator; the level returned is the new LEVEL (41_envelope.md R145). -/
def Eg.tick (g : Eg) (p : EgParams) (fs : Nat) : Eg :=
  match g.stage with
  | .idle => g.tickIdle
  | .attack => g.tickAttack p fs
  | .decay => g.tickDecay p fs
  | .sustain => g.tickSustain p
  | .release => g.tickRelease p fs

/-- `eg_note_on` of all three (44_commands.md R238). -/
def EgBank.noteOn (b : EgBank) : EgBank := ⟨b.eg1.noteOn, b.eg2.noteOn, b.eg3.noteOn⟩

/-- `eg_note_off` of all three (44_commands.md R239). -/
def EgBank.noteOff (b : EgBank) : EgBank := ⟨b.eg1.noteOff, b.eg2.noteOff, b.eg3.noteOff⟩

/-- `eg_stop` of all three (44_commands.md R235, R237). -/
def EgBank.stop (b : EgBank) : EgBank := ⟨b.eg1.stop, b.eg2.stop, b.eg3.stop⟩

/-- One tick of each, in the order 1, 2, 3 (43_render.md R201). -/
def EgBank.tick (b : EgBank) (p : ParamSet) (fs : Nat) : EgBank :=
  ⟨b.eg1.tick p.eg1 fs, b.eg2.tick p.eg2 fs, b.eg3.tick p.eg3 fs⟩

end Sys2Proof.Machine
end

