-- ==== Sys2Proof/Machine/Filter.lean ====
section
/-! DEFINITION. The spectral filter (42_filter.md): the instantaneous cutoff and the gain of one harmonic. -/

namespace Sys2Proof.Machine

/-- `cutoff(e3)`: lerp(FLOOR_A, PEAK_A, e3, LEVEL_ONE) (42_filter.md R180). It is never negative: it lies between the floor
and the peak (R181). -/
def cutoff (floor peak : Word) (e3 : Level) : Nat :=
  (lerp (floor.toNat : Int) (peak.toNat : Int) (lvl e3) (lvl levelTop)).toNat

/-- The denominator M of the gain: (C² - Fk²)² · Q² + Fk² · C² · 2^32 (42_filter.md R182). -/
def gainDenominator (fk c q : Nat) : Nat :=
  (((c * c : Int) - fk * fk) ^ 2 * (q * q) + fk * fk * (c * c) * 2 ^ 32).toNat

/-- `gain(Fk, C, Q)`: isqrt((2^32 · C⁴ · Q²) div M) (42_filter.md R182). -/
def gain (fk c q : Nat) : Nat := isqrt (2 ^ 32 * c ^ 4 * (q * q) / gainDenominator fk c q)

end Sys2Proof.Machine
end

