-- ==== Sys2Proof/Machine/Oscillator.lean ====
section
/-! DEFINITION. The oscillator bank (40_oscillator.md): frequency assignment, phase advance, sine look-up, Nyquist guard. -/

namespace Sys2Proof.Machine

/-- The two synthesis layers (00_scope.md R5). -/
inductive Layer where
  | l1
  | l2
deriving DecidableEq, Repr

/-- PHASE[j][·]. -/
def OscBank.phase (b : OscBank) : Layer → Bank
  | .l1 => b.phase1
  | .l2 => b.phase2

/-- INC[j][·]. -/
def OscBank.inc (b : OscBank) : Layer → Bank
  | .l1 => b.inc1
  | .l2 => b.inc2

/-- PHASE[j][k] <- v. -/
def OscBank.setPhase (b : OscBank) (j : Layer) (h : Fin 24) (v : Word) : OscBank :=
  match j with
  | .l1 => { b with phase1 := b.phase1.set h v }
  | .l2 => { b with phase2 := b.phase2.set h v }

/-- The increments of one layer: rhu(k · F · ratio, FS) mod 2^32 for k = 1..24 (40_oscillator.md R113 with ratio 2^16,
R114 with RATIO_A). -/
def increments (f ratio fs : Nat) : Bank := Vector.ofFn fun h => mod32 (rhu ((h.val + 1) * f * ratio) fs)

/-- `set_inc1` then `set_inc2` (40_oscillator.md R113, R114). -/
def OscBank.setIncs (b : OscBank) (f ratio fs : Word) : OscBank :=
  { b with
    inc1 := increments f.toNat 65536 fs.toNat
    inc2 := increments f.toNat ratio.toNat fs.toNat }

/-- `advance(j, k)`: the phase after one sample, mod 2^32 (40_oscillator.md R116). -/
def OscBank.advance (b : OscBank) (j : Layer) (h : Fin 24) : OscBank :=
  b.setPhase j h ((b.phase j)[h] + (b.inc j)[h])

/-- The table entry that a phase selects: SINE_LUT[PHASE[31:20]] (40_oscillator.md R120). -/
def sineOf (phase : Word) : Int := sineLut (phase.extractLsb' 20 12).toNat

/-- `osc_sample(j, k)`: advance, then look up (40_oscillator.md R120). -/
def OscBank.sample (b : OscBank) (j : Layer) (h : Fin 24) : OscBank × Int :=
  (b.advance j h, sineOf ((b.advance j h).phase j)[h])

/-- Whether harmonic k is included: k · NOTE_FREQ ≤ FS · 2^15 (40_oscillator.md R121). -/
def included (noteFreq fs : Word) (k : Nat) : Bool := k * noteFreq.toNat ≤ fs.toNat * 2 ^ 15

/-- HARM_COUNT: how many harmonics are included (40_oscillator.md R122, 10_state.md R45). -/
def harmCount (noteFreq fs : Word) : Nat :=
  if noteFreq.toNat = 0 then 24 else min 24 (fs.toNat * 2 ^ 15 / noteFreq.toNat)

end Sys2Proof.Machine
end

