-- ==== Sys2Proof/Machine/Render.lean ====
section
/-! DEFINITION. The render pipeline (43_render.md): the sample step and the voice-completion test. -/

namespace Sys2Proof.Machine

/-- Stage A: ((65536 - MIX) · SAW[k] + MIX · SQR[k]) >>> 16 (43_render.md R204). -/
def amplitude (mix : Level) (saw sqr : Word) : Int :=
  asr ((65536 - lvl mix) * saw.toInt + lvl mix * sqr.toInt) 16

/-- Stages P1, P2 and P3 on top of an amplitude: the contribution of one layer of one harmonic (43_render.md R204). -/
def contribution (e : Level) (amp s : Int) (g : Nat) : Int :=
  asr (asr (asr (lvl e * amp) 16 * s) 15 * g) 16

/-- The values that are the same for every harmonic of one sample (43_render.md R200, R201, R202). -/
structure SampleEnv where
  inst : Instance
  noteFreq : Word
  fs : Word
  mix1 : Level
  mix2 : Level
  reson : Nat
  /-- e1 and e2: the levels of EG1 and EG2 after this sample's tick. -/
  e1 : Level
  e2 : Level
  /-- C: this sample's cutoff. -/
  cutoff : Nat
deriving DecidableEq, Repr

/-- One included harmonic: the gain, then layer 1, then layer 2 (43_render.md R200, R203). -/
def harmonicStep (v : SampleEnv) (h : Fin 24) (b : OscBank) (acc : Int) : OscBank × Int :=
  let g := gain ((h.val + 1) * v.noteFreq.toNat) v.cutoff v.reson
  let r1 := b.sample .l1 h
  let p1 := contribution v.e1 (amplitude v.mix1 v.inst.saw[h] v.inst.sqr[h]) r1.2 g
  let r2 := r1.1.sample .l2 h
  let p2 := contribution v.e2 (amplitude v.mix2 v.inst.saw[h] v.inst.sqr[h]) r2.2 g
  (r2.1, acc + p1 + p2)

/-- The harmonics of one sample in rising order, stopping at the first that is not included (43_render.md R203). -/
def harmonics (v : SampleEnv) : List (Fin 24) → OscBank → Int → OscBank × Int
  | [], b, acc => (b, acc)
  | h :: hs, b, acc =>
    if included v.noteFreq v.fs (h.val + 1) then
      harmonics v hs (harmonicStep v h b acc).1 (harmonicStep v h b acc).2
    else (b, acc)

/-- The envelope generators after this sample's tick (43_render.md R201). -/
def State.tickedEgs (s : State) : EgBank := s.egs.tick s.live s.fs.toNat

/-- This sample's cutoff, from EG3's level after its tick (43_render.md R202). -/
def State.sampleCutoff (s : State) : Nat :=
  cutoff s.live.filter.floor s.live.filter.peak s.tickedEgs.eg3.level

/-- The values shared by this sample's harmonics. -/
def State.sampleEnv (s : State) : SampleEnv :=
  { inst := s.inst
    noteFreq := s.noteFreq
    fs := s.fs
    mix1 := s.live.osc.mix1
    mix2 := s.live.osc.mix2
    reson := s.live.filter.reson.toNat
    e1 := s.tickedEgs.eg1.level
    e2 := s.tickedEgs.eg2.level
    cutoff := s.sampleCutoff }

/-- The oscillator bank after this sample and the sample accumulator, which starts at 0 (43_render.md R200, R206). -/
def State.sampleSum (s : State) : OscBank × Int := harmonics s.sampleEnv (List.finRange 24) s.osc 0

/-- The accumulation of one output sample into one channel's word: sat32(OUT[c][idx] + y) (43_render.md R209). -/
def accumulated (old : Word) (y : Int) : Word := s32 (sat32 (old.toInt + y))

/-- The accumulation of `y` into OUT[c][idx] of every channel of a list (43_render.md R209). -/
def accumulateOut (c : Instance) (epoch idx : Nat) (y : Int) : List Nat → Memory → Memory
  | [], m => m
  | ch :: chs, m =>
    accumulateOut c epoch idx y chs
      (m.putWord (outAddr c ch idx) (accumulated (m.word epoch (outAddr c ch idx)) y))

/-- `sample_step(RB_I)` (43_render.md R200, R207 to R210). -/
def State.sampleStep (s : State) : State :=
  let r := s.sampleSum
  let y := sat32 r.2
  { s with
    egs := s.tickedEgs
    osc := r.1
    irqStatus := if clips r.2 then s.irqStatus ||| Flag.clip.mask else s.irqStatus
    lastSample := s32 y
    lastCutoff := mod32 s.sampleCutoff
    sampleCnt := s.sampleCnt + 1#32
    outbuf := accumulateOut s.inst s.epoch s.sampleIndex y (List.range s.channels.toNat) s.outbuf }

/-- The gain of every harmonic of this sample is defined: the cutoff and q are at least 1 (42_filter.md R182, R186). -/
def State.gainDefined (s : State) : Bool := 1 ≤ s.sampleCutoff && 1 ≤ s.live.filter.reson.toNat

/-- This sample's OUTBUF words exist: the index is below BLOCK_MAX and every channel below CH_MAX (20_memory.md R80). -/
def State.insideOutbuf (s : State) : Bool :=
  s.sampleIndex < s.inst.blockMax && s.channels.toNat ≤ s.inst.chMax

/-- Whether the voice-completion test finds the voice finished (43_render.md R211). -/
def State.voiceFinished (s : State) : Bool :=
  s.active && s.egs.eg1.stage == .idle && s.egs.eg2.stage == .idle

/-- The voice-completion test (43_render.md R211). -/
def State.completionTest (s : State) : State :=
  { s with
    active := if s.voiceFinished then false else s.active
    irqStatus := if s.voiceFinished then s.irqStatus ||| Flag.voiceDone.mask else s.irqStatus }

end Sys2Proof.Machine
end

