-- ==== Sys2Proof/Machine/Commands.lean ====
section
/-! DEFINITION. The six commands (44_commands.md). A command takes two kinds of step, and its meaning covers both
(assumption log 6): at the HOST's turn its issue, the validation and acceptance of R230 to R233; at the ENGINE's turn its
ENGINE step (R234). -/

namespace Sys2Proof.Machine

/-- A step's outcome. -/
abbrev Result := Host.Outcome State Fault Refusal

/-- The abort step (44_commands.md R235). -/
def State.abortStep (s : State) : State :=
  { s with egs := s.egs.stop, active := false, abortReq := false }.complete

/-- NOP: at issue R230; its ENGINE step only completes (44_commands.md R236). -/
def execNop (s : State) : Result :=
  if s.turn = .host then .next (s.issue .nop) else .next s.complete

/-- PREPARE: at issue R230; its ENGINE step sets the configuration and stops the voice (44_commands.md R237). -/
def execPrepare (s : State) : Result :=
  if s.turn = .host then .next (s.issue .prepare)
  else
    .next
      { s with
        fs := s.larg0
        blockSize := s.larg1
        channels := s.larg2
        prepared := true
        egs := s.egs.stop
        active := false }.complete

/-- NOTE_ON's ENGINE step: commit, frequency and increments, envelopes triggered, voice active (44_commands.md R238). -/
def State.startNote (s : State) : State :=
  let c := s.commit
  { c with
    noteFreq := s.larg0
    noteVel := s.larg1
    osc := c.osc.setIncs s.larg0 c.live.osc.ratio s.fs
    egs := c.egs.noteOn
    active := true }.complete

/-- NOTE_ON: at issue R230; then its ENGINE step (44_commands.md R238). The increments divide by FS, which PREPARED keeps at
1 or more (40_oscillator.md R113). -/
def execNoteOn (s : State) : Result :=
  if s.turn = .host then .next (s.issue .noteOn)
  else if s.fs = 0#32 then .fault .zeroSampleRate
  else .next s.startNote

/-- NOTE_OFF: at issue R230; its ENGINE step releases every envelope (44_commands.md R239). -/
def execNoteOff (s : State) : Result :=
  if s.turn = .host then .next (s.issue .noteOff)
  else .next { s with egs := s.egs.noteOff }.complete

/-- FORCE_STOP: at issue R230, R233, accepted whatever BUSY is; its ENGINE step is the abort step
(44_commands.md R240, R235). -/
def execForceStop (s : State) : Result :=
  if s.turn = .host then .next (s.issue .forceStop) else .next s.abortStep

/-- RENDER_BLOCK's COMMIT step (44_commands.md R241). -/
def State.renderCommit (s : State) : State :=
  { s.commit with
    rbI := 0#32
    rbPhase := if s.active && s.numSamples != 0#32 then .sample else .finish }

/-- RENDER_BLOCK's SAMPLE step: one sample, and on to FINISH after the last (44_commands.md R241). -/
def State.renderSample (s : State) : State :=
  { s.sampleStep with
    rbI := s.rbI + 1#32
    rbPhase := if s.rbI + 1#32 = s.numSamples then .finish else .sample }

/-- RENDER_BLOCK's FINISH step (44_commands.md R241). -/
def State.renderFinish (s : State) : State := s.completionTest.complete

/-- RENDER_BLOCK: at issue R230; then the ENGINE step that RB_PHASE names (44_commands.md R241). -/
def execRenderBlock (s : State) : Result :=
  if s.turn = .host then .next (s.issue .renderBlock)
  else
    match s.rbPhase with
    | .commit => .next s.renderCommit
    | .sample =>
      if !s.gainDefined then .fault .gainUndefined
      else if !s.insideOutbuf then .fault .outsideOutbuf
      else .next s.renderSample
    | .finish => .next s.renderFinish

end Sys2Proof.Machine
end

