-- ==== Sys2Proof/Machine/Dispatch.lean ====
section
/-! DEFINITION. One arm per command (30_encoding.md R91). -/

namespace Sys2Proof.Machine

def exec (i : Instr) (s : State) : Host.Outcome State Fault Refusal :=
  match i with
  | .nop => Sys2Proof.Machine.execNop s
  | .prepare => Sys2Proof.Machine.execPrepare s
  | .noteOn => Sys2Proof.Machine.execNoteOn s
  | .noteOff => Sys2Proof.Machine.execNoteOff s
  | .forceStop => Sys2Proof.Machine.execForceStop s
  | .renderBlock => Sys2Proof.Machine.execRenderBlock s

end Sys2Proof.Machine
end

