-- ==== Sys2Proof/Machine/Bus.lean ====
section
/-! DEFINITION. The register map and the bus (20_memory.md R60 to R70, R80): which register an address names, what reading and
writing it does. A write to CMD is the issue of a command and stands in Commands.lean and Schedule.lean. -/

namespace Sys2Proof.Machine

/-- The four parameter registers of one envelope generator (10_state.md R35). -/
inductive EgParam where
  | attack
  | decay
  | sustain
  | release
deriving DecidableEq, Repr

/-- The four state fields of one envelope generator (10_state.md R42). -/
inductive EgField where
  | stage
  | level
  | elapsed
  | start
deriving DecidableEq, Repr

/-- The mapped registers, one constructor per row of the map (20_memory.md R65). -/
inductive Reg where
  | id
  | version
  | params
  | cmd
  | arg (i : Fin 3)
  | status
  | irqStatus
  | irqEnable
  | dirty
  | fs
  | blockSize
  | channels
  | noteFreq
  | noteVel
  | harmCount
  | lastSample
  | lastCutoff
  | sampleCnt
  | egShadow (e : EgId) (p : EgParam)
  | egActive (e : EgId) (p : EgParam)
  | egState (e : EgId) (f : EgField)
  | floor
  | peak
  | reson
  | floorA
  | peakA
  | resonA
  | mix1
  | mix2
  | ratio
  | mix1A
  | mix2A
  | ratioA
  | saw (h : Fin 24)
  | sqr (h : Fin 24)
  | phase (j : Layer) (h : Fin 24)
  | inc (j : Layer) (h : Fin 24)
  | sine (i : Fin 4096)
  | out (ch i : Nat)
deriving DecidableEq, Repr

/-- The access types of the map (20_memory.md R65). -/
inductive Access where
  | ro
  | rw
  | warl
  | wo
  | w1c
  | w1s
deriving DecidableEq, Repr

/-- A register's access type (20_memory.md R65). -/
def Reg.access : Reg → Access
  | .id | .version | .params | .status | .fs | .blockSize | .channels | .noteFreq | .noteVel | .harmCount | .lastSample
  | .lastCutoff | .sampleCnt | .egActive _ _ | .egState _ _ | .floorA | .peakA | .resonA | .mix1A | .mix2A | .ratioA
  | .saw _ | .sqr _ | .phase _ _ | .inc _ _ | .sine _ => .ro
  | .arg _ | .irqEnable | .ratio | .out _ _ => .rw
  | .egShadow _ _ | .floor | .peak | .reson | .mix1 | .mix2 => .warl
  | .cmd => .wo
  | .irqStatus => .w1c
  | .dirty => .w1s

/-- EB(e) = 0x0100 + 0x40 · (e - 1) (20_memory.md R65). -/
def egBase : EgId → Nat
  | .e1 => 0x0100
  | .e2 => 0x0140
  | .e3 => 0x0180

/-- The rows of the map for one envelope generator (20_memory.md R65). -/
def egRows (e : EgId) : List (Nat × Reg) := [
  (egBase e + 0x00, .egShadow e .attack), (egBase e + 0x04, .egShadow e .decay),
  (egBase e + 0x08, .egShadow e .sustain), (egBase e + 0x0C, .egShadow e .release),
  (egBase e + 0x10, .egActive e .attack), (egBase e + 0x14, .egActive e .decay),
  (egBase e + 0x18, .egActive e .sustain), (egBase e + 0x1C, .egActive e .release),
  (egBase e + 0x20, .egState e .stage), (egBase e + 0x24, .egState e .level),
  (egBase e + 0x28, .egState e .elapsed), (egBase e + 0x2C, .egState e .start)]

/-- The rows of the map for single registers, the envelope generators' apart (20_memory.md R65). -/
def singleRows : List (Nat × Reg) := [
  (0x0000, .id), (0x0004, .version), (0x0008, .params),
  (0x0010, .cmd), (0x0014, .arg 0), (0x0018, .arg 1), (0x001C, .arg 2),
  (0x0020, .status), (0x0024, .irqStatus), (0x0028, .irqEnable), (0x002C, .dirty),
  (0x0030, .fs), (0x0034, .blockSize), (0x0038, .channels), (0x003C, .noteFreq), (0x0040, .noteVel),
  (0x0044, .harmCount), (0x0048, .lastSample), (0x004C, .lastCutoff), (0x0050, .sampleCnt),
  (0x0200, .floor), (0x0204, .peak), (0x0208, .reson),
  (0x0210, .floorA), (0x0214, .peakA), (0x0218, .resonA),
  (0x0220, .mix1), (0x0224, .mix2), (0x0228, .ratio),
  (0x0230, .mix1A), (0x0234, .mix2A), (0x0238, .ratioA)]

/-- All rows of the map that name one register (20_memory.md R65). -/
def mapRows : List (Nat × Reg) := singleRows ++ egRows .e1 ++ egRows .e2 ++ egRows .e3

/-- The index of the word at address `a` in an array of `n` words at `base`, if it is one of them. -/
def arrayIndex (base n a : Nat) : Option (Fin n) :=
  if h : base ≤ a ∧ a % 4 = 0 ∧ (a - base) / 4 < n then some ⟨(a - base) / 4, h.2.2⟩ else none

/-- The register an aligned address names; none where the map has no row: unmapped (20_memory.md R65, R80). -/
def regAt (c : Instance) (a : Nat) : Option Reg :=
  if a < 0x0400 then mapRows.lookup a
  else if a < 0x0480 then (arrayIndex 0x0400 24 a).map .saw
  else if a < 0x0600 then (arrayIndex 0x0480 24 a).map .sqr
  else if a < 0x0680 then (arrayIndex 0x0600 24 a).map (.phase .l1)
  else if a < 0x0700 then (arrayIndex 0x0680 24 a).map (.phase .l2)
  else if a < 0x0780 then (arrayIndex 0x0700 24 a).map (.inc .l1)
  else if a < 0x4000 then (arrayIndex 0x0780 24 a).map (.inc .l2)
  else if a < 0x8000 then (arrayIndex 0x4000 4096 a).map .sine
  else (arrayIndex 0x8000 (c.chMax * c.blockMax) a).map fun i => .out (i.val / c.blockMax) (i.val % c.blockMax)

/-- The offset of a parameter register in its block (20_memory.md R65). -/
def EgParam.offset : EgParam → Nat
  | .attack => 0x00
  | .decay => 0x04
  | .sustain => 0x08
  | .release => 0x0C

/-- The offset of a state field in its envelope generator's block (20_memory.md R65). -/
def EgField.offset : EgField → Nat
  | .stage => 0x20
  | .level => 0x24
  | .elapsed => 0x28
  | .start => 0x2C

/-- The address of a register, as a HOST program names it (20_memory.md R65, R80; 30_encoding.md R96). -/
def regAddr (c : Instance) : Reg → Nat
  | .id => 0x0000
  | .version => 0x0004
  | .params => 0x0008
  | .cmd => 0x0010
  | .arg i => 0x0014 + 4 * i.val
  | .status => 0x0020
  | .irqStatus => 0x0024
  | .irqEnable => 0x0028
  | .dirty => 0x002C
  | .fs => 0x0030
  | .blockSize => 0x0034
  | .channels => 0x0038
  | .noteFreq => 0x003C
  | .noteVel => 0x0040
  | .harmCount => 0x0044
  | .lastSample => 0x0048
  | .lastCutoff => 0x004C
  | .sampleCnt => 0x0050
  | .egShadow e p => egBase e + p.offset
  | .egActive e p => egBase e + 0x10 + p.offset
  | .egState e f => egBase e + f.offset
  | .floor => 0x0200
  | .peak => 0x0204
  | .reson => 0x0208
  | .floorA => 0x0210
  | .peakA => 0x0214
  | .resonA => 0x0218
  | .mix1 => 0x0220
  | .mix2 => 0x0224
  | .ratio => 0x0228
  | .mix1A => 0x0230
  | .mix2A => 0x0234
  | .ratioA => 0x0238
  | .saw h => 0x0400 + 4 * h.val
  | .sqr h => 0x0480 + 4 * h.val
  | .phase .l1 h => 0x0600 + 4 * h.val
  | .phase .l2 h => 0x0680 + 4 * h.val
  | .inc .l1 h => 0x0700 + 4 * h.val
  | .inc .l2 h => 0x0780 + 4 * h.val
  | .sine i => 0x4000 + 4 * i.val
  | .out ch i => outAddr c ch i

/-- One parameter register of an envelope generator. -/
def EgParams.get (p : EgParams) : EgParam → Level
  | .attack => p.attack
  | .decay => p.decay
  | .sustain => p.sustain
  | .release => p.release

/-- One parameter register of an envelope generator written. -/
def EgParams.set (p : EgParams) (f : EgParam) (v : Level) : EgParams :=
  match f with
  | .attack => { p with attack := v }
  | .decay => { p with decay := v }
  | .sustain => { p with sustain := v }
  | .release => { p with release := v }

/-- The parameters of one envelope generator replaced. -/
def ParamSet.setEg (s : ParamSet) (e : EgId) (p : EgParams) : ParamSet :=
  match e with
  | .e1 => { s with eg1 := p }
  | .e2 => { s with eg2 := p }
  | .e3 => { s with eg3 := p }

/-- One state field of an envelope generator as the bus reads it, zero-extended (20_memory.md R65). -/
def Eg.read (g : Eg) : EgField → Word
  | .stage => g.stage.code.setWidth 32
  | .level => g.level.setWidth 32
  | .elapsed => g.elapsed
  | .start => g.start.setWidth 32

/-- PARAMS: BLOCK_MAX, CH_MAX and 24 (20_memory.md R64). -/
def paramsWord (c : Instance) : Word := BitVec.ofNat 16 c.blockMax ++ BitVec.ofNat 8 c.chMax ++ 24#8

/-- What a legal read of a register returns; bits the register does not define read 0, and CMD reads 0 (20_memory.md R66). -/
def State.readReg (s : State) : Reg → Word
  | .id => Config.idWord
  | .version => Config.versionWord
  | .params => paramsWord s.inst
  | .cmd => 0#32
  | .arg i => s.x i
  | .status => s.statusWord
  | .irqStatus => s.irqStatus.setWidth 32
  | .irqEnable => s.irqEnable.setWidth 32
  | .dirty => s.dirty.setWidth 32
  | .fs => s.fs
  | .blockSize => s.blockSize
  | .channels => s.channels
  | .noteFreq => s.noteFreq
  | .noteVel => s.noteVel
  | .harmCount => mod32 (harmCount s.noteFreq s.fs)
  | .lastSample => s.lastSample
  | .lastCutoff => s.lastCutoff
  | .sampleCnt => s.sampleCnt
  | .egShadow e p => ((s.shadow.eg e).get p).setWidth 32
  | .egActive e p => ((s.live.eg e).get p).setWidth 32
  | .egState e f => (s.egs.get e).read f
  | .floor => s.shadow.filter.floor
  | .peak => s.shadow.filter.peak
  | .reson => s.shadow.filter.reson
  | .floorA => s.live.filter.floor
  | .peakA => s.live.filter.peak
  | .resonA => s.live.filter.reson
  | .mix1 => s.shadow.osc.mix1.setWidth 32
  | .mix2 => s.shadow.osc.mix2.setWidth 32
  | .ratio => s.shadow.osc.ratio
  | .mix1A => s.live.osc.mix1.setWidth 32
  | .mix2A => s.live.osc.mix2.setWidth 32
  | .ratioA => s.live.osc.ratio
  | .saw h => s.inst.saw[h]
  | .sqr h => s.inst.sqr[h]
  | .phase j h => (s.osc.phase j)[h]
  | .inc j h => (s.osc.inc j)[h]
  | .sine i => s32 (sineLut i.val)
  | .out ch i => s.out ch i

/-- What a legal write of `d` to a register does. A write to a read-only register is a bus error (20_memory.md R67, R82). A
write to CMD changes nothing here: it is the issue of a command, which step hands to exec. -/
def State.writeReg (s : State) (r : Reg) (d : Word) : State :=
  match r with
  | .cmd => s
  | .arg i => s.setX i d
  | .irqStatus => s.ackIrq d
  | .irqEnable => s.setIrqEnable d
  | .dirty => s.setDirty d
  | .egShadow e p =>
    { s with shadow := s.shadow.setEg e ((s.shadow.eg e).set p (clampLevel d)) }
  | .floor => { s with shadow := { s.shadow with filter := { s.shadow.filter with floor := clampFreq d } } }
  | .peak => { s with shadow := { s.shadow with filter := { s.shadow.filter with peak := clampFreq d } } }
  | .reson => { s with shadow := { s.shadow with filter := { s.shadow.filter with reson := clampReson d } } }
  | .mix1 => { s with shadow := { s.shadow with osc := { s.shadow.osc with mix1 := clampLevel d } } }
  | .mix2 => { s with shadow := { s.shadow with osc := { s.shadow.osc with mix2 := clampLevel d } } }
  | .ratio => { s with shadow := { s.shadow with osc := { s.shadow.osc with ratio := d } } }
  | .out ch i => s.setOut ch i d
  | .id | .version | .params | .status | .fs | .blockSize | .channels | .noteFreq | .noteVel | .harmCount | .lastSample
  | .lastCutoff | .sampleCnt | .egActive _ _ | .egState _ _ | .floorA | .peakA | .resonA | .mix1A | .mix2A | .ratioA
  | .saw _ | .sqr _ | .phase _ _ | .inc _ _ | .sine _ => s.busError

/-- The only legal access: 4 bytes at a multiple of 4 (20_memory.md R63). -/
def legalAccess (a : Addr) (n : Nat) : Bool := n == 4 && a.toNat % 4 == 0

/-- The register of a legal access to a mapped address. -/
def State.target (s : State) (a : Addr) (n : Nat) : Option Reg :=
  if legalAccess a n then regAt s.inst a.toNat else none

/-- `MemRead(a, n)`: the state after it and the data word (20_memory.md R63, R66). -/
def State.busRead (s : State) (a : Addr) (n : Nat) : State × Word :=
  match s.target a n with
  | some r => (s, s.readReg r)
  | none => (s.busError, 0#32)

/-- `MemWrite(a, n, d)`, but for the issue of a command (20_memory.md R63, R67, R68). -/
def State.busWrite (s : State) (a : Addr) (n : Nat) (d : Word) : State :=
  match s.target a n with
  | some r => s.writeReg r d
  | none => s.busError

/-- `MemRead(a, n)` as the HOST sees it: while the reset input is asserted it has no effect and returns 0
(70_reset_and_hazards.md R300). The data word goes to the HOST. -/
def State.hostRead (s : State) (a : Addr) (n : Nat) : State :=
  if s.resetPin then { s with rdata := 0#32 }
  else { (s.busRead a n).1 with rdata := (s.busRead a n).2 }

/-- The transaction of a HOST statement, a write to CMD apart (30_encoding.md R96, 70_reset_and_hazards.md R300). -/
def State.hostAccess (s : State) (op : HostOp) : State :=
  match op with
  | .write a n d => if s.resetPin then s else s.busWrite a n d
  | .read a n none => s.hostRead a n
  | .read a n (some v) =>
    { s.hostRead a n with hostFailed := s.hostFailed || (s.hostRead a n).rdata != v }
  | .poll a _ _ => s.hostRead a 4

/-- The byte lane `b` (0..3) of the aligned word at `a`, as a bus with byte lanes carries it (20_memory.md R62). -/
def State.laneByte (s : State) (a : Addr) (b : Nat) : Byte := byteOfWord (s.busRead a 4).2 b

end Sys2Proof.Machine
end

