-- ==== Sys2Proof/Machine/Schedule.lean ====
section
/-! DEFINITION. What the next step of the total order is, and what stands after it (10_state.md R20, 20_memory.md R72,
44_commands.md R234, 70_reset_and_hazards.md R300). -/

namespace Sys2Proof.Machine

/-- The step that is due. -/
inductive Due where
  /-- A command's step: its issue by the HOST, or the ENGINE's enabled step of it. -/
  | command (i : Instr)
  /-- The HOST writes a word to CMD that is no command (30_encoding.md R94). -/
  | illegalWord
  /-- Any other transaction of the HOST. -/
  | access (op : HostOp)
  /-- The reset input is asserted. -/
  | assertReset
  /-- The reset input is released. -/
  | releaseReset
  /-- The agent whose turn it is has no step to take. -/
  | idle
  /-- BUSY = 1 and 44_commands.md R234 names no step. -/
  | stuck
deriving DecidableEq, Repr

/-- The address of CMD (20_memory.md R65). -/
def cmdAddr : Addr := 0x0010#16

/-- The command word that a HOST statement issues: a legal write to CMD while the reset input is released
(44_commands.md R230, 70_reset_and_hazards.md R300). -/
def State.commandWord (s : State) (op : HostOp) : Option Word :=
  match op with
  | .write a n d => if !s.resetPin && legalAccess a n && a == cmdAddr then some d else none
  | .read _ _ _ => none
  | .poll _ _ _ => none

/-- The command whose step the ENGINE takes next: FORCE_STOP's abort step first, else that of the command in progress
(44_commands.md R234). None where R234 names no step. -/
def State.engineCommand (s : State) : Option Instr :=
  if s.abortReq then some .forceStop
  else
    match opcodeInstr s.curCmd with
    | some .forceStop => none
    | i => i

/-- The step that is due at the HOST's turn. -/
def State.hostDue (s : State) : Due :=
  match s.host with
  | [] => .idle
  | op :: _ =>
    match s.commandWord op with
    | some w =>
      match decodeWord w with
      | .ok i => .command i
      | .error _ => .illegalWord
    | none => .access op

/-- The step that is due at the ENGINE's turn: none while BUSY = 0 (44_commands.md R234) or while the reset input is asserted
(DEDUCED from 70_reset_and_hazards.md R300, assumption log 8). -/
def State.engineDue (s : State) : Due :=
  if s.busy && !s.resetPin then
    match s.engineCommand with
    | some i => .command i
    | none => .stuck
  else .idle

/-- The step that is due. -/
def State.due (s : State) : Due :=
  match s.turn with
  | .host => s.hostDue
  | .engine => s.engineDue
  | .assertReset => .assertReset
  | .releaseReset => .releaseReset

/-- The HOST's statements left after a HOST step that ended in `t`: a poll stays until the value it read matches
(30_encoding.md R96). -/
def hostRest (t : State) : List HostOp → List HostOp
  | [] => []
  | .poll a m v :: ops => if t.rdata &&& m = v then ops else .poll a m v :: ops
  | .read _ _ _ :: ops => ops
  | .write _ _ _ :: ops => ops

/-- A step from `s` whose effect is `t` comes to its end: the turn is used up, and so is the HOST's statement if the turn was
the HOST's. -/
def State.retire (s t : State) : State :=
  { t with
    sched := s.sched.tail
    host := if s.turn = .host then hostRest t s.host else s.host }

/-- A step's outcome with its next state retired. -/
def retired (s : State) : Host.Outcome State Fault Refusal → Host.Outcome State Fault Refusal
  | .next t => .next (s.retire t)
  | .fault f => .fault f
  | .refused r => .refused r

/-- A HOST statement that writes the word `w` to CMD, placed as the next step. -/
def State.placeCommand (s : State) (w : Word) : State :=
  { s with host := .write cmdAddr 4 w :: s.host, sched := .host :: s.sched, resetPin := false }

end Sys2Proof.Machine
end

