-- ==== Sys2Proof/Machine/Step.lean ====
section
/-! DEFINITION. One step of the total order (20_memory.md R72). -/

namespace Sys2Proof.Machine

/-- One atomic step: of the HOST, of the ENGINE, or of the reset input, as State says which is due. -/
def step (s : State) : Host.Outcome State Fault Refusal :=
  match s.due with
  | .command i => retired s (exec i s)
  | .illegalWord => .next (s.retire (s.reject .illegal))
  | .access op => .next (s.retire (s.hostAccess op))
  | .assertReset => .next (s.retire s.hardReset)
  | .releaseReset => .next (s.retire { s with resetPin := false })
  | .idle => .next (s.retire s)
  | .stuck => .fault .noEnabledStep

/-- The state in which the very next step runs the instruction whose bits are `w`: the HOST's next statement writes it to CMD,
the next turn is the HOST's, and the reset input is released (assumption log 4). -/
def State.withFetchWord (s : State) (nbits w : Nat) : State := s.placeCommand (BitVec.ofNat 32 (w % 2 ^ nbits))

end Sys2Proof.Machine
end

