-- ==== Sys2Proof/Machine/Program.lean ====
section
/-! DEFINITION. HOST programs (30_encoding.md R96 to R98). A program's binary encoding is its list of base statements, each a
bus transaction (R98); the pseudo-instructions expand into them (R97). Names of registers stand for their addresses. The
layout of the text (lines, comments) carries no meaning and is not modelled (assumption log 15). -/

namespace Sys2Proof.Machine

/-- `hz(X)` for X = num / den Hz: ⌊X · 2^16 + 1/2⌋ (30_encoding.md R96). DESIGN CHOICE (unsafe), assumption log 19: where that is no
u32 (X of 65536 or more, or rounded up to it) the spec says nothing, and the value wraps mod 2^32. -/
def hz (num den : Nat) : Word := mod32 (rhu (num * 65536) den)

/-- A register's name as an address (20_memory.md R65, R80). DESIGN CHOICE (unsafe), assumption log 20: for a name `OUT[c][i]` with
c ≥ CH_MAX or i ≥ BLOCK_MAX, which names no register, the spec says nothing; the address is R80's formula all the same, mod 2^16,
and so it can be another register's. -/
def nameAddr (c : Instance) (r : Reg) : Addr := BitVec.ofNat 16 (regAddr c r)

/-- `wr A, V` (30_encoding.md R96). -/
def wr (c : Instance) (r : Reg) (v : Word) : HostOp := .write (nameAddr c r) 4 v

/-- `rd A` (30_encoding.md R96). -/
def rd (c : Instance) (r : Reg) : HostOp := .read (nameAddr c r) 4 none

/-- `rd A, V` (30_encoding.md R96). -/
def rdExpect (c : Instance) (r : Reg) (v : Word) : HostOp := .read (nameAddr c r) 4 (some v)

/-- `poll A, M, V` (30_encoding.md R96). -/
def pollReg (c : Instance) (r : Reg) (m v : Word) : HostOp := .poll (nameAddr c r) m v

/-- The pseudo-instructions (30_encoding.md R97). -/
inductive Pseudo where
  | nop
  | prepare (fs bs ch : Word)
  | noteOn (f : Word)
  | noteOnVel (f vel : Word)
  | noteOff
  | forceStop
  | render (s n : Word)
  | wait
  | update (mask : Word)
  | clrirq (mask : Word)
  | setenv (e : EgId) (a d s r : Word)
  | setfilter (fl pk q : Word)
  | setosc (m1 m2 rt : Word)
  | zero (c s n : Nat)
deriving DecidableEq, Repr

/-- A pseudo-instruction's expansion into base statements (30_encoding.md R97). What `zero` writes outside OUTBUF is as
`nameAddr` says (assumption log 20). -/
def Pseudo.expand (c : Instance) : Pseudo → List HostOp
  | .nop => [wr c .cmd (encodeWord .nop)]
  | .prepare fs bs ch => [wr c (.arg 0) fs, wr c (.arg 1) bs, wr c (.arg 2) ch, wr c .cmd (encodeWord .prepare)]
  | .noteOn f => [wr c (.arg 0) f, wr c (.arg 1) 0#32, wr c .cmd (encodeWord .noteOn)]
  | .noteOnVel f vel => [wr c (.arg 0) f, wr c (.arg 1) vel, wr c .cmd (encodeWord .noteOn)]
  | .noteOff => [wr c .cmd (encodeWord .noteOff)]
  | .forceStop => [wr c .cmd (encodeWord .forceStop)]
  | .render s n => [wr c (.arg 0) s, wr c (.arg 1) n, wr c .cmd (encodeWord .renderBlock)]
  | .wait => [pollReg c .status 1#32 0#32]
  | .update mask => [wr c .dirty mask]
  | .clrirq mask => [wr c .irqStatus mask]
  | .setenv e a d s r =>
    [wr c (.egShadow e .attack) a, wr c (.egShadow e .decay) d, wr c (.egShadow e .sustain) s, wr c (.egShadow e .release) r]
  | .setfilter fl pk q => [wr c .floor fl, wr c .peak pk, wr c .reson q]
  | .setosc m1 m2 rt => [wr c .mix1 m1, wr c .mix2 m2, wr c .ratio rt]
  | .zero ch s n => (List.range n).map fun i => wr c (.out ch (s + i)) 0#32

/-- One statement of a HOST program: a base statement or a pseudo-instruction (30_encoding.md R96, R97). -/
inductive HostStatement where
  | base (op : HostOp)
  | pseudo (p : Pseudo)
deriving DecidableEq, Repr

/-- A statement's base statements: its own, or its expansion (30_encoding.md R97, R98). -/
def HostStatement.expand (c : Instance) : HostStatement → List HostOp
  | .base op => [op]
  | .pseudo p => p.expand c

/-- The encoding of a HOST program, its statements of both kinds in any order: its sequence of bus transactions, every
pseudo-instruction expanded first (30_encoding.md R98). -/
def expandAll (c : Instance) (prog : List HostStatement) : List HostOp := prog.flatMap (HostStatement.expand c)

/-- An encoded HOST program placed as the HOST's pending statements (assumption log 4). -/
def State.load (s : State) (prog : List HostOp) : State := { s with host := prog }

/-- A HOST program's run is over: no statement left and no command in progress (70_reset_and_hazards.md R317). -/
def State.ended (s : State) : Bool := s.host.isEmpty && !s.busy

end Sys2Proof.Machine
end

