-- ==== Sys2Proof/Safety.lean ====
section
/-! DEFINITION. What a safe run is, in the terms the claims use: the invariants of 10_state.md R49, the invariant that every step
keeps, and the states in which a command is about to run. -/

namespace Sys2Proof.Machine

/-- An envelope generator keeps items 1 to 3 of 10_state.md R49. -/
abbrev Eg.ok (g : Eg) : Prop :=
  (g.stage = .idle → g.level = 0#17 ∧ g.start = 0#17 ∧ g.elapsed = 0#32) ∧
    g.level.toNat ≤ 65536 ∧ g.start.toNat ≤ 65536 ∧ (g.stage = .sustain → g.elapsed = 0#32)

/-- Every envelope generator keeps items 1 to 3 of 10_state.md R49. -/
abbrev EgBank.ok (b : EgBank) : Prop := b.eg1.ok ∧ b.eg2.ok ∧ b.eg3.ok

/-- The parameters of an envelope generator are values that its write rule can store (10_state.md R35, R49 item 4). -/
abbrev EgParams.ok (p : EgParams) : Prop :=
  p.attack.toNat ≤ 65536 ∧ p.decay.toNat ≤ 65536 ∧ p.sustain.toNat ≤ 65536 ∧ p.release.toNat ≤ 65536

/-- Every parameter register of a set holds a value that its write rule can store (10_state.md R35, R37, R39, R49 item 4). -/
abbrev ParamSet.ok (p : ParamSet) : Prop :=
  p.eg1.ok ∧ p.eg2.ok ∧ p.eg3.ok ∧ 1 ≤ p.filter.floor.toNat ∧ 1 ≤ p.filter.peak.toNat ∧
    1 ≤ p.filter.reson.toNat ∧ p.filter.reson.toNat ≤ 16777215 ∧ p.osc.mix1.toNat ≤ 65536 ∧ p.osc.mix2.toNat ≤ 65536

/-- The six invariants of 10_state.md R49. -/
structure SpecInvariants (s : State) : Prop where
  /-- Items 1 to 3. -/
  egs : s.egs.ok
  /-- Item 4, the shadow registers. -/
  shadow : s.shadow.ok
  /-- Item 4, the active copies. -/
  live : s.live.ok
  /-- Item 5. -/
  noAbort : s.busy = false → s.abortReq = false
  /-- Item 6. -/
  sampleRate : s.prepared = true → 1 ≤ s.fs.toNat

/-- The invariant that every step keeps: those of 10_state.md R49, the ranges of R33, and what they need in order to be kept: the
command in progress is one that was accepted (44_commands.md R230, R233), a render stays inside its block (R241), OUTBUF is
canonical and lists only bytes that exist (20_memory.md R80), nothing is in progress while the reset input is asserted. -/
structure Inv (s : State) : Prop where
  spec : SpecInvariants s
  inst : s.inst.wf = true
  configured : s.prepared = true →
    s.fs.toNat ≤ 1048575 ∧ 1 ≤ s.blockSize.toNat ∧ s.blockSize.toNat ≤ s.inst.blockMax ∧
      1 ≤ s.channels.toNat ∧ s.channels.toNat ≤ s.inst.chMax
  resetIdle : s.resetPin = true → s.busy = false
  command : s.busy = true → s.abortReq = false → s.engineCommand.isSome = true
  preparing : s.busy = true → s.curCmd = 1#8 →
    1 ≤ s.larg0.toNat ∧ s.larg0.toNat ≤ 1048575 ∧ 1 ≤ s.larg1.toNat ∧ s.larg1.toNat ≤ s.inst.blockMax ∧
      1 ≤ s.larg2.toNat ∧ s.larg2.toNat ≤ s.inst.chMax
  starting : s.busy = true → s.curCmd = 2#8 → s.prepared = true
  rendering : s.busy = true → s.curCmd = 5#8 →
    s.prepared = true ∧ s.larg0.toNat + s.larg1.toNat ≤ s.blockSize.toNat ∧
      (s.rbPhase = .sample → s.rbI.toNat < s.larg1.toNat ∧ s.active = true)
  memory : Memory.wf s.outbuf
  inside : ∀ p ∈ s.outbuf, 0x8000 ≤ p.1 ∧ p.1 < 0x8000 + 4 * (s.inst.chMax * s.inst.blockMax)

/-- The next step of the total order is the ENGINE's step of the command in progress. -/
abbrev State.engineRuns (s : State) (i : Instr) : Prop :=
  s.turn = .engine ∧ s.busy = true ∧ s.resetPin = false ∧ s.engineCommand = some i

/-- The next step of the total order is the HOST's issue of the command word `w`. -/
abbrev State.hostIssues (s : State) (w : Word) : Prop :=
  s.turn = .host ∧ s.resetPin = false ∧ s.host.head? = some (.write 0x0010#16 4 w)

/-- A HOST read of `n` bytes at `a` gets the data word `v` and leaves IRQ_STATUS at `st`: 0 and nothing else while the reset input
is asserted; 0 and BUS_ERR where the access is illegal or the address unmapped; the register's value otherwise
(20_memory.md R63, R66; 70_reset_and_hazards.md R300). -/
abbrev State.readGives (s : State) (a : Addr) (n : Nat) (v : Word) (st : BitVec 5) : Prop :=
  (s.resetPin = true ∧ v = 0#32 ∧ st = s.irqStatus) ∨
    (s.resetPin = false ∧ (n ≠ 4 ∨ a.toNat % 4 ≠ 0 ∨ regAt s.inst a.toNat = none) ∧ v = 0#32 ∧ st = s.irqStatus ||| 0x10#5) ∨
    (s.resetPin = false ∧ n = 4 ∧ a.toNat % 4 = 0 ∧ ∃ r, regAt s.inst a.toNat = some r ∧ v = s.readReg r ∧ st = s.irqStatus)

/-- The data word of a HOST read at `a`, a legal one. -/
def State.wordAt (s : State) (a : Nat) : Word := (s.hostAccess (.read (BitVec.ofNat 16 a) 4 none)).rdata

/-- A RENDER_BLOCK's sample step can be taken: RB_PHASE is SAMPLE, the parameters and envelopes are in range (10_state.md R49),
and the sample's words exist (43_render.md R200, 20_memory.md R80). -/
abbrev State.sampleReady (s : State) : Prop :=
  s.turn = .engine ∧ s.rbPhase = .sample ∧ s.live.ok ∧ s.egs.ok ∧
    s.larg0.toNat + s.rbI.toNat < s.inst.blockMax ∧ s.channels.toNat ≤ s.inst.chMax

/-- A state that a run of some HOST program under some order of turns reaches from the reset of some legal instance. -/
def Reachable (t : State) : Prop :=
  ∃ (c : Instance) (prog : List HostOp) (sched : List Turn) (n : Nat),
    c.wf = true ∧
      Sys2Proof.core.run n { State.resetOf c with host := prog, sched := sched } = Host.Outcome.next t

end Sys2Proof.Machine
end

