-- ==== Sys2Proof/Certificates/Slice0/Obligations.lean ====
section
/-! DEFINITION. The statements for the provers. Each docstring names the rule of spec/ it formalises. -/

open Sys2Proof Sys2Proof.Machine

/-! ## Command words -/

/-- The six words of the opcode map decode to their commands (30_encoding.md R91). -/
def Obligations.SixCommandWordsDecode : Prop :=
  decodeWord 0x00000000#32 = .ok .nop ∧ decodeWord 0x00000001#32 = .ok .prepare ∧
    decodeWord 0x00000002#32 = .ok .noteOn ∧ decodeWord 0x00000003#32 = .ok .noteOff ∧
    decodeWord 0x00000004#32 = .ok .forceStop ∧ decodeWord 0x00000005#32 = .ok .renderBlock

/-- A word selects a command exactly when bits 31:8 are 0 and bits 7:0 are its opcode; every other word is no command
(30_encoding.md R91, R94). -/
def Obligations.WordSelectsCommandByItsFields : Prop :=
  ∀ w : Word,
    (decodeWord w = .ok .nop ↔ w.extractLsb' 8 24 = 0#24 ∧ w.extractLsb' 0 8 = 0x00#8) ∧
      (decodeWord w = .ok .prepare ↔ w.extractLsb' 8 24 = 0#24 ∧ w.extractLsb' 0 8 = 0x01#8) ∧
      (decodeWord w = .ok .noteOn ↔ w.extractLsb' 8 24 = 0#24 ∧ w.extractLsb' 0 8 = 0x02#8) ∧
      (decodeWord w = .ok .noteOff ↔ w.extractLsb' 8 24 = 0#24 ∧ w.extractLsb' 0 8 = 0x03#8) ∧
      (decodeWord w = .ok .forceStop ↔ w.extractLsb' 8 24 = 0#24 ∧ w.extractLsb' 0 8 = 0x04#8) ∧
      (decodeWord w = .ok .renderBlock ↔ w.extractLsb' 8 24 = 0#24 ∧ w.extractLsb' 0 8 = 0x05#8) ∧
      ((∀ i, decodeWord w ≠ .ok i) ↔ w.extractLsb' 8 24 ≠ 0#24 ∨ 6 ≤ (w.extractLsb' 0 8).toNat)

/-- Decode and encode agree, both ways: an instruction's bytes decode to it whatever follows them, and bytes that decode to an
instruction are its bytes with the rest after them (30_encoding.md R90, R91, R95; 20_memory.md R62). -/
def Obligations.DecodeAndEncodeAgree : Prop :=
  (∀ (i : Instr) (rest : List Byte), i.wf = true → decodeBytes (encode i ++ rest) = .ok (i, rest)) ∧
    ∀ (bytes : List Byte) (i : Instr) (rest : List Byte),
      decodeBytes bytes = .ok (i, rest) → i.wf = true ∧ bytes = encode i ++ rest

/-! ## Steps -/

/-- A step runs the decoded command. At the HOST's turn, when its next statement writes a word to CMD whose bytes decode to
`i`, the step is exec of `i`, after which the statement and the turn are used up. At the ENGINE's turn, while a command is in
progress, the step is exec of the command that CUR_CMD names, or of FORCE_STOP when an abort is requested, after which the turn
is used up (44_commands.md R230, R234). -/
def Obligations.StepRunsTheDecodedCommand : Prop :=
  (∀ (s t : State) (w : Word) (i : Instr),
      s.hostIssues w → decodeBytes (bytesOfWord w) = .ok (i, []) → exec i s = .next t →
        step s = .next { t with sched := s.sched.tail, host := s.host.tail }) ∧
    (∀ (s t : State) (i : Instr),
      s.turn = .engine → s.busy = true → s.resetPin = false → s.abortReq = false → s.curCmd = i.opcode →
        i ≠ .forceStop → exec i s = .next t → step s = .next { t with sched := s.sched.tail, host := s.host }) ∧
    (∀ s t : State,
      s.turn = .engine → s.busy = true → s.resetPin = false → s.abortReq = true → exec .forceStop s = .next t →
        step s = .next { t with sched := s.sched.tail, host := s.host }) ∧
    ∀ (s : State) (i : Instr) (f : Fault), s.engineRuns i → exec i s = .fault f → step s = .fault f

/-- A word that is no command, written to CMD, is rejected with ERR_CODE = ILLEGAL whatever BUSY is, and nothing else changes
(30_encoding.md R94, 44_commands.md R230, R231). -/
def Obligations.IllegalWordIsRejected : Prop :=
  ∀ (s : State) (w : Word),
    s.hostIssues w → w.extractLsb' 8 24 ≠ 0#24 ∨ 6 ≤ (w.extractLsb' 0 8).toNat →
      step s = .next
        { s with
          errCode := .illegal
          irqStatus := s.irqStatus ||| 0x08#5
          sched := s.sched.tail
          host := s.host.tail }

/-- While BUSY = 0 the ENGINE has no step (10_state.md R23, 44_commands.md R234, 60_exceptions.md R293): its turn changes nothing
but the list of turns. That there are turns with no step to take, and that a HOST with no statement left takes one that changes
nothing, is the model's choice (assumption logs 3 and 4). -/
def Obligations.IdleTurnsChangeNothing : Prop :=
  (∀ s : State, s.turn = .engine → s.busy = false → step s = .next { s with sched := s.sched.tail }) ∧
    ∀ s : State, s.turn = .host → s.host = [] → step s = .next { s with sched := s.sched.tail }

/-- The base statements of a HOST program (30_encoding.md R96; 20_memory.md R60, R63, R66; 70_reset_and_hazards.md R300). `rd` is
one step, its read; `rd A, V` also records in hostFailed that the value read was not V. `wr` is one step, its write; a write to CMD
apart, which issues a command. `poll` reads once per iteration and goes on to the next statement exactly when the value read,
masked, is the one it waits for. A read of either kind at an illegal or unmapped address gets 0 and sets BUS_ERR, and while the
reset input is asserted it gets 0 and does nothing. That a program whose `rd A, V` failed goes on, and where the value read and the
failure are kept, is the model's choice (assumption log 5). -/
def Obligations.HostStatementsTakeTheirSteps : Prop :=
  (∀ (s : State) (a : Addr) (n : Nat) (v : Word) (st : BitVec 5) (ops : List HostOp),
      s.turn = .host → s.readGives a n v st →
        (s.host = .read a n none :: ops →
          step s = .next { s with rdata := v, irqStatus := st, sched := s.sched.tail, host := ops }) ∧
        ∀ e : Word, s.host = .read a n (some e) :: ops →
          step s = .next
            { s with
              rdata := v
              irqStatus := st
              hostFailed := if v = e then s.hostFailed else true
              sched := s.sched.tail
              host := ops }) ∧
    (∀ (s : State) (a : Addr) (n : Nat) (d : Word) (ops : List HostOp),
      s.turn = .host → s.host = .write a n d :: ops → s.resetPin = true ∨ n ≠ 4 ∨ a ≠ 0x0010#16 →
        step s = .next { s.hostAccess (.write a n d) with sched := s.sched.tail, host := ops }) ∧
    ∀ (s : State) (a : Addr) (m e v : Word) (st : BitVec 5) (ops : List HostOp),
      s.turn = .host → s.host = .poll a m e :: ops → s.readGives a 4 v st →
        step s = .next
          { s with
            rdata := v
            irqStatus := st
            sched := s.sched.tail
            host := if v &&& m = e then ops else .poll a m e :: ops }

/-! ## Issue -/

/-- The validation of a command, in the spec's order: BUSY, NOT_PREPARED, CONFIG (which also clears PREPARED), RANGE. A
rejected command records its code and sets CMD_ERR, and nothing else changes (44_commands.md R230, R231; 60_exceptions.md
R271, R274). -/
def Obligations.IssueRejectsInOrder : Prop :=
  (∀ (s : State) (i : Instr), s.turn = .host → s.busy = true → i ≠ .forceStop →
      exec i s = .next { s with errCode := .busy, irqStatus := s.irqStatus ||| 0x08#5 }) ∧
    (∀ (s : State) (i : Instr), s.turn = .host → s.busy = false → s.prepared = false → i = .noteOn ∨ i = .renderBlock →
      exec i s = .next { s with errCode := .notPrepared, irqStatus := s.irqStatus ||| 0x08#5 }) ∧
    (∀ s : State, s.turn = .host → s.busy = false →
      ¬(1 ≤ s.arg0.toNat ∧ s.arg0.toNat ≤ 1048575 ∧ 1 ≤ s.arg1.toNat ∧ s.arg1.toNat ≤ s.inst.blockMax ∧
          1 ≤ s.arg2.toNat ∧ s.arg2.toNat ≤ s.inst.chMax) →
      exec .prepare s =
        .next { s with prepared := false, errCode := .config, irqStatus := s.irqStatus ||| 0x08#5 }) ∧
    ∀ s : State, s.turn = .host → s.busy = false → s.prepared = true →
      s.blockSize.toNat < s.arg0.toNat + s.arg1.toNat →
        exec .renderBlock s = .next { s with errCode := .range, irqStatus := s.irqStatus ||| 0x08#5 }

/-- The acceptance of each command: CUR_CMD and the operands are latched and BUSY is set. RENDER_BLOCK also starts at COMMIT
with no sample done. FORCE_STOP sets ABORT_REQ, and leaves the command in progress as it is when there is one
(44_commands.md R233). -/
def Obligations.IssueAcceptsAndLatches : Prop :=
  ∀ s : State, s.turn = .host →
    (s.busy = false → exec .nop s =
      .next { s with curCmd := 0x00#8, larg0 := s.arg0, larg1 := s.arg1, larg2 := s.arg2, busy := true }) ∧
    (s.busy = false → 1 ≤ s.arg0.toNat ∧ s.arg0.toNat ≤ 1048575 ∧ 1 ≤ s.arg1.toNat ∧ s.arg1.toNat ≤ s.inst.blockMax ∧
        1 ≤ s.arg2.toNat ∧ s.arg2.toNat ≤ s.inst.chMax → exec .prepare s =
      .next { s with curCmd := 0x01#8, larg0 := s.arg0, larg1 := s.arg1, larg2 := s.arg2, busy := true }) ∧
    (s.busy = false → s.prepared = true → exec .noteOn s =
      .next { s with curCmd := 0x02#8, larg0 := s.arg0, larg1 := s.arg1, larg2 := s.arg2, busy := true }) ∧
    (s.busy = false → exec .noteOff s =
      .next { s with curCmd := 0x03#8, larg0 := s.arg0, larg1 := s.arg1, larg2 := s.arg2, busy := true }) ∧
    (s.busy = false → exec .forceStop s =
      .next { s with
              curCmd := 0x04#8, larg0 := s.arg0, larg1 := s.arg1, larg2 := s.arg2, busy := true, abortReq := true }) ∧
    (s.busy = true → exec .forceStop s = .next { s with abortReq := true }) ∧
    (s.busy = false → s.prepared = true → s.arg0.toNat + s.arg1.toNat ≤ s.blockSize.toNat → exec .renderBlock s =
      .next { s with
              curCmd := 0x05#8, larg0 := s.arg0, larg1 := s.arg1, larg2 := s.arg2, busy := true
              rbPhase := .commit, rbI := 0#32 })

/-! ## The ENGINE steps of the commands -/

/-- NOP's ENGINE step completes and changes nothing else (44_commands.md R236, R242). -/
def Obligations.NopOnlyCompletes : Prop :=
  ∀ s : State, s.turn = .engine →
    exec .nop s = .next { s with busy := false, irqStatus := s.irqStatus ||| 0x01#5 }

/-- PREPARE's ENGINE step sets the configuration from the latched operands, sets PREPARED, zeroes every envelope generator,
clears ACTIVE and completes; nothing else changes (44_commands.md R237). -/
def Obligations.PrepareConfiguresAndStops : Prop :=
  ∀ s : State, s.turn = .engine →
    exec .prepare s =
      .next
        { s with
          fs := s.larg0
          blockSize := s.larg1
          channels := s.larg2
          prepared := true
          egs := ⟨⟨.idle, 0#17, 0#32, 0#17⟩, ⟨.idle, 0#17, 0#32, 0#17⟩, ⟨.idle, 0#17, 0#32, 0#17⟩⟩
          active := false
          busy := false
          irqStatus := s.irqStatus ||| 0x01#5 }

/-- NOTE_ON's ENGINE step: the dirty groups are committed; the note is stored; the increments are the rounded quotients of
40_oscillator.md R113 and R114, with the ratio after the commit; every envelope generator restarts its attack from its held
level; ACTIVE is set and the command completes. The phases stay (R115), and nothing else changes (44_commands.md R238, R232;
41_envelope.md R142). -/
def Obligations.NoteOnStartsTheNote : Prop :=
  ∀ s : State, s.turn = .engine → s.fs ≠ 0#32 →
    ∃ inc1 inc2 : Bank,
      exec .noteOn s =
          .next
            { s with
              live :=
                { eg1 := if s.dirty.getLsbD 0 then s.shadow.eg1 else s.live.eg1
                  eg2 := if s.dirty.getLsbD 1 then s.shadow.eg2 else s.live.eg2
                  eg3 := if s.dirty.getLsbD 2 then s.shadow.eg3 else s.live.eg3
                  filter := if s.dirty.getLsbD 3 then s.shadow.filter else s.live.filter
                  osc := if s.dirty.getLsbD 4 then s.shadow.osc else s.live.osc }
              dirty := 0#5
              noteFreq := s.larg0
              noteVel := s.larg1
              osc := { s.osc with inc1 := inc1, inc2 := inc2 }
              egs :=
                ⟨⟨.attack, s.egs.eg1.level, 0#32, s.egs.eg1.level⟩, ⟨.attack, s.egs.eg2.level, 0#32, s.egs.eg2.level⟩,
                  ⟨.attack, s.egs.eg3.level, 0#32, s.egs.eg3.level⟩⟩
              active := true
              busy := false
              irqStatus := s.irqStatus ||| 0x01#5 } ∧
        ∀ h : Fin 24,
          inc1[h].toNat =
              (2 * ((h.val + 1) * s.larg0.toNat * 2 ^ 16) + s.fs.toNat) / (2 * s.fs.toNat) % 2 ^ 32 ∧
            inc2[h].toNat =
              (2 * ((h.val + 1) * s.larg0.toNat *
                (if s.dirty.getLsbD 4 then s.shadow.osc.ratio.toNat else s.live.osc.ratio.toNat)) + s.fs.toNat) /
                  (2 * s.fs.toNat) % 2 ^ 32

/-- NOTE_OFF's ENGINE step releases every envelope generator that is not Idle from its held level and completes; ACTIVE and
everything else stay (44_commands.md R239, 41_envelope.md R143). -/
def Obligations.NoteOffReleasesEveryEnvelope : Prop :=
  ∀ s : State, s.turn = .engine →
    exec .noteOff s =
      .next
        { s with
          egs :=
            ⟨if s.egs.eg1.stage = .idle then s.egs.eg1 else ⟨.release, s.egs.eg1.level, 0#32, s.egs.eg1.level⟩,
              if s.egs.eg2.stage = .idle then s.egs.eg2 else ⟨.release, s.egs.eg2.level, 0#32, s.egs.eg2.level⟩,
              if s.egs.eg3.stage = .idle then s.egs.eg3 else ⟨.release, s.egs.eg3.level, 0#32, s.egs.eg3.level⟩⟩
          busy := false
          irqStatus := s.irqStatus ||| 0x01#5 }

/-- FORCE_STOP's ENGINE step, the abort step: every envelope generator zeroed, ACTIVE and ABORT_REQ cleared, the command
completed; VOICE_DONE, OUTBUF, phases, increments, parameters and everything else stay (44_commands.md R235, R240). -/
def Obligations.AbortStepStopsTheVoice : Prop :=
  ∀ s : State, s.turn = .engine →
    exec .forceStop s =
      .next
        { s with
          egs := ⟨⟨.idle, 0#17, 0#32, 0#17⟩, ⟨.idle, 0#17, 0#32, 0#17⟩, ⟨.idle, 0#17, 0#32, 0#17⟩⟩
          active := false
          abortReq := false
          busy := false
          irqStatus := s.irqStatus ||| 0x01#5 }

/-- RENDER_BLOCK's COMMIT step: the dirty groups are committed, and the block goes on to its samples if the voice is active and
there are any, else to FINISH; nothing else changes (44_commands.md R241, R232). -/
def Obligations.RenderCommitStep : Prop :=
  ∀ s : State, s.turn = .engine → s.rbPhase = .commit →
    exec .renderBlock s =
      .next
        { s with
          live :=
            { eg1 := if s.dirty.getLsbD 0 then s.shadow.eg1 else s.live.eg1
              eg2 := if s.dirty.getLsbD 1 then s.shadow.eg2 else s.live.eg2
              eg3 := if s.dirty.getLsbD 2 then s.shadow.eg3 else s.live.eg3
              filter := if s.dirty.getLsbD 3 then s.shadow.filter else s.live.filter
              osc := if s.dirty.getLsbD 4 then s.shadow.osc else s.live.osc }
          dirty := 0#5
          rbI := 0#32
          rbPhase := if s.active = true ∧ 0 < s.larg1.toNat then .sample else .finish }

/-- RENDER_BLOCK's SAMPLE step completes, and this is all it can change: the envelope generators (one tick each), the phases,
CLIP, the diagnostics, the render progress, and the bytes of OUT[c][start + i] for c < CHANNELS; every other byte of memory
reads as before (44_commands.md R241, 43_render.md R200, R201, R209). -/
def Obligations.SampleStepChangesOnlyItsOwn : Prop :=
  ∀ s : State, s.sampleReady → Memory.wf s.outbuf →
    ∃ t : State,
      exec .renderBlock s = .next t ∧
        t = { s with
              egs :=
                ⟨s.egs.eg1.tick s.live.eg1 s.fs.toNat, s.egs.eg2.tick s.live.eg2 s.fs.toNat,
                  s.egs.eg3.tick s.live.eg3 s.fs.toNat⟩
              osc := { s.osc with phase1 := t.osc.phase1, phase2 := t.osc.phase2 }
              irqStatus := t.irqStatus
              lastSample := t.lastSample
              lastCutoff := t.lastCutoff
              sampleCnt := s.sampleCnt + 1#32
              outbuf := t.outbuf
              rbI := s.rbI + 1#32
              rbPhase := if s.rbI + 1#32 = s.larg1 then .finish else .sample } ∧
        (t.irqStatus = s.irqStatus ∨ t.irqStatus = s.irqStatus ||| 0x04#5) ∧
        ∀ a : Nat,
          (∀ c, c < s.channels.toNat →
            a < 0x8000 + 4 * (c * s.inst.blockMax + (s.larg0.toNat + s.rbI.toNat)) ∨
              0x8000 + 4 * (c * s.inst.blockMax + (s.larg0.toNat + s.rbI.toNat)) + 4 ≤ a) →
            t.outByte a = s.outByte a

/-- The sample: LAST_SAMPLE is the saturated sum over the included harmonics of both layers' contributions, each through the
stages A, P1, P2, P3 with floor shifts, with the phase advanced before the look-up and one gain for both layers; CLIP is set
exactly when the sum's magnitude is above 1.0 before saturation, and no flag is cleared
(43_render.md R200, R202, R203, R204, R206, R207, R208; 40_oscillator.md R120; 42_filter.md R187). -/
def Obligations.SampleIsTheSumOfItsHarmonics : Prop :=
  ∀ s : State, s.sampleReady →
    ∃ t : State,
      exec .renderBlock s = .next t ∧
        ∀ acc : Int,
          acc =
              ∑ h : Fin 24,
                (if (h.val + 1) * s.noteFreq.toNat ≤ s.fs.toNat * 2 ^ 15 then
                  ((t.egs.eg1.level.toNat *
                        (((65536 - s.live.osc.mix1.toNat) * s.inst.saw[h].toInt +
                          s.live.osc.mix1.toNat * s.inst.sqr[h].toInt) / 65536) / 65536 *
                      sineLut ((s.osc.phase1[h] + s.osc.inc1[h]).toNat / 2 ^ 20) / 32768 *
                    gain ((h.val + 1) * s.noteFreq.toNat) t.lastCutoff.toNat s.live.filter.reson.toNat) / 65536 +
                  (t.egs.eg2.level.toNat *
                        (((65536 - s.live.osc.mix2.toNat) * s.inst.saw[h].toInt +
                          s.live.osc.mix2.toNat * s.inst.sqr[h].toInt) / 65536) / 65536 *
                      sineLut ((s.osc.phase2[h] + s.osc.inc2[h]).toNat / 2 ^ 20) / 32768 *
                    gain ((h.val + 1) * s.noteFreq.toNat) t.lastCutoff.toNat s.live.filter.reson.toNat) / 65536 : Int)
                else 0) →
            t.lastSample.toInt = min (max acc (-2 ^ 31)) (2 ^ 31 - 1) ∧
              t.irqStatus = if 2 ^ 24 < |acc| then s.irqStatus ||| 0x04#5 else s.irqStatus

/-- The phases after a sample: the two oscillators of every included harmonic advanced by their increments mod 2^32, those of
every excluded harmonic unchanged (40_oscillator.md R116, R121, R123; 43_render.md R203). -/
def Obligations.SampleAdvancesIncludedOscillators : Prop :=
  ∀ s : State, s.sampleReady →
    ∃ t : State,
      exec .renderBlock s = .next t ∧
        ∀ h : Fin 24,
          t.osc.phase1[h].toNat =
              (if (h.val + 1) * s.noteFreq.toNat ≤ s.fs.toNat * 2 ^ 15 then
                (s.osc.phase1[h].toNat + s.osc.inc1[h].toNat) % 2 ^ 32 else s.osc.phase1[h].toNat) ∧
            t.osc.phase2[h].toNat =
              if (h.val + 1) * s.noteFreq.toNat ≤ s.fs.toNat * 2 ^ 15 then
                (s.osc.phase2[h].toNat + s.osc.inc2[h].toNat) % 2 ^ 32 else s.osc.phase2[h].toNat

/-- The output write: OUT[c][start + i] of every channel c < CHANNELS becomes the saturated sum of what it held and the sample;
every other word of OUTBUF keeps its value (43_render.md R209). -/
def Obligations.SampleAccumulatesIntoOutbuf : Prop :=
  ∀ s : State, s.sampleReady → Memory.wf s.outbuf →
    ∃ t : State,
      exec .renderBlock s = .next t ∧
        (∀ c, c < s.channels.toNat →
          (t.out c (s.larg0.toNat + s.rbI.toNat)).toInt =
            min (max ((s.out c (s.larg0.toNat + s.rbI.toNat)).toInt + t.lastSample.toInt) (-2 ^ 31)) (2 ^ 31 - 1)) ∧
        ∀ c i, i < s.inst.blockMax → s.channels.toNat ≤ c ∨ i ≠ s.larg0.toNat + s.rbI.toNat → t.out c i = s.out c i

/-- The cutoff of a sample: the interpolation from the floor to the peak by EG3's level after its tick, kept in LAST_CUTOFF; it
lies between the two (42_filter.md R180, R181; 43_render.md R202, R210). -/
def Obligations.SampleCutoffFollowsTheFilterEnvelope : Prop :=
  ∀ s : State, s.sampleReady →
    ∃ t : State,
      exec .renderBlock s = .next t ∧
        (t.lastCutoff.toNat : Int) =
            s.live.filter.floor.toNat +
              Int.tdiv (((s.live.filter.peak.toNat : Int) - s.live.filter.floor.toNat) * t.egs.eg3.level.toNat) 65536 ∧
        min s.live.filter.floor.toNat s.live.filter.peak.toNat ≤ t.lastCutoff.toNat ∧
        t.lastCutoff.toNat ≤ max s.live.filter.floor.toNat s.live.filter.peak.toNat

/-- RENDER_BLOCK's FINISH step: an active voice whose two amplitude envelopes are Idle becomes inactive and sets VOICE_DONE;
the command completes; nothing else changes (44_commands.md R241, 43_render.md R211). -/
def Obligations.RenderFinishStep : Prop :=
  ∀ s : State, s.turn = .engine → s.rbPhase = .finish →
    exec .renderBlock s =
      .next
        { s with
          active :=
            if s.active = true ∧ s.egs.eg1.stage = .idle ∧ s.egs.eg2.stage = .idle then false else s.active
          irqStatus :=
            if s.active = true ∧ s.egs.eg1.stage = .idle ∧ s.egs.eg2.stage = .idle then s.irqStatus ||| 0x03#5
            else s.irqStatus ||| 0x01#5
          busy := false }

/-! ## Envelope generators -/

/-- The complete transition relation of one envelope generator (41_envelope.md R157), row by row of the table, for a state and
parameters in range: the stage, the level, the elapsed time and the start level after a note event, a stop or a tick. -/
def Obligations.EnvelopeTransitionRelation : Prop :=
  ∀ (g : Eg) (p : EgParams) (fs NA ND NR : Nat),
    g.ok → p.ok → fs ≤ 1048575 →
      NA = (p.attack.toNat * 4 * fs + 32768) / 65536 → ND = (p.decay.toNat * 4 * fs + 32768) / 65536 →
        NR = (p.release.toNat * 4 * fs + 32768) / 65536 →
          g.noteOn = ⟨.attack, g.level, 0#32, g.level⟩ ∧
            (g.stage ≠ .idle → g.noteOff = ⟨.release, g.level, 0#32, g.level⟩) ∧
            (g.stage = .idle → g.noteOff = ⟨.idle, 0#17, 0#32, 0#17⟩) ∧
            g.stop = ⟨.idle, 0#17, 0#32, 0#17⟩ ∧
            (g.stage = .idle → g.tick p fs = ⟨.idle, 0#17, 0#32, 0#17⟩) ∧
            (g.stage = .attack → NA = 0 → ND ≤ 1 → g.tick p fs = ⟨.sustain, p.sustain, 0#32, g.start⟩) ∧
            (g.stage = .attack → NA = 0 → 2 ≤ ND →
              (g.tick p fs).stage = .decay ∧ (g.tick p fs).elapsed = 1#32 ∧ (g.tick p fs).start = g.start ∧
                ((g.tick p fs).level.toNat : Int) = 65536 + Int.tdiv (((p.sustain.toNat : Int) - 65536) * 1) ND) ∧
            (g.stage = .attack → 0 < NA → NA ≤ g.elapsed.toNat + 1 →
              g.tick p fs = ⟨.decay, 0x10000#17, 0#32, g.start⟩) ∧
            (g.stage = .attack → g.elapsed.toNat + 1 < NA →
              (g.tick p fs).stage = .attack ∧ (g.tick p fs).elapsed.toNat = g.elapsed.toNat + 1 ∧
                (g.tick p fs).start = g.start ∧
                ((g.tick p fs).level.toNat : Int) =
                  g.start.toNat + Int.tdiv ((65536 - (g.start.toNat : Int)) * (g.elapsed.toNat + 1)) NA) ∧
            (g.stage = .decay → ND ≤ g.elapsed.toNat + 1 → g.tick p fs = ⟨.sustain, p.sustain, 0#32, g.start⟩) ∧
            (g.stage = .decay → g.elapsed.toNat + 1 < ND →
              (g.tick p fs).stage = .decay ∧ (g.tick p fs).elapsed.toNat = g.elapsed.toNat + 1 ∧
                (g.tick p fs).start = g.start ∧
                ((g.tick p fs).level.toNat : Int) =
                  65536 + Int.tdiv (((p.sustain.toNat : Int) - 65536) * (g.elapsed.toNat + 1)) ND) ∧
            (g.stage = .sustain → g.tick p fs = ⟨.sustain, p.sustain, 0#32, g.start⟩) ∧
            (g.stage = .release → NR ≤ g.elapsed.toNat + 1 → g.tick p fs = ⟨.idle, 0#17, 0#32, 0#17⟩) ∧
            (g.stage = .release → g.elapsed.toNat + 1 < NR →
              (g.tick p fs).stage = .release ∧ (g.tick p fs).elapsed.toNat = g.elapsed.toNat + 1 ∧
                (g.tick p fs).start = g.start ∧
                ((g.tick p fs).level.toNat : Int) =
                  g.start.toNat + Int.tdiv ((0 - (g.start.toNat : Int)) * (g.elapsed.toNat + 1)) NR)

/-- The source's testable property of the envelopes (41_envelope.md R154). From Idle, the N_A ticks after a trigger return a
non-decreasing sequence, the N_A-th returns exactly 1.0 and enters Decay; when N_A = 0 the first tick goes on into Decay. From
Sustain, the N_R ticks after a release return a non-increasing sequence, and the N_R-th returns exactly 0 and leaves the stage
Idle. -/
def Obligations.EnvelopeRampsAreMonotone : Prop :=
  ∀ (g : Eg) (p : EgParams) (fs : Nat),
    g.ok → p.ok → fs ≤ 1048575 →
      (g.stage = .idle → 1 ≤ dur p.attack.toNat fs →
        (∀ m n : Nat, 1 ≤ m → m ≤ n → n ≤ dur p.attack.toNat fs →
          ((fun x : Eg => x.tick p fs)^[m] g.noteOn).level.toNat ≤
            ((fun x : Eg => x.tick p fs)^[n] g.noteOn).level.toNat) ∧
          ((fun x : Eg => x.tick p fs)^[dur p.attack.toNat fs] g.noteOn).level.toNat = 65536 ∧
          ((fun x : Eg => x.tick p fs)^[dur p.attack.toNat fs] g.noteOn).stage = .decay) ∧
        (g.stage = .idle → dur p.attack.toNat fs = 0 →
          g.noteOn.tick p fs = Eg.tick ⟨.decay, 0x10000#17, 0#32, g.level⟩ p fs) ∧
        (g.stage = .sustain → 1 ≤ dur p.release.toNat fs →
          (∀ m n : Nat, 1 ≤ m → m ≤ n → n ≤ dur p.release.toNat fs →
            ((fun x : Eg => x.tick p fs)^[n] g.noteOff).level.toNat ≤
              ((fun x : Eg => x.tick p fs)^[m] g.noteOff).level.toNat) ∧
            (fun x : Eg => x.tick p fs)^[dur p.release.toNat fs] g.noteOff = ⟨.idle, 0#17, 0#32, 0#17⟩)

/-- A segment's duration is its time in seconds times the sample rate, rounded to the nearest sample with halves up, and at most
4 · FS (41_envelope.md R141). -/
def Obligations.DurationRoundsHalfUp : Prop :=
  ∀ t fs : Nat,
    (t * 4 * fs < dur t fs * 65536 + 32768 ∧ dur t fs * 65536 ≤ t * 4 * fs + 32768) ∧
      (t ≤ 65536 → dur t fs ≤ 4 * fs) ∧ (t ≤ 65536 → fs ≤ 1048575 → dur t fs ≤ 4194300)

/-- An envelope generator in Sustain leaves it only by NOTE_ON, NOTE_OFF, the abort step, PREPARE or reset, and until then its
voice stays active (41_envelope.md R156). -/
def Obligations.SustainIsLeftOnlyByCommand : Prop :=
  ∀ (s t : State) (e : EgId), step s = .next t → (s.egs.get e).stage = .sustain →
    ((t.egs.get e).stage = .sustain ∧ (e ≠ .e3 → s.active = true → t.active = true)) ∨
      s.engineRuns .noteOn ∨ s.engineRuns .noteOff ∨ s.engineRuns .forceStop ∨ s.engineRuns .prepare ∨
      s.turn = .assertReset

/-! ## Filter -/

/-- The gain is the source's real-valued lowpass response, floored to 2^-16: "fidelity to this exact formula is a hard
requirement" (42_filter.md R182, R183). -/
def Obligations.GainIsTheFlooredResponse : Prop :=
  ∀ fk c q : Nat, 1 ≤ c → 1 ≤ q →
    ((gain fk c q : Nat) : Int) =
      ⌊(2 ^ 16 : ℝ) *
        (1 / Real.sqrt ((1 - ((fk : ℝ) / c) ^ 2) ^ 2 + ((fk : ℝ) / c / ((q : ℝ) / 2 ^ 16)) ^ 2))⌋

/-- At the cutoff frequency the denominator is C⁴ · 2^32 and the gain is exactly q; the spec's examples at C = hz(24000)
(42_filter.md R184). -/
def Obligations.GainAtTheCutoffIsQ : Prop :=
  (∀ c q : Nat, 1 ≤ c → 1 ≤ q → gainDenominator c c q = c ^ 4 * 2 ^ 32 ∧ gain c c q = q) ∧
    gain 1572864000 1572864000 0x10000 = 65536 ∧ gain 1572864000 1572864000 0xB505 = 46341 ∧
    gain 1572864000 1572864000 0xA0000 = 655360 ∧ gain 1572864000 1572864000 1 = 1 ∧
    gain 1572864000 1572864000 0xFFFFFF = 16777215

/-- At 0 Hz the denominator is C⁴ · Q² and the gain is exactly 1.0, so that a fundamental of 0 Hz passes every harmonic at gain
1.0 (42_filter.md R185). -/
def Obligations.GainAtZeroIsOne : Prop :=
  ∀ c q : Nat, 1 ≤ c → 1 ≤ q →
    gainDenominator 0 c q = c ^ 4 * q ^ 2 ∧ gain 0 c q = 65536 ∧ ∀ k f : Nat, f = 0 → gain (k * f) c q = 65536

/-- The gain's denominator is at least 1, and the gain is below 2^25 for every legal q (42_filter.md R186). -/
def Obligations.GainIsDefinedAndBounded : Prop :=
  ∀ fk c q : Nat, 1 ≤ c → 1 ≤ q → q ≤ 0xFFFFFF → 1 ≤ gainDenominator fk c q ∧ gain fk c q < 2 ^ 25

/-! ## Oscillators -/

/-- The included harmonics are always 1..K for one K, the number that HARM_COUNT reads; when K = 0 the sample is 0; the spec's
examples at FS = 48000 (40_oscillator.md R122, 10_state.md R45). -/
def Obligations.HarmonicCountIsTheNyquistGuard : Prop :=
  (∀ (f fs : Word) (k : Nat), 1 ≤ k → k ≤ 24 →
      (k * f.toNat ≤ fs.toNat * 2 ^ 15 ↔ k ≤ harmCount f fs)) ∧
    (∀ f fs : Word, harmCount f fs = if f.toNat = 0 then 24 else min 24 (fs.toNat * 2 ^ 15 / f.toNat)) ∧
    (∀ s : State, s.resetPin = false →
      (s.hostAccess (.read 0x0044#16 4 none)).rdata.toNat = harmCount s.noteFreq s.fs) ∧
    (∀ s : State, harmCount s.noteFreq s.fs = 0 → s.sampleSum.2 = 0) ∧
    (harmCount 0x01B80000#32 48000#32 = 24 ∧ harmCount 0x03E80000#32 48000#32 = 24 ∧
      harmCount 0x03E80001#32 48000#32 = 23 ∧ harmCount 0x2EE00000#32 48000#32 = 2 ∧
      harmCount 0x2EE00001#32 48000#32 = 1 ∧ harmCount 0x3E800000#32 48000#32 = 1 ∧
      harmCount 0x5DC00000#32 48000#32 = 1 ∧ harmCount 0x5DC00001#32 48000#32 = 0 ∧ harmCount 0#32 48000#32 = 24)

/-- The sine table: every entry is 32767 · sin(2π · i / 4096) rounded to the nearest integer, halves away from zero, and no argument
is an exact half; its exact entries, its two zeros, its range and its symmetries (40_oscillator.md R117, R118; 00_scope.md R17).
The clause of R118 that ±32767 occur once each is not stated: R119's listing has 32767 at 1021 to 1027 too (assumption
log 17). -/
def Obligations.SineTableSymmetries : Prop :=
  (∀ i : Nat, i < 4096 → ∀ r : ℝ, r = 32767 * Real.sin (2 * Real.pi * i / 4096) →
      sineLut i = (if 0 ≤ r then ⌊|r| + 1 / 2⌋ else -⌊|r| + 1 / 2⌋) ∧ |(sineLut i : ℝ) - r| < 1 / 2) ∧
    (sineLut 1024 = 32767 ∧ sineLut 3072 = -32767) ∧
    (∀ i, i < 4096 → (sineLut i = 0 ↔ i = 0 ∨ i = 2048)) ∧
    (∀ i, i < 4096 → -32767 ≤ sineLut i ∧ sineLut i ≤ 32767) ∧
    (∀ i, 1024 < i → i < 2048 → sineLut i = sineLut (2048 - i)) ∧
    ∀ i, 2048 ≤ i → i < 4096 → sineLut i = -sineLut (i - 2048)

/-- How far the floor shifts take one contribution from the exact product T (43_render.md R205), for a gain G of at least 1. At
G = 0 the contribution and T are both 0, so there the rule's strict upper bound P3 < T + G / 2^16 does not hold (assumption
log 18). -/
def Obligations.ContributionRoundingIsBounded : Prop :=
  ∀ (e : Level) (A s : Int) (G : Nat) (T : ℚ),
    -32767 ≤ s → s ≤ 32767 → T = (e.toNat : ℚ) * A * s * G / 2 ^ 47 →
      |((contribution e A s G : Int) : ℚ) - T| < 2 * (G : ℚ) / 2 ^ 16 + 1 ∧
        T - 2 * (G : ℚ) / 2 ^ 16 - 1 < ((contribution e A s G : Int) : ℚ) ∧
        (1 ≤ G → ((contribution e A s G : Int) : ℚ) < T + (G : ℚ) / 2 ^ 16) ∧
        (G = 0 → contribution e A s G = 0 ∧ T = 0)

/-! ## The bus -/

/-- An access of another size than 4, at an address that is no multiple of 4, or to an unmapped address has no effect but
BUS_ERR, and such a read returns 0 (20_memory.md R63, R66, R68; 60_exceptions.md R272). -/
def Obligations.IllegalAccessOnlySetsBusErr : Prop :=
  ∀ (s : State) (a : Addr) (n : Nat) (d : Word),
    s.resetPin = false → n ≠ 4 ∨ a.toNat % 4 ≠ 0 ∨ regAt s.inst a.toNat = none →
      s.hostAccess (.write a n d) = { s with irqStatus := s.irqStatus ||| 0x10#5 } ∧
        s.hostAccess (.read a n none) = { s with irqStatus := s.irqStatus ||| 0x10#5, rdata := 0#32 }

/-- A write to a read-only register, the tables SAW, SQR and SINE_LUT among them, changes nothing but BUS_ERR, which it sets
(20_memory.md R67, R82). -/
def Obligations.ReadOnlyWriteOnlySetsBusErr : Prop :=
  ∀ (s : State) (a : Addr) (d : Word) (r : Reg),
    s.resetPin = false → s.target a 4 = some r → r.access = .ro →
      s.hostAccess (.write a 4 d) = { s with irqStatus := s.irqStatus ||| 0x10#5 }

/-- The register map: an address names a register exactly when it is that register's address in the table, for every register
the instance has; so the map has no overlap and every other address is unmapped (20_memory.md R65, R80). -/
def Obligations.RegisterMapIsExact : Prop :=
  ∀ (c : Instance) (a : Nat) (r : Reg), c.wf = true → a < 65536 →
    (regAt c a = some r ↔
      regAddr c r = a ∧ match r with
        | .out ch i => ch < c.chMax ∧ i < c.blockMax
        | _ => True)

/-- A legal read of a mapped register returns its value and has no other effect, so every read is idempotent
(20_memory.md R66, R69). What each register's value is, address by address, zero-extended but for the signed tables
(20_memory.md R65, R80; 10_state.md R21, R29, R30, R32 to R46; 40_oscillator.md R110): every register but ID, VERSION, PARAMS, CMD
and STATUS, which StatusAndIdentificationRead states, and HARM_COUNT, which HarmonicCountIsTheNyquistGuard states. -/
def Obligations.ReadsHaveNoSideEffect : Prop :=
  (∀ (s : State) (a : Addr) (r : Reg),
    s.resetPin = false → s.target a 4 = some r →
      s.hostAccess (.read a 4 none) = { s with rdata := s.readReg r } ∧
        (s.hostAccess (.read a 4 none)).hostAccess (.read a 4 none) = s.hostAccess (.read a 4 none)) ∧
    ∀ s : State, s.resetPin = false → s.inst.wf = true →
      (s.wordAt 0x0014 = s.arg0 ∧ s.wordAt 0x0018 = s.arg1 ∧ s.wordAt 0x001C = s.arg2) ∧
      ((s.wordAt 0x0024).toNat = s.irqStatus.toNat ∧ (s.wordAt 0x0028).toNat = s.irqEnable.toNat ∧
        (s.wordAt 0x002C).toNat = s.dirty.toNat) ∧
      (s.wordAt 0x0030 = s.fs ∧ s.wordAt 0x0034 = s.blockSize ∧ s.wordAt 0x0038 = s.channels) ∧
      (s.wordAt 0x003C = s.noteFreq ∧ s.wordAt 0x0040 = s.noteVel) ∧
      (s.wordAt 0x0048 = s.lastSample ∧ s.wordAt 0x004C = s.lastCutoff ∧ s.wordAt 0x0050 = s.sampleCnt) ∧
      (∀ (b : Nat) (sh ac : EgParams) (g : Eg),
        (b = 0x0100 ∧ sh = s.shadow.eg1 ∧ ac = s.live.eg1 ∧ g = s.egs.eg1) ∨
            (b = 0x0140 ∧ sh = s.shadow.eg2 ∧ ac = s.live.eg2 ∧ g = s.egs.eg2) ∨
            (b = 0x0180 ∧ sh = s.shadow.eg3 ∧ ac = s.live.eg3 ∧ g = s.egs.eg3) →
        ((s.wordAt (b + 0x00)).toNat = sh.attack.toNat ∧ (s.wordAt (b + 0x04)).toNat = sh.decay.toNat ∧
          (s.wordAt (b + 0x08)).toNat = sh.sustain.toNat ∧
          (s.wordAt (b + 0x0C)).toNat = sh.release.toNat) ∧
        ((s.wordAt (b + 0x10)).toNat = ac.attack.toNat ∧ (s.wordAt (b + 0x14)).toNat = ac.decay.toNat ∧
          (s.wordAt (b + 0x18)).toNat = ac.sustain.toNat ∧
          (s.wordAt (b + 0x1C)).toNat = ac.release.toNat) ∧
        (s.wordAt (b + 0x20)).toNat =
            (match g.stage with | .idle => 0 | .attack => 1 | .decay => 2 | .sustain => 3 | .release => 4) ∧
        (s.wordAt (b + 0x24)).toNat = g.level.toNat ∧ s.wordAt (b + 0x28) = g.elapsed ∧
        (s.wordAt (b + 0x2C)).toNat = g.start.toNat) ∧
      (s.wordAt 0x0200 = s.shadow.filter.floor ∧ s.wordAt 0x0204 = s.shadow.filter.peak ∧ s.wordAt 0x0208 = s.shadow.filter.reson) ∧
      (s.wordAt 0x0210 = s.live.filter.floor ∧ s.wordAt 0x0214 = s.live.filter.peak ∧ s.wordAt 0x0218 = s.live.filter.reson) ∧
      ((s.wordAt 0x0220).toNat = s.shadow.osc.mix1.toNat ∧ (s.wordAt 0x0224).toNat = s.shadow.osc.mix2.toNat ∧
        s.wordAt 0x0228 = s.shadow.osc.ratio) ∧
      ((s.wordAt 0x0230).toNat = s.live.osc.mix1.toNat ∧ (s.wordAt 0x0234).toNat = s.live.osc.mix2.toNat ∧
        s.wordAt 0x0238 = s.live.osc.ratio) ∧
      (∀ h : Fin 24,
        s.wordAt (0x0400 + 4 * h.val) = s.inst.saw[h] ∧ s.wordAt (0x0480 + 4 * h.val) = s.inst.sqr[h] ∧
        s.wordAt (0x0600 + 4 * h.val) = s.osc.phase1[h] ∧ s.wordAt (0x0680 + 4 * h.val) = s.osc.phase2[h] ∧
        s.wordAt (0x0700 + 4 * h.val) = s.osc.inc1[h] ∧ s.wordAt (0x0780 + 4 * h.val) = s.osc.inc2[h]) ∧
      (∀ i, i < 4096 → (s.wordAt (0x4000 + 4 * i)).toInt = sineLut i) ∧
      ∀ c i, c < s.inst.chMax → i < s.inst.blockMax →
        ∀ b, b < 4 →
          (s.wordAt (0x8000 + 4 * (c * s.inst.blockMax + i))).extractLsb' (8 * b) 8 =
            s.outByte (0x8000 + 4 * (c * s.inst.blockMax + i) + b)

/-- The identification and status registers, read at their addresses: ID, VERSION, PARAMS, STATUS with its fields in their bits
and the numbers of ERR_CODE, and CMD, which reads 0 (20_memory.md R64, R66; 10_state.md R27, R28; 60_exceptions.md R270). PARAMS
holds BLOCK_MAX[15:0] and CH_MAX[7:0]: that an instance with CH_MAX above 255 reads CH_MAX mod 256 there is the model's reading of
R64 (DEDUCED, assumption log 16). -/
def Obligations.StatusAndIdentificationRead : Prop :=
  ∀ s : State, s.resetPin = false →
    (s.hostAccess (.read 0x0000#16 4 none)).rdata = 0x48564331#32 ∧
      (s.hostAccess (.read 0x0004#16 4 none)).rdata = 0x00010000#32 ∧
      (s.hostAccess (.read 0x0008#16 4 none)).rdata.toNat =
        s.inst.blockMax % 2 ^ 16 * 2 ^ 16 + s.inst.chMax % 2 ^ 8 * 2 ^ 8 + 24 ∧
      (s.hostAccess (.read 0x0010#16 4 none)).rdata = 0#32 ∧
      (s.hostAccess (.read 0x0020#16 4 none)).rdata.toNat =
        s.busy.toNat + 2 * s.prepared.toNat + 4 * s.active.toNat + 8 * s.abortReq.toNat +
          256 *
            (match s.errCode with
              | .none => 0 | .illegal => 1 | .busy => 2 | .notPrepared => 3 | .config => 4 | .range => 5)

/-- What a write stores in each parameter register: min(v, 0x10000), max(v, 1), clamp(v, 1, 0xFFFFFF), or v itself for RATIO;
nothing else changes, and in particular no active copy (10_state.md R35, R37, R39; 20_memory.md R67). -/
def Obligations.ParameterWritesAreClamped : Prop :=
  ∀ (s : State) (d : Word), s.resetPin = false →
    s.hostAccess (.write 0x0100#16 4 d) =
        { s with shadow := { s.shadow with eg1 := { s.shadow.eg1 with attack := BitVec.ofNat 17 (min d.toNat 0x10000) } } } ∧
      s.hostAccess (.write 0x0104#16 4 d) =
        { s with shadow := { s.shadow with eg1 := { s.shadow.eg1 with decay := BitVec.ofNat 17 (min d.toNat 0x10000) } } } ∧
      s.hostAccess (.write 0x0108#16 4 d) =
        { s with shadow := { s.shadow with eg1 := { s.shadow.eg1 with sustain := BitVec.ofNat 17 (min d.toNat 0x10000) } } } ∧
      s.hostAccess (.write 0x010C#16 4 d) =
        { s with shadow := { s.shadow with eg1 := { s.shadow.eg1 with release := BitVec.ofNat 17 (min d.toNat 0x10000) } } } ∧
      s.hostAccess (.write 0x0140#16 4 d) =
        { s with shadow := { s.shadow with eg2 := { s.shadow.eg2 with attack := BitVec.ofNat 17 (min d.toNat 0x10000) } } } ∧
      s.hostAccess (.write 0x0144#16 4 d) =
        { s with shadow := { s.shadow with eg2 := { s.shadow.eg2 with decay := BitVec.ofNat 17 (min d.toNat 0x10000) } } } ∧
      s.hostAccess (.write 0x0148#16 4 d) =
        { s with shadow := { s.shadow with eg2 := { s.shadow.eg2 with sustain := BitVec.ofNat 17 (min d.toNat 0x10000) } } } ∧
      s.hostAccess (.write 0x014C#16 4 d) =
        { s with shadow := { s.shadow with eg2 := { s.shadow.eg2 with release := BitVec.ofNat 17 (min d.toNat 0x10000) } } } ∧
      s.hostAccess (.write 0x0180#16 4 d) =
        { s with shadow := { s.shadow with eg3 := { s.shadow.eg3 with attack := BitVec.ofNat 17 (min d.toNat 0x10000) } } } ∧
      s.hostAccess (.write 0x0184#16 4 d) =
        { s with shadow := { s.shadow with eg3 := { s.shadow.eg3 with decay := BitVec.ofNat 17 (min d.toNat 0x10000) } } } ∧
      s.hostAccess (.write 0x0188#16 4 d) =
        { s with shadow := { s.shadow with eg3 := { s.shadow.eg3 with sustain := BitVec.ofNat 17 (min d.toNat 0x10000) } } } ∧
      s.hostAccess (.write 0x018C#16 4 d) =
        { s with shadow := { s.shadow with eg3 := { s.shadow.eg3 with release := BitVec.ofNat 17 (min d.toNat 0x10000) } } } ∧
      s.hostAccess (.write 0x0200#16 4 d) =
        { s with shadow := { s.shadow with filter := { s.shadow.filter with floor := BitVec.ofNat 32 (max d.toNat 1) } } } ∧
      s.hostAccess (.write 0x0204#16 4 d) =
        { s with shadow := { s.shadow with filter := { s.shadow.filter with peak := BitVec.ofNat 32 (max d.toNat 1) } } } ∧
      s.hostAccess (.write 0x0208#16 4 d) =
        { s with
          shadow :=
            { s.shadow with
              filter := { s.shadow.filter with reson := BitVec.ofNat 32 (min (max d.toNat 1) 0xFFFFFF) } } } ∧
      s.hostAccess (.write 0x0220#16 4 d) =
        { s with shadow := { s.shadow with osc := { s.shadow.osc with mix1 := BitVec.ofNat 17 (min d.toNat 0x10000) } } } ∧
      s.hostAccess (.write 0x0224#16 4 d) =
        { s with shadow := { s.shadow with osc := { s.shadow.osc with mix2 := BitVec.ofNat 17 (min d.toNat 0x10000) } } } ∧
      s.hostAccess (.write 0x0228#16 4 d) =
        { s with shadow := { s.shadow with osc := { s.shadow.osc with ratio := d } } }

/-- A write of d to IRQ_STATUS clears each flag whose bit of d is 1 and leaves the others, and bit 3 also resets ERR_CODE in the
same step; nothing else changes (20_memory.md R67, 60_exceptions.md R277). -/
def Obligations.IrqStatusIsWriteOneToClear : Prop :=
  ∀ (s : State) (d : Word), s.resetPin = false →
    ∃ st : BitVec 5,
      s.hostAccess (.write 0x0024#16 4 d) =
          { s with irqStatus := st, errCode := if d.getLsbD 3 then .none else s.errCode } ∧
        ∀ i, i < 5 → st.getLsbD i = (s.irqStatus.getLsbD i && !d.getLsbD i)

/-- Writes to ARG0..ARG2, IRQ_ENABLE and DIRTY: the argument registers and the enable bits take the value written, DIRTY only
gains bits, and bits 31:5 of the last two are ignored; nothing else changes (10_state.md R21, R30, R32; 20_memory.md R67,
R70). -/
def Obligations.ControlRegisterWrites : Prop :=
  ∀ (s : State) (d : Word), s.resetPin = false →
    s.hostAccess (.write 0x0014#16 4 d) = { s with arg0 := d } ∧
      s.hostAccess (.write 0x0018#16 4 d) = { s with arg1 := d } ∧
      s.hostAccess (.write 0x001C#16 4 d) = { s with arg2 := d } ∧
      ∃ en di : BitVec 5,
        s.hostAccess (.write 0x0028#16 4 d) = { s with irqEnable := en } ∧
          s.hostAccess (.write 0x002C#16 4 d) = { s with dirty := di } ∧
          ∀ i, i < 5 →
            en.getLsbD i = d.getLsbD i ∧ di.getLsbD i = (s.dirty.getLsbD i || d.getLsbD i)

/-- The interrupt output is high exactly when some flag is both pending and enabled (10_state.md R31). -/
def Obligations.InterruptLineIsTheEnabledFlags : Prop :=
  ∀ s : State, s.irq = true ↔ ∃ i, i < 5 ∧ s.irqStatus.getLsbD i = true ∧ s.irqEnable.getLsbD i = true

/-- A write to OUT[c][i] stores the word there, least significant byte at the lowest address; every other byte of OUTBUF reads
as before and nothing else changes (20_memory.md R62, R67, R80). -/
def Obligations.OutbufWriteStoresOneWord : Prop :=
  ∀ (s : State) (ch i : Nat) (d : Word),
    s.resetPin = false → s.inst.wf = true → ch < s.inst.chMax → i < s.inst.blockMax → Memory.wf s.outbuf →
      ∃ t : State,
        s.hostAccess (.write (BitVec.ofNat 16 (0x8000 + 4 * (ch * s.inst.blockMax + i))) 4 d) = t ∧
          t = { s with outbuf := t.outbuf } ∧ Memory.wf t.outbuf ∧ t.out ch i = d ∧
          (∀ b, b < 4 →
            t.outByte (0x8000 + 4 * (ch * s.inst.blockMax + i) + b) = d.extractLsb' (8 * b) 8) ∧
          ∀ a, a < 0x8000 + 4 * (ch * s.inst.blockMax + i) ∨ 0x8000 + 4 * (ch * s.inst.blockMax + i) + 4 ≤ a →
            t.outByte a = s.outByte a

/-- A HOST write to a word of OUTBUF and the sample step that accumulates into it are two atomic steps, and both orders are
possible while a RENDER_BLOCK is in progress: with the HOST's turn first, the word ends as the saturated sum of the value written
and the sample; with the ENGINE's turn first, it ends as the value written (20_memory.md R72, R81; 43_render.md R209). -/
def Obligations.OutbufRaceHasBothOutcomes : Prop :=
  ∀ (s : State) (c : Nat) (d : Word) (ops : List HostOp) (l : List Turn),
    Inv s → s.busy = true → s.abortReq = false → s.curCmd = 0x05#8 → s.rbPhase = .sample → c < s.channels.toNat →
      s.host = .write (BitVec.ofNat 16 (0x8000 + 4 * (c * s.inst.blockMax + (s.larg0.toNat + s.rbI.toNat)))) 4 d :: ops →
        ∃ t u : State,
          Sys2Proof.core.run 2 { s with sched := .host :: .engine :: l } = Host.Outcome.next t ∧
            Sys2Proof.core.run 2 { s with sched := .engine :: .host :: l } = Host.Outcome.next u ∧
            (t.host = ops ∧ t.sched = l ∧ t.rbI = s.rbI + 1#32) ∧ (u.host = ops ∧ u.sched = l ∧ u.rbI = s.rbI + 1#32) ∧
            u.lastSample = t.lastSample ∧
            (t.out c (s.larg0.toNat + s.rbI.toNat)).toInt =
              min (max (d.toInt + t.lastSample.toInt) (-2 ^ 31)) (2 ^ 31 - 1) ∧
            u.out c (s.larg0.toNat + s.rbI.toNat) = d

/-! ## Who writes what -/

/-- An ENGINE step never writes what is the HOST's: the argument registers, the shadow registers, IRQ_ENABLE, ERR_CODE; nor the
instance's tables, nor anything outside the block (10_state.md R21, R28; 20_memory.md R82; 44_commands.md R244). -/
def Obligations.EngineNeverWritesHostRegisters : Prop :=
  ∀ s t : State, s.turn = .engine → step s = .next t →
    t.arg0 = s.arg0 ∧ t.arg1 = s.arg1 ∧ t.arg2 = s.arg2 ∧ t.shadow = s.shadow ∧ t.irqEnable = s.irqEnable ∧
      t.errCode = s.errCode ∧ t.inst = s.inst ∧ t.epoch = s.epoch ∧ t.resetPin = s.resetPin ∧ t.host = s.host ∧
      t.rdata = s.rdata ∧ t.hostFailed = s.hostFailed

/-- A HOST step never writes the voice's state: configuration, note, active copies, envelope generators, oscillators,
diagnostics (10_state.md R33, R34, R36, R38, R40, R41, R42, R44; PREPARED apart, which a rejected PREPARE clears). -/
def Obligations.HostNeverWritesVoiceState : Prop :=
  ∀ s t : State, s.turn = .host → step s = .next t →
    t.fs = s.fs ∧ t.blockSize = s.blockSize ∧ t.channels = s.channels ∧ t.noteFreq = s.noteFreq ∧
      t.noteVel = s.noteVel ∧ t.active = s.active ∧ t.live = s.live ∧ t.egs = s.egs ∧ t.osc = s.osc ∧
      t.lastSample = s.lastSample ∧ t.lastCutoff = s.lastCutoff ∧ t.sampleCnt = s.sampleCnt ∧ t.inst = s.inst ∧
      (t.prepared = true → s.prepared = true)

/-- A flag of IRQ_STATUS is cleared only by a HOST write of 1 to its bit, or by reset; no ENGINE step clears one
(10_state.md R29, 60_exceptions.md R277). -/
def Obligations.FlagsAreClearedOnlyByTheHost : Prop :=
  ∀ (s t : State) (f : Flag), step s = .next t → s.flag f = true → t.flag f = false →
    s.turn = .assertReset ∨
      (s.turn = .host ∧ ∃ d : Word, s.host.head? = some (.write 0x0024#16 4 d) ∧ d.getLsbD f.bit = true)

/-- The active copies change only at a commit: NOTE_ON's step, RENDER_BLOCK's COMMIT step, or reset (44_commands.md R232). -/
def Obligations.ActiveCopiesChangeOnlyAtACommit : Prop :=
  ∀ s t : State, step s = .next t → t.live ≠ s.live →
    s.engineRuns .noteOn ∨ (s.engineRuns .renderBlock ∧ s.rbPhase = .commit) ∨ s.turn = .assertReset

/-- A sample is counted exactly by a sample step: SAMPLE_CNT changes only there, by 1 mod 2^32, and at reset
(43_render.md R210, 60_exceptions.md R284). -/
def Obligations.SampleCountCountsSampleSteps : Prop :=
  ∀ s t : State, step s = .next t → s.turn ≠ .assertReset →
    t.sampleCnt.toNat =
      if s.engineRuns .renderBlock ∧ s.rbPhase = .sample then (s.sampleCnt.toNat + 1) % 2 ^ 32 else s.sampleCnt.toNat

/-- A write to the argument registers after a command was accepted never changes that command: its ENGINE step does the same
whatever they hold (20_memory.md R77, 70_reset_and_hazards.md R313). -/
def Obligations.ArgumentsDoNotReachARunningCommand : Prop :=
  ∀ (s t : State) (a b c : Word), s.turn = .engine → step s = .next t →
    step { s with arg0 := a, arg1 := b, arg2 := c } = .next { t with arg0 := a, arg1 := b, arg2 := c }

/-- Velocity scales nothing: NOTE_VEL is stored and no ENGINE step reads it (44_commands.md R243). -/
def Obligations.VelocityHasNoEffect : Prop :=
  ∀ (s t : State) (v : Word), s.turn = .engine → step s = .next t →
    step { s with noteVel := v } = .next { t with noteVel := if s.engineRuns .noteOn then t.noteVel else v }

/-! ## Reset -/

/-- Asserting the reset input sets every piece of state to its reset value, whatever was in progress (70_reset_and_hazards.md R300,
10_state.md R48; the values are those of ResetAsAProgramSeesIt); while it is asserted HOST accesses have no effect and reads
return 0. That what is outside the block stays, that OUTBUF's free contents are new, and that the input's release changes nothing
but its level, is the model's choice (assumption logs 1 and 8). -/
def Obligations.ResetInputResetsEverything : Prop :=
  (∀ s : State, s.turn = .assertReset →
      step s =
        .next
          { State.resetOf s.inst with
            epoch := s.epoch + 1
            resetPin := true
            host := s.host
            sched := s.sched.tail
            rdata := s.rdata
            hostFailed := s.hostFailed }) ∧
    (∀ s : State, s.turn = .releaseReset → step s = .next { s with resetPin := false, sched := s.sched.tail }) ∧
    ∀ (s : State) (a : Addr) (n : Nat) (d : Word), s.resetPin = true →
      s.hostAccess (.write a n d) = s ∧ s.hostAccess (.read a n none) = { s with rdata := 0#32 }

/-- The state after reset, register by register (10_state.md R48), and as a program sees it: STATUS, IRQ_STATUS, IRQ_ENABLE and
DIRTY read 0, the interrupt line is low, and the ENGINE has no step (70_reset_and_hazards.md R302). OUTBUF lists no byte, so every
word of it is free (R304; that it is a list of the bytes written is the model's choice, assumption log 1). -/
def Obligations.ResetAsAProgramSeesIt : Prop :=
  ∀ (c : Instance) (s : State), s = State.resetOf c →
    (s.arg0 = 0#32 ∧ s.arg1 = 0#32 ∧ s.arg2 = 0#32) ∧ (s.busy = false ∧ s.abortReq = false) ∧
      (s.curCmd = 0#8 ∧ s.larg0 = 0#32 ∧ s.larg1 = 0#32 ∧ s.larg2 = 0#32 ∧ s.rbI = 0#32 ∧ s.rbPhase = .commit) ∧
      (s.errCode = .none ∧ s.irqStatus = 0#5 ∧ s.irqEnable = 0#5 ∧ s.dirty = 0#5) ∧
      (s.fs = 0#32 ∧ s.blockSize = 0#32 ∧ s.channels = 0#32 ∧ s.prepared = false) ∧
      (s.noteFreq = 0#32 ∧ s.noteVel = 0#32 ∧ s.active = false) ∧
      (∀ p : ParamSet, p = s.shadow ∨ p = s.live →
        (∀ q : EgParams, q = p.eg1 ∨ q = p.eg2 ∨ q = p.eg3 →
          q.attack = 0#17 ∧ q.decay = 0#17 ∧ q.sustain = 0x10000#17 ∧ q.release = 0#17) ∧
        p.filter.floor = 0x5DC00000#32 ∧ p.filter.peak = 0x5DC00000#32 ∧ p.filter.reson = 0x00010000#32 ∧
        p.osc.mix1 = 0#17 ∧ p.osc.mix2 = 0#17 ∧ p.osc.ratio = 0x00010000#32) ∧
      (∀ h : Fin 24, s.osc.phase1[h] = 0#32 ∧ s.osc.phase2[h] = 0#32 ∧ s.osc.inc1[h] = 0#32 ∧ s.osc.inc2[h] = 0#32) ∧
      (∀ g : Eg, g = s.egs.eg1 ∨ g = s.egs.eg2 ∨ g = s.egs.eg3 →
        g.stage = .idle ∧ g.level = 0#17 ∧ g.elapsed = 0#32 ∧ g.start = 0#17) ∧
      (s.lastSample = 0#32 ∧ s.lastCutoff = 0#32 ∧ s.sampleCnt = 0#32) ∧ s.outbuf = [] ∧
      ((s.hostAccess (.read 0x0020#16 4 none)).rdata = 0#32 ∧ (s.hostAccess (.read 0x0024#16 4 none)).rdata = 0#32 ∧
        (s.hostAccess (.read 0x0028#16 4 none)).rdata = 0#32 ∧ (s.hostAccess (.read 0x002C#16 4 none)).rdata = 0#32) ∧
      s.irq = false ∧ s.engineDue = .idle

/-! ## Invariants and progress -/

/-- Every step keeps the invariant: the parameters and envelope generators stay in range, the command in progress stays one that
was accepted, a render stays inside its block, OUTBUF stays canonical (10_state.md R33, R49). -/
def Obligations.EveryStepKeepsTheInvariant : Prop :=
  ∀ s t : State, Inv s → step s = .next t → Inv t

/-- The invariant holds after reset, of every legal instance, whatever HOST program and order of turns is to come. -/
def Obligations.InvariantHoldsAfterReset : Prop :=
  ∀ (c : Instance) (prog : List HostOp) (sched : List Turn),
    c.wf = true → Inv { State.resetOf c with host := prog, sched := sched }

/-- The six invariants of 10_state.md R49 hold in every reachable state: after any number of steps from reset, of any legal
instance, under any HOST program and any order of turns. -/
def Obligations.SpecInvariantsHoldInEveryReachableState : Prop :=
  ∀ t : State, Reachable t → SpecInvariants t

/-- The datapath raises nothing and the machine never stops: from every state of the invariant the next step gives a next state
(60_exceptions.md R278, R281). -/
def Obligations.NoStepStops : Prop :=
  ∀ s : State, Inv s → ∃ t : State, step s = .next t

/-- A RENDER_BLOCK takes num + 2 ENGINE steps if the voice is active, else 2: before the last of them the command is in progress,
after it the command is done, CMD_DONE is set, and every sample of the block has been counted (44_commands.md R241, R246;
43_render.md R212). The turns of the list are the ENGINE's as far as the block needs them; where the list is shorter, the ENGINE
takes its turns by the model's default order while BUSY = 1 (a choice: assumption log 3). -/
def Obligations.RenderBlockTakesNumPlusTwoSteps : Prop :=
  ∀ (s : State) (n : Nat), Inv s → s.engineRuns .renderBlock → s.rbPhase = .commit →
    n = (if s.active then s.larg1.toNat + 2 else 2) → (∀ u ∈ s.sched.take n, u = .engine) →
      (∀ k, k < n → ∃ u : State, Sys2Proof.core.run k s = Host.Outcome.next u ∧ u.busy = true ∧ u.host = s.host) ∧
        ∃ t : State,
          Sys2Proof.core.run n s = Host.Outcome.next t ∧ t.busy = false ∧ t.irqStatus.getLsbD 0 = true ∧
            t.host = s.host ∧ t.sched = s.sched.drop n ∧
            t.sampleCnt.toNat = (s.sampleCnt.toNat + if s.active then s.larg1.toNat else 0) % 2 ^ 32

/-- Every command but RENDER_BLOCK takes one ENGINE step, which sets CMD_DONE and leaves ACTIVE as the summary says
(44_commands.md R246). -/
def Obligations.OtherCommandsTakeOneStep : Prop :=
  ∀ (s : State) (i : Instr), Inv s → s.engineRuns i → i ≠ .renderBlock →
    ∃ t : State,
      step s = .next t ∧ t.busy = false ∧ t.irqStatus.getLsbD 0 = true ∧
        t.active =
          match i with
          | .prepare | .forceStop => false
          | .noteOn => true
          | .nop | .noteOff | .renderBlock => s.active

/-- An inactive voice renders nothing: its RENDER_BLOCK commits and completes in two steps, and nothing else changes
(43_render.md R212). The next two turns of the list are the ENGINE's; where the list is shorter, the ENGINE takes its turns by the
model's default order while BUSY = 1 (a choice: assumption log 3). -/
def Obligations.InactiveVoiceRendersNothing : Prop :=
  ∀ s : State, Inv s → s.engineRuns .renderBlock → s.rbPhase = .commit → s.active = false →
    (∀ u ∈ s.sched.take 2, u = .engine) →
      Sys2Proof.core.run 2 s =
        Host.Outcome.next
          { s with
            live := committed s.dirty s.shadow s.live
            dirty := 0#5
            rbI := 0#32
            rbPhase := .finish
            busy := false
            irqStatus := s.irqStatus ||| 0x01#5
            sched := s.sched.drop 2 }

/-- Every wait terminates: from every state of the invariant with the reset input released, a HOST that waits for BUSY = 0 gets
past its poll, whatever turns of the two agents are still to come (70_reset_and_hazards.md R316).
The list of turns is finite; that the ENGINE takes its turns first after its end while BUSY = 1 is the model's choice, one order
that R316's fairness allows (assumption log 3). -/
def Obligations.EveryWaitTerminates : Prop :=
  ∀ (s : State) (ops : List HostOp),
    Inv s → s.resetPin = false → s.host = .poll 0x0020#16 1#32 0#32 :: ops →
      (∀ u ∈ s.sched, u = .host ∨ u = .engine) →
        ∃ (k : Nat) (t : State), Sys2Proof.core.run k s = Host.Outcome.next t ∧ t.host = ops ∧ t.busy = false
end

