-- ==== Sys2Proof/Laws/Arith.lean ====
section
/-! SUPPORT. The integer primitives: what each computes, once. -/

namespace Sys2Proof.Machine

/-- The bits found so far stay in the root, and it grows by less than the bits still to come. -/
theorem isqrtBits_spec (a b r : Nat) (hr : r * r ≤ a) (hu : a < (r + 2 ^ b) * (r + 2 ^ b)) :
    isqrtBits a b r * isqrtBits a b r ≤ a ∧ a < (isqrtBits a b r + 1) * (isqrtBits a b r + 1) := by
  induction b generalizing r with
  | zero => simpa [isqrtBits] using And.intro hr hu
  | succ b ih =>
    simp only [isqrtBits]
    split
    · rename_i h
      apply ih _ h
      have : r + 2 ^ b + 2 ^ b = r + 2 ^ (b + 1) := by rw [Nat.pow_succ]; omega
      rwa [this]
    · rename_i h
      exact ih _ hr (by omega)

/-- `isqrt(a)` is the largest r with r² ≤ a (00_scope.md R14). -/
theorem isqrt_bounds (a : Nat) : isqrt a * isqrt a ≤ a ∧ a < (isqrt a + 1) * (isqrt a + 1) := by
  apply isqrtBits_spec a _ 0 (by simp)
  have h1 : a < 2 ^ (a.log2 + 1) := Nat.lt_log2_self
  have h2 : 2 ^ (a.log2 + 1) ≤ 2 ^ (2 * (a.log2 / 2 + 1)) := Nat.pow_le_pow_right (by omega) (by omega)
  have h3 : (2 : Nat) ^ (2 * (a.log2 / 2 + 1)) = 2 ^ (a.log2 / 2 + 1) * 2 ^ (a.log2 / 2 + 1) := by
    rw [← Nat.pow_add]; congr 1; omega
  simp only [Nat.zero_add]
  omega

/-- `isqrt` is the library's square root. -/
theorem isqrt_eq_sqrt (a : Nat) : isqrt a = Nat.sqrt a := by
  obtain ⟨h1, h2⟩ := isqrt_bounds a
  exact Nat.eq_sqrt.mpr ⟨h1, h2⟩

/-- A square's root. -/
theorem isqrt_mul_self (q : Nat) : isqrt (q * q) = q := by
  rw [isqrt_eq_sqrt, Nat.sqrt_eq]

/-- `lerp` at the start of its range (00_scope.md R15). -/
theorem lerp_start (a b N : Int) : lerp a b 0 N = a := by simp [lerp, tdiv]

/-- `lerp` at the end of its range (00_scope.md R15). -/
theorem lerp_end (a b N : Int) (h : 0 < N) : lerp a b N N = b := by
  simp only [lerp, tdiv]
  rw [Int.mul_tdiv_cancel _ (by omega)]
  omega

/-- A rising `lerp` as a natural division. -/
theorem lerp_rise (a d n N : Nat) : lerp (a : Int) ((a + d : Nat) : Int) n N = ((a + d * n / N : Nat) : Int) := by
  have : ((a + d : Nat) : Int) - (a : Int) = (d : Int) := by omega
  simp only [lerp, tdiv, this]
  rw [← Int.natCast_mul, ← Int.ofNat_tdiv]
  push_cast
  rfl

/-- A falling `lerp` as a natural division. -/
theorem lerp_fall (b d n N : Nat) :
    lerp ((b + d : Nat) : Int) (b : Int) n N = ((b + d : Nat) : Int) - ((d * n / N : Nat) : Int) := by
  have : (b : Int) - ((b + d : Nat) : Int) = -(d : Int) := by omega
  simp only [lerp, tdiv, this, Int.neg_mul, Int.neg_tdiv]
  rw [← Int.natCast_mul, ← Int.ofNat_tdiv]
  rfl

/-- `lerp` of natural numbers stays between its ends (00_scope.md R15). -/
theorem lerp_between (a b n N : Nat) (hn : n ≤ N) :
    ((min a b : Nat) : Int) ≤ lerp a b n N ∧ lerp a b n N ≤ ((max a b : Nat) : Int) := by
  have key : ∀ d : Nat, d * n / N ≤ d := fun d => by
    rcases Nat.eq_zero_or_pos N with h | h
    · subst h; simp
    · calc d * n / N ≤ d * N / N := Nat.div_le_div_right (Nat.mul_le_mul_left d hn)
        _ = d := Nat.mul_div_cancel d h
  rcases Nat.le_total a b with h | h
  · obtain ⟨d, rfl⟩ := Nat.le.dest h
    have := key d
    rw [lerp_rise]
    generalize d * n / N = x at *
    omega
  · obtain ⟨d, rfl⟩ := Nat.le.dest h
    have := key d
    rw [lerp_fall]
    generalize d * n / N = x at *
    omega

/-- `lerp` is monotone in n, rising when b ≥ a (00_scope.md R15). -/
theorem lerp_mono_of_le (a b n n' N : Nat) (hab : a ≤ b) (hn : n ≤ n') : lerp (a : Int) b n N ≤ lerp a b n' N := by
  obtain ⟨d, rfl⟩ := Nat.le.dest hab
  rw [lerp_rise, lerp_rise]
  have : d * n / N ≤ d * n' / N := Nat.div_le_div_right (Nat.mul_le_mul_left d hn)
  omega

/-- `lerp` is monotone in n, falling when b ≤ a (00_scope.md R15). -/
theorem lerp_anti_of_le (a b n n' N : Nat) (hab : b ≤ a) (hn : n ≤ n') : lerp (a : Int) b n' N ≤ lerp a b n N := by
  obtain ⟨d, rfl⟩ := Nat.le.dest hab
  rw [lerp_fall, lerp_fall]
  have : d * n / N ≤ d * n' / N := Nat.div_le_div_right (Nat.mul_le_mul_left d hn)
  omega

/-- `sat32` stays within s32 (00_scope.md R16). -/
theorem sat32_bounds (v : Int) : -2147483648 ≤ sat32 v ∧ sat32 v ≤ 2147483647 := by
  unfold sat32 clamp
  omega

/-- `sat32` changes nothing within s32 (00_scope.md R16). -/
theorem sat32_of_bounds (v : Int) (h1 : -2147483648 ≤ v) (h2 : v ≤ 2147483647) : sat32 v = v := by
  unfold sat32 clamp
  omega

/-- An s32 word holds the integer it was made from. -/
theorem toInt_s32 (v : Int) (h1 : -2147483648 ≤ v) (h2 : v ≤ 2147483647) : (s32 v).toInt = v := by
  unfold s32
  rw [BitVec.toInt_ofInt_eq_self (by omega) (by omega) (by omega)]

/-- A saturated value in a register reads as itself. -/
@[simp] theorem toInt_s32_sat32 (v : Int) : (s32 (sat32 v)).toInt = sat32 v :=
  toInt_s32 _ (sat32_bounds v).1 (sat32_bounds v).2

/-- A level register holds the integer it was made from, when it is one (10_state.md R42). -/
theorem toNat_levelOf (v : Int) (h1 : 0 ≤ v) (h2 : v ≤ 65536) : ((levelOf v).toNat : Int) = v := by
  unfold levelOf
  rw [BitVec.toNat_ofInt]
  norm_num
  omega

/-- The gain's denominator is at least 1 (42_filter.md R186). -/
theorem gainDenominator_pos (fk c q : Nat) (hc : 1 ≤ c) (hq : 1 ≤ q) : 1 ≤ gainDenominator fk c q := by
  unfold gainDenominator
  have hc' : (1 : Int) ≤ c := by exact_mod_cast hc
  have hq' : (1 : Int) ≤ q := by exact_mod_cast hq
  suffices h : (0 : Int) < ((c * c : Int) - fk * fk) ^ 2 * (q * q) + fk * fk * (c * c) * 2 ^ 32 by omega
  by_cases h : fk = c
  · subst h
    have : (0 : Int) < (fk : Int) * fk * (fk * fk) := by positivity
    nlinarith [sq_nonneg ((fk * fk : Int) - fk * fk)]
  · have hne : (c * c : Int) - fk * fk ≠ 0 := by
      intro h0
      have h1 : c * c = fk * fk := by have : (c * c : Int) = fk * fk := by omega
                                      exact_mod_cast this
      exact h (Nat.mul_self_inj.mp h1).symm
    have h1 : (0 : Int) < ((c * c : Int) - fk * fk) ^ 2 := by positivity
    have h2 : (0 : Int) < (q : Int) * q := by positivity
    have h3 : (0 : Int) ≤ (fk : Int) * fk * (c * c) * 2 ^ 32 := by positivity
    have := mul_pos h1 h2
    omega

/-- The gain's denominator as an integer. -/
theorem gainDenominator_cast (fk c q : Nat) :
    ((gainDenominator fk c q : Nat) : Int) =
      ((c * c : Int) - fk * fk) ^ 2 * (q * q) + fk * fk * (c * c) * 2 ^ 32 := by
  unfold gainDenominator
  rw [Int.toNat_of_nonneg]
  positivity

end Sys2Proof.Machine
end

