-- ==== Sys2Proof/Laws/Memory.lean ====
section
/-! SUPPORT. OUTBUF's bytes and words: read after write, the canonical form, and the accumulation of one sample. -/

namespace Sys2Proof.Machine

/-- A byte read after a byte stored. -/
theorem Memory.byte?_put (m : Memory) (a b : Nat) (v : Byte) (h : Memory.wf m) :
    (Memory.put m a v).byte? b = if a = b then some v else m.byte? b := by
  induction m with
  | nil => simp [Memory.put, Memory.byte?]
  | cons p m ih =>
    obtain ⟨c, w⟩ := p
    have hm : Memory.wf m := (List.pairwise_cons.mp h).2
    simp only [Memory.put]
    split
    · by_cases hab : a = b
      · simp [Memory.byte?, hab]
      · simp [Memory.byte?, hab]
    · split
      · subst c
        by_cases hab : a = b <;> simp [Memory.byte?, hab]
      · simp only [Memory.byte?, ih hm]
        by_cases hcb : c = b
        · subst hcb
          have : a ≠ c := by omega
          simp [this]
        · simp [hcb]

/-- The address of every entry after a byte stored is that address or one listed before. -/
theorem Memory.mem_put (m : Memory) (a : Nat) (v : Byte) (p : Nat × Byte) (h : p ∈ Memory.put m a v) :
    p = (a, v) ∨ p ∈ m := by
  induction m with
  | nil => simpa [Memory.put] using h
  | cons q m ih =>
    obtain ⟨c, w⟩ := q
    simp only [Memory.put] at h
    split at h
    · simpa using h
    · split at h
      · rcases List.mem_cons.mp h with h | h
        · exact .inl h
        · exact .inr (List.mem_cons_of_mem _ h)
      · rcases List.mem_cons.mp h with h | h
        · exact .inr (by simp [h])
        · rcases ih h with h | h
          · exact .inl h
          · exact .inr (List.mem_cons_of_mem _ h)

/-- A byte stored keeps the canonical form. -/
theorem Memory.put_wf (m : Memory) (a : Nat) (v : Byte) (h : Memory.wf m) : Memory.wf (Memory.put m a v) := by
  induction m with
  | nil => simp [Memory.put]
  | cons p m ih =>
    obtain ⟨c, w⟩ := p
    obtain ⟨hc, hm⟩ := List.pairwise_cons.mp h
    simp only [Memory.put]
    split
    · rename_i hac
      refine List.pairwise_cons.mpr ⟨fun q hq => ?_, h⟩
      rcases List.mem_cons.mp hq with rfl | hq
      · exact hac
      · exact Nat.lt_trans hac (hc q hq)
    · split
      · subst c
        exact List.pairwise_cons.mpr ⟨hc, hm⟩
      · refine List.pairwise_cons.mpr ⟨fun q hq => ?_, ih hm⟩
        rcases Memory.mem_put m a v q hq with rfl | hq
        · simp only; omega
        · exact hc q hq

/-- A word stored keeps the canonical form. -/
theorem Memory.putWord_wf (m : Memory) (a : Nat) (w : Word) (h : Memory.wf m) : Memory.wf (m.putWord a w) :=
  Memory.put_wf _ _ _ (Memory.put_wf _ _ _ (Memory.put_wf _ _ _ (Memory.put_wf _ _ _ h)))

/-- Every entry after a word stored is one of its four bytes or listed before. -/
theorem Memory.mem_putWord (m : Memory) (a : Nat) (w : Word) (p : Nat × Byte) (h : p ∈ m.putWord a w) :
    (a ≤ p.1 ∧ p.1 < a + 4) ∨ p ∈ m := by
  rcases Memory.mem_put _ _ _ _ h with rfl | h
  · left; simp
  rcases Memory.mem_put _ _ _ _ h with rfl | h
  · left; simp
  rcases Memory.mem_put _ _ _ _ h with rfl | h
  · left; simp
  rcases Memory.mem_put _ _ _ _ h with rfl | h
  · left; simp
  · exact .inr h

/-- A byte read after a word stored: one of the word's bytes, or what was there. -/
theorem Memory.byte_putWord (m : Memory) (e a b : Nat) (w : Word) (h : Memory.wf m) :
    (m.putWord a w).byte e b =
      if a ≤ b ∧ b < a + 4 then byteOfWord w (b - a) else m.byte e b := by
  have h0 := Memory.put_wf m a (byteOfWord w 0) h
  have h1 := Memory.put_wf _ (a + 1) (byteOfWord w 1) h0
  have h2 := Memory.put_wf _ (a + 2) (byteOfWord w 2) h1
  simp only [Memory.byte, Memory.putWord, Memory.byte?_put _ _ _ _ h2, Memory.byte?_put _ _ _ _ h1,
    Memory.byte?_put _ _ _ _ h0, Memory.byte?_put _ _ _ _ h]
  by_cases hin : a ≤ b ∧ b < a + 4
  · obtain ⟨hl, hu⟩ := hin
    obtain rfl | rfl | rfl | rfl : b = a ∨ b = a + 1 ∨ b = a + 2 ∨ b = a + 3 := by omega
    all_goals simp
  · rw [if_neg hin, if_neg (by omega), if_neg (by omega), if_neg (by omega), if_neg (by omega)]

/-- A word put together from its own four bytes. -/
theorem wordOfBytes_byteOfWord (w : Word) :
    wordOfBytes (byteOfWord w 0) (byteOfWord w 1) (byteOfWord w 2) (byteOfWord w 3) = w := by
  unfold wordOfBytes byteOfWord
  ext i hi
  simp only [BitVec.getElem_append, BitVec.getElem_extractLsb']
  repeat' split
  all_goals (rw [← BitVec.getLsbD_eq_getElem]; congr 1; omega)

/-- A word read where a word was just stored. -/
theorem Memory.word_putWord_self (m : Memory) (e a : Nat) (w : Word) (h : Memory.wf m) :
    (m.putWord a w).word e a = w := by
  simp only [Memory.word, Memory.byte_putWord m e a _ w h]
  simp [wordOfBytes_byteOfWord]

/-- A word read away from where a word was stored. -/
theorem Memory.word_putWord_of_disjoint (m : Memory) (e a b : Nat) (w : Word) (h : Memory.wf m)
    (hd : b + 4 ≤ a ∨ a + 4 ≤ b) : (m.putWord a w).word e b = m.word e b := by
  simp only [Memory.word, Memory.byte_putWord m e a _ w h]
  rw [if_neg (by omega), if_neg (by omega), if_neg (by omega), if_neg (by omega)]

/-- The accumulation of a sample keeps the canonical form. -/
theorem accumulateOut_wf (c : Instance) (e idx : Nat) (y : Int) (chs : List Nat) (m : Memory) (h : Memory.wf m) :
    Memory.wf (accumulateOut c e idx y chs m) := by
  induction chs generalizing m with
  | nil => exact h
  | cons ch chs ih => exact ih _ (Memory.putWord_wf _ _ _ h)

/-- The accumulation of a sample lists only bytes of the words it writes, besides those listed before. -/
theorem mem_accumulateOut (c : Instance) (e idx : Nat) (y : Int) (chs : List Nat) (m : Memory) (p : Nat × Byte)
    (h : p ∈ accumulateOut c e idx y chs m) :
    (∃ ch ∈ chs, outAddr c ch idx ≤ p.1 ∧ p.1 < outAddr c ch idx + 4) ∨ p ∈ m := by
  induction chs generalizing m with
  | nil => exact .inr h
  | cons ch chs ih =>
    rcases ih _ h with ⟨d, hd, hp⟩ | hp
    · exact .inl ⟨d, List.mem_cons_of_mem _ hd, hp⟩
    · rcases Memory.mem_putWord _ _ _ _ hp with hp | hp
      · exact .inl ⟨ch, List.mem_cons_self, hp⟩
      · exact .inr hp

/-- A byte outside the words that the accumulation writes reads as before. -/
theorem byte_accumulateOut_of_outside (c : Instance) (e idx : Nat) (y : Int) (chs : List Nat) (m : Memory) (b : Nat)
    (h : Memory.wf m) (hb : ∀ ch ∈ chs, b < outAddr c ch idx ∨ outAddr c ch idx + 4 ≤ b) :
    (accumulateOut c e idx y chs m).byte e b = m.byte e b := by
  induction chs generalizing m with
  | nil => rfl
  | cons ch chs ih =>
    rw [accumulateOut, ih _ (Memory.putWord_wf _ _ _ h) fun d hd => hb d (List.mem_cons_of_mem _ hd),
      Memory.byte_putWord _ _ _ _ _ h, if_neg]
    have := hb ch List.mem_cons_self
    omega

/-- Words of different channels at one index, or of one channel at different indices, do not overlap (20_memory.md R80). -/
theorem outAddr_disjoint (c : Instance) (ch ch' i i' : Nat) (hi : i < c.blockMax) (hi' : i' < c.blockMax)
    (hne : ch ≠ ch' ∨ i ≠ i') : outAddr c ch i + 4 ≤ outAddr c ch' i' ∨ outAddr c ch' i' + 4 ≤ outAddr c ch i := by
  unfold outAddr
  rcases Nat.lt_trichotomy ch ch' with h | h | h
  · have : ch * c.blockMax + c.blockMax ≤ ch' * c.blockMax := by
      have := Nat.mul_le_mul_right c.blockMax (show ch + 1 ≤ ch' by omega)
      rwa [Nat.add_mul, Nat.one_mul] at this
    omega
  · subst h
    omega
  · have : ch' * c.blockMax + c.blockMax ≤ ch * c.blockMax := by
      have := Nat.mul_le_mul_right c.blockMax (show ch' + 1 ≤ ch by omega)
      rwa [Nat.add_mul, Nat.one_mul] at this
    omega

/-- A word away from the words that the accumulation writes reads as before. -/
theorem word_accumulateOut_of_outside (c : Instance) (e idx : Nat) (y : Int) (chs : List Nat) (m : Memory) (a : Nat)
    (h : Memory.wf m) (hb : ∀ ch ∈ chs, a + 4 ≤ outAddr c ch idx ∨ outAddr c ch idx + 4 ≤ a) :
    (accumulateOut c e idx y chs m).word e a = m.word e a := by
  simp only [Memory.word]
  rw [byte_accumulateOut_of_outside _ _ _ _ _ _ _ h fun d hd => by have := hb d hd; omega,
    byte_accumulateOut_of_outside _ _ _ _ _ _ _ h fun d hd => by have := hb d hd; omega,
    byte_accumulateOut_of_outside _ _ _ _ _ _ _ h fun d hd => by have := hb d hd; omega,
    byte_accumulateOut_of_outside _ _ _ _ _ _ _ h fun d hd => by have := hb d hd; omega]

/-- The word of each listed channel after the accumulation of a sample (43_render.md R209). -/
theorem word_accumulateOut_of_mem (c : Instance) (e idx : Nat) (y : Int) (chs : List Nat) (m : Memory) (ch : Nat)
    (h : Memory.wf m) (hidx : idx < c.blockMax) (hnd : chs.Nodup) (hch : ch ∈ chs) :
    (accumulateOut c e idx y chs m).word e (outAddr c ch idx) = accumulated (m.word e (outAddr c ch idx)) y := by
  induction chs generalizing m with
  | nil => simp at hch
  | cons d chs ih =>
    obtain ⟨hd, hnd⟩ := List.nodup_cons.mp hnd
    by_cases hdc : d = ch
    · subst hdc
      rw [accumulateOut, word_accumulateOut_of_outside _ _ _ _ _ _ _ (Memory.putWord_wf _ _ _ h),
        Memory.word_putWord_self _ _ _ _ h]
      intro x hx
      exact outAddr_disjoint c d x idx idx hidx hidx (.inl fun hxd => hd (hxd ▸ hx))
    · have hch : ch ∈ chs := by
        rcases List.mem_cons.mp hch with h | h
        · exact absurd h.symm hdc
        · exact h
      rw [accumulateOut, ih _ (Memory.putWord_wf _ _ _ h) hnd hch,
        Memory.word_putWord_of_disjoint _ _ _ _ _ h
          (outAddr_disjoint c ch d idx idx hidx hidx (.inl (Ne.symm hdc)))]

end Sys2Proof.Machine
end

