-- ==== Sys2Proof/Laws/State.lean ====
section
/-! SUPPORT. One lemma per field per update of State, so that no later proof unfolds a record update. -/

namespace Sys2Proof.Machine

/-! ## setFlag (10_state.md R29) -/

@[simp] theorem State.setFlag_inst (s : State) (f : Flag) : (s.setFlag f).inst = s.inst := rfl
@[simp] theorem State.setFlag_arg0 (s : State) (f : Flag) : (s.setFlag f).arg0 = s.arg0 := rfl
@[simp] theorem State.setFlag_arg1 (s : State) (f : Flag) : (s.setFlag f).arg1 = s.arg1 := rfl
@[simp] theorem State.setFlag_arg2 (s : State) (f : Flag) : (s.setFlag f).arg2 = s.arg2 := rfl
@[simp] theorem State.setFlag_busy (s : State) (f : Flag) : (s.setFlag f).busy = s.busy := rfl
@[simp] theorem State.setFlag_abortReq (s : State) (f : Flag) : (s.setFlag f).abortReq = s.abortReq := rfl
@[simp] theorem State.setFlag_curCmd (s : State) (f : Flag) : (s.setFlag f).curCmd = s.curCmd := rfl
@[simp] theorem State.setFlag_larg0 (s : State) (f : Flag) : (s.setFlag f).larg0 = s.larg0 := rfl
@[simp] theorem State.setFlag_larg1 (s : State) (f : Flag) : (s.setFlag f).larg1 = s.larg1 := rfl
@[simp] theorem State.setFlag_larg2 (s : State) (f : Flag) : (s.setFlag f).larg2 = s.larg2 := rfl
@[simp] theorem State.setFlag_rbPhase (s : State) (f : Flag) : (s.setFlag f).rbPhase = s.rbPhase := rfl
@[simp] theorem State.setFlag_rbI (s : State) (f : Flag) : (s.setFlag f).rbI = s.rbI := rfl
@[simp] theorem State.setFlag_errCode (s : State) (f : Flag) : (s.setFlag f).errCode = s.errCode := rfl
@[simp] theorem State.setFlag_irqStatus (s : State) (f : Flag) : (s.setFlag f).irqStatus = s.irqStatus ||| f.mask := rfl
@[simp] theorem State.setFlag_irqEnable (s : State) (f : Flag) : (s.setFlag f).irqEnable = s.irqEnable := rfl
@[simp] theorem State.setFlag_dirty (s : State) (f : Flag) : (s.setFlag f).dirty = s.dirty := rfl
@[simp] theorem State.setFlag_fs (s : State) (f : Flag) : (s.setFlag f).fs = s.fs := rfl
@[simp] theorem State.setFlag_blockSize (s : State) (f : Flag) : (s.setFlag f).blockSize = s.blockSize := rfl
@[simp] theorem State.setFlag_channels (s : State) (f : Flag) : (s.setFlag f).channels = s.channels := rfl
@[simp] theorem State.setFlag_prepared (s : State) (f : Flag) : (s.setFlag f).prepared = s.prepared := rfl
@[simp] theorem State.setFlag_noteFreq (s : State) (f : Flag) : (s.setFlag f).noteFreq = s.noteFreq := rfl
@[simp] theorem State.setFlag_noteVel (s : State) (f : Flag) : (s.setFlag f).noteVel = s.noteVel := rfl
@[simp] theorem State.setFlag_active (s : State) (f : Flag) : (s.setFlag f).active = s.active := rfl
@[simp] theorem State.setFlag_shadow (s : State) (f : Flag) : (s.setFlag f).shadow = s.shadow := rfl
@[simp] theorem State.setFlag_live (s : State) (f : Flag) : (s.setFlag f).live = s.live := rfl
@[simp] theorem State.setFlag_egs (s : State) (f : Flag) : (s.setFlag f).egs = s.egs := rfl
@[simp] theorem State.setFlag_osc (s : State) (f : Flag) : (s.setFlag f).osc = s.osc := rfl
@[simp] theorem State.setFlag_lastSample (s : State) (f : Flag) : (s.setFlag f).lastSample = s.lastSample := rfl
@[simp] theorem State.setFlag_lastCutoff (s : State) (f : Flag) : (s.setFlag f).lastCutoff = s.lastCutoff := rfl
@[simp] theorem State.setFlag_sampleCnt (s : State) (f : Flag) : (s.setFlag f).sampleCnt = s.sampleCnt := rfl
@[simp] theorem State.setFlag_outbuf (s : State) (f : Flag) : (s.setFlag f).outbuf = s.outbuf := rfl
@[simp] theorem State.setFlag_epoch (s : State) (f : Flag) : (s.setFlag f).epoch = s.epoch := rfl
@[simp] theorem State.setFlag_resetPin (s : State) (f : Flag) : (s.setFlag f).resetPin = s.resetPin := rfl
@[simp] theorem State.setFlag_host (s : State) (f : Flag) : (s.setFlag f).host = s.host := rfl
@[simp] theorem State.setFlag_sched (s : State) (f : Flag) : (s.setFlag f).sched = s.sched := rfl
@[simp] theorem State.setFlag_rdata (s : State) (f : Flag) : (s.setFlag f).rdata = s.rdata := rfl
@[simp] theorem State.setFlag_hostFailed (s : State) (f : Flag) : (s.setFlag f).hostFailed = s.hostFailed := rfl

/-! ## busError (60_exceptions.md R272) -/

@[simp] theorem State.busError_inst (s : State) : (s.busError).inst = s.inst := rfl
@[simp] theorem State.busError_arg0 (s : State) : (s.busError).arg0 = s.arg0 := rfl
@[simp] theorem State.busError_arg1 (s : State) : (s.busError).arg1 = s.arg1 := rfl
@[simp] theorem State.busError_arg2 (s : State) : (s.busError).arg2 = s.arg2 := rfl
@[simp] theorem State.busError_busy (s : State) : (s.busError).busy = s.busy := rfl
@[simp] theorem State.busError_abortReq (s : State) : (s.busError).abortReq = s.abortReq := rfl
@[simp] theorem State.busError_curCmd (s : State) : (s.busError).curCmd = s.curCmd := rfl
@[simp] theorem State.busError_larg0 (s : State) : (s.busError).larg0 = s.larg0 := rfl
@[simp] theorem State.busError_larg1 (s : State) : (s.busError).larg1 = s.larg1 := rfl
@[simp] theorem State.busError_larg2 (s : State) : (s.busError).larg2 = s.larg2 := rfl
@[simp] theorem State.busError_rbPhase (s : State) : (s.busError).rbPhase = s.rbPhase := rfl
@[simp] theorem State.busError_rbI (s : State) : (s.busError).rbI = s.rbI := rfl
@[simp] theorem State.busError_errCode (s : State) : (s.busError).errCode = s.errCode := rfl
@[simp] theorem State.busError_irqStatus (s : State) : (s.busError).irqStatus = s.irqStatus ||| Flag.busErr.mask := rfl
@[simp] theorem State.busError_irqEnable (s : State) : (s.busError).irqEnable = s.irqEnable := rfl
@[simp] theorem State.busError_dirty (s : State) : (s.busError).dirty = s.dirty := rfl
@[simp] theorem State.busError_fs (s : State) : (s.busError).fs = s.fs := rfl
@[simp] theorem State.busError_blockSize (s : State) : (s.busError).blockSize = s.blockSize := rfl
@[simp] theorem State.busError_channels (s : State) : (s.busError).channels = s.channels := rfl
@[simp] theorem State.busError_prepared (s : State) : (s.busError).prepared = s.prepared := rfl
@[simp] theorem State.busError_noteFreq (s : State) : (s.busError).noteFreq = s.noteFreq := rfl
@[simp] theorem State.busError_noteVel (s : State) : (s.busError).noteVel = s.noteVel := rfl
@[simp] theorem State.busError_active (s : State) : (s.busError).active = s.active := rfl
@[simp] theorem State.busError_shadow (s : State) : (s.busError).shadow = s.shadow := rfl
@[simp] theorem State.busError_live (s : State) : (s.busError).live = s.live := rfl
@[simp] theorem State.busError_egs (s : State) : (s.busError).egs = s.egs := rfl
@[simp] theorem State.busError_osc (s : State) : (s.busError).osc = s.osc := rfl
@[simp] theorem State.busError_lastSample (s : State) : (s.busError).lastSample = s.lastSample := rfl
@[simp] theorem State.busError_lastCutoff (s : State) : (s.busError).lastCutoff = s.lastCutoff := rfl
@[simp] theorem State.busError_sampleCnt (s : State) : (s.busError).sampleCnt = s.sampleCnt := rfl
@[simp] theorem State.busError_outbuf (s : State) : (s.busError).outbuf = s.outbuf := rfl
@[simp] theorem State.busError_epoch (s : State) : (s.busError).epoch = s.epoch := rfl
@[simp] theorem State.busError_resetPin (s : State) : (s.busError).resetPin = s.resetPin := rfl
@[simp] theorem State.busError_host (s : State) : (s.busError).host = s.host := rfl
@[simp] theorem State.busError_sched (s : State) : (s.busError).sched = s.sched := rfl
@[simp] theorem State.busError_rdata (s : State) : (s.busError).rdata = s.rdata := rfl
@[simp] theorem State.busError_hostFailed (s : State) : (s.busError).hostFailed = s.hostFailed := rfl

/-! ## ackIrq (20_memory.md R67) -/

@[simp] theorem State.ackIrq_inst (s : State) (d : Word) : (s.ackIrq d).inst = s.inst := rfl
@[simp] theorem State.ackIrq_arg0 (s : State) (d : Word) : (s.ackIrq d).arg0 = s.arg0 := rfl
@[simp] theorem State.ackIrq_arg1 (s : State) (d : Word) : (s.ackIrq d).arg1 = s.arg1 := rfl
@[simp] theorem State.ackIrq_arg2 (s : State) (d : Word) : (s.ackIrq d).arg2 = s.arg2 := rfl
@[simp] theorem State.ackIrq_busy (s : State) (d : Word) : (s.ackIrq d).busy = s.busy := rfl
@[simp] theorem State.ackIrq_abortReq (s : State) (d : Word) : (s.ackIrq d).abortReq = s.abortReq := rfl
@[simp] theorem State.ackIrq_curCmd (s : State) (d : Word) : (s.ackIrq d).curCmd = s.curCmd := rfl
@[simp] theorem State.ackIrq_larg0 (s : State) (d : Word) : (s.ackIrq d).larg0 = s.larg0 := rfl
@[simp] theorem State.ackIrq_larg1 (s : State) (d : Word) : (s.ackIrq d).larg1 = s.larg1 := rfl
@[simp] theorem State.ackIrq_larg2 (s : State) (d : Word) : (s.ackIrq d).larg2 = s.larg2 := rfl
@[simp] theorem State.ackIrq_rbPhase (s : State) (d : Word) : (s.ackIrq d).rbPhase = s.rbPhase := rfl
@[simp] theorem State.ackIrq_rbI (s : State) (d : Word) : (s.ackIrq d).rbI = s.rbI := rfl
@[simp] theorem State.ackIrq_errCode (s : State) (d : Word) : (s.ackIrq d).errCode = if d.getLsbD 3 then .none else s.errCode := rfl
@[simp] theorem State.ackIrq_irqStatus (s : State) (d : Word) : (s.ackIrq d).irqStatus = s.irqStatus &&& ~~~(d.extractLsb' 0 5) := rfl
@[simp] theorem State.ackIrq_irqEnable (s : State) (d : Word) : (s.ackIrq d).irqEnable = s.irqEnable := rfl
@[simp] theorem State.ackIrq_dirty (s : State) (d : Word) : (s.ackIrq d).dirty = s.dirty := rfl
@[simp] theorem State.ackIrq_fs (s : State) (d : Word) : (s.ackIrq d).fs = s.fs := rfl
@[simp] theorem State.ackIrq_blockSize (s : State) (d : Word) : (s.ackIrq d).blockSize = s.blockSize := rfl
@[simp] theorem State.ackIrq_channels (s : State) (d : Word) : (s.ackIrq d).channels = s.channels := rfl
@[simp] theorem State.ackIrq_prepared (s : State) (d : Word) : (s.ackIrq d).prepared = s.prepared := rfl
@[simp] theorem State.ackIrq_noteFreq (s : State) (d : Word) : (s.ackIrq d).noteFreq = s.noteFreq := rfl
@[simp] theorem State.ackIrq_noteVel (s : State) (d : Word) : (s.ackIrq d).noteVel = s.noteVel := rfl
@[simp] theorem State.ackIrq_active (s : State) (d : Word) : (s.ackIrq d).active = s.active := rfl
@[simp] theorem State.ackIrq_shadow (s : State) (d : Word) : (s.ackIrq d).shadow = s.shadow := rfl
@[simp] theorem State.ackIrq_live (s : State) (d : Word) : (s.ackIrq d).live = s.live := rfl
@[simp] theorem State.ackIrq_egs (s : State) (d : Word) : (s.ackIrq d).egs = s.egs := rfl
@[simp] theorem State.ackIrq_osc (s : State) (d : Word) : (s.ackIrq d).osc = s.osc := rfl
@[simp] theorem State.ackIrq_lastSample (s : State) (d : Word) : (s.ackIrq d).lastSample = s.lastSample := rfl
@[simp] theorem State.ackIrq_lastCutoff (s : State) (d : Word) : (s.ackIrq d).lastCutoff = s.lastCutoff := rfl
@[simp] theorem State.ackIrq_sampleCnt (s : State) (d : Word) : (s.ackIrq d).sampleCnt = s.sampleCnt := rfl
@[simp] theorem State.ackIrq_outbuf (s : State) (d : Word) : (s.ackIrq d).outbuf = s.outbuf := rfl
@[simp] theorem State.ackIrq_epoch (s : State) (d : Word) : (s.ackIrq d).epoch = s.epoch := rfl
@[simp] theorem State.ackIrq_resetPin (s : State) (d : Word) : (s.ackIrq d).resetPin = s.resetPin := rfl
@[simp] theorem State.ackIrq_host (s : State) (d : Word) : (s.ackIrq d).host = s.host := rfl
@[simp] theorem State.ackIrq_sched (s : State) (d : Word) : (s.ackIrq d).sched = s.sched := rfl
@[simp] theorem State.ackIrq_rdata (s : State) (d : Word) : (s.ackIrq d).rdata = s.rdata := rfl
@[simp] theorem State.ackIrq_hostFailed (s : State) (d : Word) : (s.ackIrq d).hostFailed = s.hostFailed := rfl

/-! ## setIrqEnable (10_state.md R30) -/

@[simp] theorem State.setIrqEnable_inst (s : State) (d : Word) : (s.setIrqEnable d).inst = s.inst := rfl
@[simp] theorem State.setIrqEnable_arg0 (s : State) (d : Word) : (s.setIrqEnable d).arg0 = s.arg0 := rfl
@[simp] theorem State.setIrqEnable_arg1 (s : State) (d : Word) : (s.setIrqEnable d).arg1 = s.arg1 := rfl
@[simp] theorem State.setIrqEnable_arg2 (s : State) (d : Word) : (s.setIrqEnable d).arg2 = s.arg2 := rfl
@[simp] theorem State.setIrqEnable_busy (s : State) (d : Word) : (s.setIrqEnable d).busy = s.busy := rfl
@[simp] theorem State.setIrqEnable_abortReq (s : State) (d : Word) : (s.setIrqEnable d).abortReq = s.abortReq := rfl
@[simp] theorem State.setIrqEnable_curCmd (s : State) (d : Word) : (s.setIrqEnable d).curCmd = s.curCmd := rfl
@[simp] theorem State.setIrqEnable_larg0 (s : State) (d : Word) : (s.setIrqEnable d).larg0 = s.larg0 := rfl
@[simp] theorem State.setIrqEnable_larg1 (s : State) (d : Word) : (s.setIrqEnable d).larg1 = s.larg1 := rfl
@[simp] theorem State.setIrqEnable_larg2 (s : State) (d : Word) : (s.setIrqEnable d).larg2 = s.larg2 := rfl
@[simp] theorem State.setIrqEnable_rbPhase (s : State) (d : Word) : (s.setIrqEnable d).rbPhase = s.rbPhase := rfl
@[simp] theorem State.setIrqEnable_rbI (s : State) (d : Word) : (s.setIrqEnable d).rbI = s.rbI := rfl
@[simp] theorem State.setIrqEnable_errCode (s : State) (d : Word) : (s.setIrqEnable d).errCode = s.errCode := rfl
@[simp] theorem State.setIrqEnable_irqStatus (s : State) (d : Word) : (s.setIrqEnable d).irqStatus = s.irqStatus := rfl
@[simp] theorem State.setIrqEnable_irqEnable (s : State) (d : Word) : (s.setIrqEnable d).irqEnable = d.extractLsb' 0 5 := rfl
@[simp] theorem State.setIrqEnable_dirty (s : State) (d : Word) : (s.setIrqEnable d).dirty = s.dirty := rfl
@[simp] theorem State.setIrqEnable_fs (s : State) (d : Word) : (s.setIrqEnable d).fs = s.fs := rfl
@[simp] theorem State.setIrqEnable_blockSize (s : State) (d : Word) : (s.setIrqEnable d).blockSize = s.blockSize := rfl
@[simp] theorem State.setIrqEnable_channels (s : State) (d : Word) : (s.setIrqEnable d).channels = s.channels := rfl
@[simp] theorem State.setIrqEnable_prepared (s : State) (d : Word) : (s.setIrqEnable d).prepared = s.prepared := rfl
@[simp] theorem State.setIrqEnable_noteFreq (s : State) (d : Word) : (s.setIrqEnable d).noteFreq = s.noteFreq := rfl
@[simp] theorem State.setIrqEnable_noteVel (s : State) (d : Word) : (s.setIrqEnable d).noteVel = s.noteVel := rfl
@[simp] theorem State.setIrqEnable_active (s : State) (d : Word) : (s.setIrqEnable d).active = s.active := rfl
@[simp] theorem State.setIrqEnable_shadow (s : State) (d : Word) : (s.setIrqEnable d).shadow = s.shadow := rfl
@[simp] theorem State.setIrqEnable_live (s : State) (d : Word) : (s.setIrqEnable d).live = s.live := rfl
@[simp] theorem State.setIrqEnable_egs (s : State) (d : Word) : (s.setIrqEnable d).egs = s.egs := rfl
@[simp] theorem State.setIrqEnable_osc (s : State) (d : Word) : (s.setIrqEnable d).osc = s.osc := rfl
@[simp] theorem State.setIrqEnable_lastSample (s : State) (d : Word) : (s.setIrqEnable d).lastSample = s.lastSample := rfl
@[simp] theorem State.setIrqEnable_lastCutoff (s : State) (d : Word) : (s.setIrqEnable d).lastCutoff = s.lastCutoff := rfl
@[simp] theorem State.setIrqEnable_sampleCnt (s : State) (d : Word) : (s.setIrqEnable d).sampleCnt = s.sampleCnt := rfl
@[simp] theorem State.setIrqEnable_outbuf (s : State) (d : Word) : (s.setIrqEnable d).outbuf = s.outbuf := rfl
@[simp] theorem State.setIrqEnable_epoch (s : State) (d : Word) : (s.setIrqEnable d).epoch = s.epoch := rfl
@[simp] theorem State.setIrqEnable_resetPin (s : State) (d : Word) : (s.setIrqEnable d).resetPin = s.resetPin := rfl
@[simp] theorem State.setIrqEnable_host (s : State) (d : Word) : (s.setIrqEnable d).host = s.host := rfl
@[simp] theorem State.setIrqEnable_sched (s : State) (d : Word) : (s.setIrqEnable d).sched = s.sched := rfl
@[simp] theorem State.setIrqEnable_rdata (s : State) (d : Word) : (s.setIrqEnable d).rdata = s.rdata := rfl
@[simp] theorem State.setIrqEnable_hostFailed (s : State) (d : Word) : (s.setIrqEnable d).hostFailed = s.hostFailed := rfl

/-! ## setDirty (10_state.md R32) -/

@[simp] theorem State.setDirty_inst (s : State) (d : Word) : (s.setDirty d).inst = s.inst := rfl
@[simp] theorem State.setDirty_arg0 (s : State) (d : Word) : (s.setDirty d).arg0 = s.arg0 := rfl
@[simp] theorem State.setDirty_arg1 (s : State) (d : Word) : (s.setDirty d).arg1 = s.arg1 := rfl
@[simp] theorem State.setDirty_arg2 (s : State) (d : Word) : (s.setDirty d).arg2 = s.arg2 := rfl
@[simp] theorem State.setDirty_busy (s : State) (d : Word) : (s.setDirty d).busy = s.busy := rfl
@[simp] theorem State.setDirty_abortReq (s : State) (d : Word) : (s.setDirty d).abortReq = s.abortReq := rfl
@[simp] theorem State.setDirty_curCmd (s : State) (d : Word) : (s.setDirty d).curCmd = s.curCmd := rfl
@[simp] theorem State.setDirty_larg0 (s : State) (d : Word) : (s.setDirty d).larg0 = s.larg0 := rfl
@[simp] theorem State.setDirty_larg1 (s : State) (d : Word) : (s.setDirty d).larg1 = s.larg1 := rfl
@[simp] theorem State.setDirty_larg2 (s : State) (d : Word) : (s.setDirty d).larg2 = s.larg2 := rfl
@[simp] theorem State.setDirty_rbPhase (s : State) (d : Word) : (s.setDirty d).rbPhase = s.rbPhase := rfl
@[simp] theorem State.setDirty_rbI (s : State) (d : Word) : (s.setDirty d).rbI = s.rbI := rfl
@[simp] theorem State.setDirty_errCode (s : State) (d : Word) : (s.setDirty d).errCode = s.errCode := rfl
@[simp] theorem State.setDirty_irqStatus (s : State) (d : Word) : (s.setDirty d).irqStatus = s.irqStatus := rfl
@[simp] theorem State.setDirty_irqEnable (s : State) (d : Word) : (s.setDirty d).irqEnable = s.irqEnable := rfl
@[simp] theorem State.setDirty_dirty (s : State) (d : Word) : (s.setDirty d).dirty = s.dirty ||| d.extractLsb' 0 5 := rfl
@[simp] theorem State.setDirty_fs (s : State) (d : Word) : (s.setDirty d).fs = s.fs := rfl
@[simp] theorem State.setDirty_blockSize (s : State) (d : Word) : (s.setDirty d).blockSize = s.blockSize := rfl
@[simp] theorem State.setDirty_channels (s : State) (d : Word) : (s.setDirty d).channels = s.channels := rfl
@[simp] theorem State.setDirty_prepared (s : State) (d : Word) : (s.setDirty d).prepared = s.prepared := rfl
@[simp] theorem State.setDirty_noteFreq (s : State) (d : Word) : (s.setDirty d).noteFreq = s.noteFreq := rfl
@[simp] theorem State.setDirty_noteVel (s : State) (d : Word) : (s.setDirty d).noteVel = s.noteVel := rfl
@[simp] theorem State.setDirty_active (s : State) (d : Word) : (s.setDirty d).active = s.active := rfl
@[simp] theorem State.setDirty_shadow (s : State) (d : Word) : (s.setDirty d).shadow = s.shadow := rfl
@[simp] theorem State.setDirty_live (s : State) (d : Word) : (s.setDirty d).live = s.live := rfl
@[simp] theorem State.setDirty_egs (s : State) (d : Word) : (s.setDirty d).egs = s.egs := rfl
@[simp] theorem State.setDirty_osc (s : State) (d : Word) : (s.setDirty d).osc = s.osc := rfl
@[simp] theorem State.setDirty_lastSample (s : State) (d : Word) : (s.setDirty d).lastSample = s.lastSample := rfl
@[simp] theorem State.setDirty_lastCutoff (s : State) (d : Word) : (s.setDirty d).lastCutoff = s.lastCutoff := rfl
@[simp] theorem State.setDirty_sampleCnt (s : State) (d : Word) : (s.setDirty d).sampleCnt = s.sampleCnt := rfl
@[simp] theorem State.setDirty_outbuf (s : State) (d : Word) : (s.setDirty d).outbuf = s.outbuf := rfl
@[simp] theorem State.setDirty_epoch (s : State) (d : Word) : (s.setDirty d).epoch = s.epoch := rfl
@[simp] theorem State.setDirty_resetPin (s : State) (d : Word) : (s.setDirty d).resetPin = s.resetPin := rfl
@[simp] theorem State.setDirty_host (s : State) (d : Word) : (s.setDirty d).host = s.host := rfl
@[simp] theorem State.setDirty_sched (s : State) (d : Word) : (s.setDirty d).sched = s.sched := rfl
@[simp] theorem State.setDirty_rdata (s : State) (d : Word) : (s.setDirty d).rdata = s.rdata := rfl
@[simp] theorem State.setDirty_hostFailed (s : State) (d : Word) : (s.setDirty d).hostFailed = s.hostFailed := rfl

/-! ## setOut (10_state.md R46) -/

@[simp] theorem State.setOut_inst (s : State) (ch i : Nat) (w : Word) : (s.setOut ch i w).inst = s.inst := rfl
@[simp] theorem State.setOut_arg0 (s : State) (ch i : Nat) (w : Word) : (s.setOut ch i w).arg0 = s.arg0 := rfl
@[simp] theorem State.setOut_arg1 (s : State) (ch i : Nat) (w : Word) : (s.setOut ch i w).arg1 = s.arg1 := rfl
@[simp] theorem State.setOut_arg2 (s : State) (ch i : Nat) (w : Word) : (s.setOut ch i w).arg2 = s.arg2 := rfl
@[simp] theorem State.setOut_busy (s : State) (ch i : Nat) (w : Word) : (s.setOut ch i w).busy = s.busy := rfl
@[simp] theorem State.setOut_abortReq (s : State) (ch i : Nat) (w : Word) : (s.setOut ch i w).abortReq = s.abortReq := rfl
@[simp] theorem State.setOut_curCmd (s : State) (ch i : Nat) (w : Word) : (s.setOut ch i w).curCmd = s.curCmd := rfl
@[simp] theorem State.setOut_larg0 (s : State) (ch i : Nat) (w : Word) : (s.setOut ch i w).larg0 = s.larg0 := rfl
@[simp] theorem State.setOut_larg1 (s : State) (ch i : Nat) (w : Word) : (s.setOut ch i w).larg1 = s.larg1 := rfl
@[simp] theorem State.setOut_larg2 (s : State) (ch i : Nat) (w : Word) : (s.setOut ch i w).larg2 = s.larg2 := rfl
@[simp] theorem State.setOut_rbPhase (s : State) (ch i : Nat) (w : Word) : (s.setOut ch i w).rbPhase = s.rbPhase := rfl
@[simp] theorem State.setOut_rbI (s : State) (ch i : Nat) (w : Word) : (s.setOut ch i w).rbI = s.rbI := rfl
@[simp] theorem State.setOut_errCode (s : State) (ch i : Nat) (w : Word) : (s.setOut ch i w).errCode = s.errCode := rfl
@[simp] theorem State.setOut_irqStatus (s : State) (ch i : Nat) (w : Word) : (s.setOut ch i w).irqStatus = s.irqStatus := rfl
@[simp] theorem State.setOut_irqEnable (s : State) (ch i : Nat) (w : Word) : (s.setOut ch i w).irqEnable = s.irqEnable := rfl
@[simp] theorem State.setOut_dirty (s : State) (ch i : Nat) (w : Word) : (s.setOut ch i w).dirty = s.dirty := rfl
@[simp] theorem State.setOut_fs (s : State) (ch i : Nat) (w : Word) : (s.setOut ch i w).fs = s.fs := rfl
@[simp] theorem State.setOut_blockSize (s : State) (ch i : Nat) (w : Word) : (s.setOut ch i w).blockSize = s.blockSize := rfl
@[simp] theorem State.setOut_channels (s : State) (ch i : Nat) (w : Word) : (s.setOut ch i w).channels = s.channels := rfl
@[simp] theorem State.setOut_prepared (s : State) (ch i : Nat) (w : Word) : (s.setOut ch i w).prepared = s.prepared := rfl
@[simp] theorem State.setOut_noteFreq (s : State) (ch i : Nat) (w : Word) : (s.setOut ch i w).noteFreq = s.noteFreq := rfl
@[simp] theorem State.setOut_noteVel (s : State) (ch i : Nat) (w : Word) : (s.setOut ch i w).noteVel = s.noteVel := rfl
@[simp] theorem State.setOut_active (s : State) (ch i : Nat) (w : Word) : (s.setOut ch i w).active = s.active := rfl
@[simp] theorem State.setOut_shadow (s : State) (ch i : Nat) (w : Word) : (s.setOut ch i w).shadow = s.shadow := rfl
@[simp] theorem State.setOut_live (s : State) (ch i : Nat) (w : Word) : (s.setOut ch i w).live = s.live := rfl
@[simp] theorem State.setOut_egs (s : State) (ch i : Nat) (w : Word) : (s.setOut ch i w).egs = s.egs := rfl
@[simp] theorem State.setOut_osc (s : State) (ch i : Nat) (w : Word) : (s.setOut ch i w).osc = s.osc := rfl
@[simp] theorem State.setOut_lastSample (s : State) (ch i : Nat) (w : Word) : (s.setOut ch i w).lastSample = s.lastSample := rfl
@[simp] theorem State.setOut_lastCutoff (s : State) (ch i : Nat) (w : Word) : (s.setOut ch i w).lastCutoff = s.lastCutoff := rfl
@[simp] theorem State.setOut_sampleCnt (s : State) (ch i : Nat) (w : Word) : (s.setOut ch i w).sampleCnt = s.sampleCnt := rfl
@[simp] theorem State.setOut_outbuf (s : State) (ch i : Nat) (w : Word) : (s.setOut ch i w).outbuf = s.outbuf.putWord (outAddr s.inst ch i) w := rfl
@[simp] theorem State.setOut_epoch (s : State) (ch i : Nat) (w : Word) : (s.setOut ch i w).epoch = s.epoch := rfl
@[simp] theorem State.setOut_resetPin (s : State) (ch i : Nat) (w : Word) : (s.setOut ch i w).resetPin = s.resetPin := rfl
@[simp] theorem State.setOut_host (s : State) (ch i : Nat) (w : Word) : (s.setOut ch i w).host = s.host := rfl
@[simp] theorem State.setOut_sched (s : State) (ch i : Nat) (w : Word) : (s.setOut ch i w).sched = s.sched := rfl
@[simp] theorem State.setOut_rdata (s : State) (ch i : Nat) (w : Word) : (s.setOut ch i w).rdata = s.rdata := rfl
@[simp] theorem State.setOut_hostFailed (s : State) (ch i : Nat) (w : Word) : (s.setOut ch i w).hostFailed = s.hostFailed := rfl

/-! ## reject (44_commands.md R231) -/

@[simp] theorem State.reject_inst (s : State) (e : ErrCode) : (s.reject e).inst = s.inst := rfl
@[simp] theorem State.reject_arg0 (s : State) (e : ErrCode) : (s.reject e).arg0 = s.arg0 := rfl
@[simp] theorem State.reject_arg1 (s : State) (e : ErrCode) : (s.reject e).arg1 = s.arg1 := rfl
@[simp] theorem State.reject_arg2 (s : State) (e : ErrCode) : (s.reject e).arg2 = s.arg2 := rfl
@[simp] theorem State.reject_busy (s : State) (e : ErrCode) : (s.reject e).busy = s.busy := rfl
@[simp] theorem State.reject_abortReq (s : State) (e : ErrCode) : (s.reject e).abortReq = s.abortReq := rfl
@[simp] theorem State.reject_curCmd (s : State) (e : ErrCode) : (s.reject e).curCmd = s.curCmd := rfl
@[simp] theorem State.reject_larg0 (s : State) (e : ErrCode) : (s.reject e).larg0 = s.larg0 := rfl
@[simp] theorem State.reject_larg1 (s : State) (e : ErrCode) : (s.reject e).larg1 = s.larg1 := rfl
@[simp] theorem State.reject_larg2 (s : State) (e : ErrCode) : (s.reject e).larg2 = s.larg2 := rfl
@[simp] theorem State.reject_rbPhase (s : State) (e : ErrCode) : (s.reject e).rbPhase = s.rbPhase := rfl
@[simp] theorem State.reject_rbI (s : State) (e : ErrCode) : (s.reject e).rbI = s.rbI := rfl
@[simp] theorem State.reject_errCode (s : State) (e : ErrCode) : (s.reject e).errCode = e := rfl
@[simp] theorem State.reject_irqStatus (s : State) (e : ErrCode) : (s.reject e).irqStatus = s.irqStatus ||| Flag.cmdErr.mask := rfl
@[simp] theorem State.reject_irqEnable (s : State) (e : ErrCode) : (s.reject e).irqEnable = s.irqEnable := rfl
@[simp] theorem State.reject_dirty (s : State) (e : ErrCode) : (s.reject e).dirty = s.dirty := rfl
@[simp] theorem State.reject_fs (s : State) (e : ErrCode) : (s.reject e).fs = s.fs := rfl
@[simp] theorem State.reject_blockSize (s : State) (e : ErrCode) : (s.reject e).blockSize = s.blockSize := rfl
@[simp] theorem State.reject_channels (s : State) (e : ErrCode) : (s.reject e).channels = s.channels := rfl
@[simp] theorem State.reject_prepared (s : State) (e : ErrCode) : (s.reject e).prepared = s.prepared := rfl
@[simp] theorem State.reject_noteFreq (s : State) (e : ErrCode) : (s.reject e).noteFreq = s.noteFreq := rfl
@[simp] theorem State.reject_noteVel (s : State) (e : ErrCode) : (s.reject e).noteVel = s.noteVel := rfl
@[simp] theorem State.reject_active (s : State) (e : ErrCode) : (s.reject e).active = s.active := rfl
@[simp] theorem State.reject_shadow (s : State) (e : ErrCode) : (s.reject e).shadow = s.shadow := rfl
@[simp] theorem State.reject_live (s : State) (e : ErrCode) : (s.reject e).live = s.live := rfl
@[simp] theorem State.reject_egs (s : State) (e : ErrCode) : (s.reject e).egs = s.egs := rfl
@[simp] theorem State.reject_osc (s : State) (e : ErrCode) : (s.reject e).osc = s.osc := rfl
@[simp] theorem State.reject_lastSample (s : State) (e : ErrCode) : (s.reject e).lastSample = s.lastSample := rfl
@[simp] theorem State.reject_lastCutoff (s : State) (e : ErrCode) : (s.reject e).lastCutoff = s.lastCutoff := rfl
@[simp] theorem State.reject_sampleCnt (s : State) (e : ErrCode) : (s.reject e).sampleCnt = s.sampleCnt := rfl
@[simp] theorem State.reject_outbuf (s : State) (e : ErrCode) : (s.reject e).outbuf = s.outbuf := rfl
@[simp] theorem State.reject_epoch (s : State) (e : ErrCode) : (s.reject e).epoch = s.epoch := rfl
@[simp] theorem State.reject_resetPin (s : State) (e : ErrCode) : (s.reject e).resetPin = s.resetPin := rfl
@[simp] theorem State.reject_host (s : State) (e : ErrCode) : (s.reject e).host = s.host := rfl
@[simp] theorem State.reject_sched (s : State) (e : ErrCode) : (s.reject e).sched = s.sched := rfl
@[simp] theorem State.reject_rdata (s : State) (e : ErrCode) : (s.reject e).rdata = s.rdata := rfl
@[simp] theorem State.reject_hostFailed (s : State) (e : ErrCode) : (s.reject e).hostFailed = s.hostFailed := rfl

/-! ## latch (44_commands.md R233) -/

@[simp] theorem State.latch_inst (s : State) (i : Instr) : (s.latch i).inst = s.inst := rfl
@[simp] theorem State.latch_arg0 (s : State) (i : Instr) : (s.latch i).arg0 = s.arg0 := rfl
@[simp] theorem State.latch_arg1 (s : State) (i : Instr) : (s.latch i).arg1 = s.arg1 := rfl
@[simp] theorem State.latch_arg2 (s : State) (i : Instr) : (s.latch i).arg2 = s.arg2 := rfl
@[simp] theorem State.latch_busy (s : State) (i : Instr) : (s.latch i).busy = true := rfl
@[simp] theorem State.latch_abortReq (s : State) (i : Instr) : (s.latch i).abortReq = s.abortReq := rfl
@[simp] theorem State.latch_curCmd (s : State) (i : Instr) : (s.latch i).curCmd = i.opcode := rfl
@[simp] theorem State.latch_larg0 (s : State) (i : Instr) : (s.latch i).larg0 = s.arg0 := rfl
@[simp] theorem State.latch_larg1 (s : State) (i : Instr) : (s.latch i).larg1 = s.arg1 := rfl
@[simp] theorem State.latch_larg2 (s : State) (i : Instr) : (s.latch i).larg2 = s.arg2 := rfl
@[simp] theorem State.latch_rbPhase (s : State) (i : Instr) : (s.latch i).rbPhase = s.rbPhase := rfl
@[simp] theorem State.latch_rbI (s : State) (i : Instr) : (s.latch i).rbI = s.rbI := rfl
@[simp] theorem State.latch_errCode (s : State) (i : Instr) : (s.latch i).errCode = s.errCode := rfl
@[simp] theorem State.latch_irqStatus (s : State) (i : Instr) : (s.latch i).irqStatus = s.irqStatus := rfl
@[simp] theorem State.latch_irqEnable (s : State) (i : Instr) : (s.latch i).irqEnable = s.irqEnable := rfl
@[simp] theorem State.latch_dirty (s : State) (i : Instr) : (s.latch i).dirty = s.dirty := rfl
@[simp] theorem State.latch_fs (s : State) (i : Instr) : (s.latch i).fs = s.fs := rfl
@[simp] theorem State.latch_blockSize (s : State) (i : Instr) : (s.latch i).blockSize = s.blockSize := rfl
@[simp] theorem State.latch_channels (s : State) (i : Instr) : (s.latch i).channels = s.channels := rfl
@[simp] theorem State.latch_prepared (s : State) (i : Instr) : (s.latch i).prepared = s.prepared := rfl
@[simp] theorem State.latch_noteFreq (s : State) (i : Instr) : (s.latch i).noteFreq = s.noteFreq := rfl
@[simp] theorem State.latch_noteVel (s : State) (i : Instr) : (s.latch i).noteVel = s.noteVel := rfl
@[simp] theorem State.latch_active (s : State) (i : Instr) : (s.latch i).active = s.active := rfl
@[simp] theorem State.latch_shadow (s : State) (i : Instr) : (s.latch i).shadow = s.shadow := rfl
@[simp] theorem State.latch_live (s : State) (i : Instr) : (s.latch i).live = s.live := rfl
@[simp] theorem State.latch_egs (s : State) (i : Instr) : (s.latch i).egs = s.egs := rfl
@[simp] theorem State.latch_osc (s : State) (i : Instr) : (s.latch i).osc = s.osc := rfl
@[simp] theorem State.latch_lastSample (s : State) (i : Instr) : (s.latch i).lastSample = s.lastSample := rfl
@[simp] theorem State.latch_lastCutoff (s : State) (i : Instr) : (s.latch i).lastCutoff = s.lastCutoff := rfl
@[simp] theorem State.latch_sampleCnt (s : State) (i : Instr) : (s.latch i).sampleCnt = s.sampleCnt := rfl
@[simp] theorem State.latch_outbuf (s : State) (i : Instr) : (s.latch i).outbuf = s.outbuf := rfl
@[simp] theorem State.latch_epoch (s : State) (i : Instr) : (s.latch i).epoch = s.epoch := rfl
@[simp] theorem State.latch_resetPin (s : State) (i : Instr) : (s.latch i).resetPin = s.resetPin := rfl
@[simp] theorem State.latch_host (s : State) (i : Instr) : (s.latch i).host = s.host := rfl
@[simp] theorem State.latch_sched (s : State) (i : Instr) : (s.latch i).sched = s.sched := rfl
@[simp] theorem State.latch_rdata (s : State) (i : Instr) : (s.latch i).rdata = s.rdata := rfl
@[simp] theorem State.latch_hostFailed (s : State) (i : Instr) : (s.latch i).hostFailed = s.hostFailed := rfl

/-! ## commit (44_commands.md R232) -/

@[simp] theorem State.commit_inst (s : State) : (s.commit).inst = s.inst := rfl
@[simp] theorem State.commit_arg0 (s : State) : (s.commit).arg0 = s.arg0 := rfl
@[simp] theorem State.commit_arg1 (s : State) : (s.commit).arg1 = s.arg1 := rfl
@[simp] theorem State.commit_arg2 (s : State) : (s.commit).arg2 = s.arg2 := rfl
@[simp] theorem State.commit_busy (s : State) : (s.commit).busy = s.busy := rfl
@[simp] theorem State.commit_abortReq (s : State) : (s.commit).abortReq = s.abortReq := rfl
@[simp] theorem State.commit_curCmd (s : State) : (s.commit).curCmd = s.curCmd := rfl
@[simp] theorem State.commit_larg0 (s : State) : (s.commit).larg0 = s.larg0 := rfl
@[simp] theorem State.commit_larg1 (s : State) : (s.commit).larg1 = s.larg1 := rfl
@[simp] theorem State.commit_larg2 (s : State) : (s.commit).larg2 = s.larg2 := rfl
@[simp] theorem State.commit_rbPhase (s : State) : (s.commit).rbPhase = s.rbPhase := rfl
@[simp] theorem State.commit_rbI (s : State) : (s.commit).rbI = s.rbI := rfl
@[simp] theorem State.commit_errCode (s : State) : (s.commit).errCode = s.errCode := rfl
@[simp] theorem State.commit_irqStatus (s : State) : (s.commit).irqStatus = s.irqStatus := rfl
@[simp] theorem State.commit_irqEnable (s : State) : (s.commit).irqEnable = s.irqEnable := rfl
@[simp] theorem State.commit_dirty (s : State) : (s.commit).dirty = 0#5 := rfl
@[simp] theorem State.commit_fs (s : State) : (s.commit).fs = s.fs := rfl
@[simp] theorem State.commit_blockSize (s : State) : (s.commit).blockSize = s.blockSize := rfl
@[simp] theorem State.commit_channels (s : State) : (s.commit).channels = s.channels := rfl
@[simp] theorem State.commit_prepared (s : State) : (s.commit).prepared = s.prepared := rfl
@[simp] theorem State.commit_noteFreq (s : State) : (s.commit).noteFreq = s.noteFreq := rfl
@[simp] theorem State.commit_noteVel (s : State) : (s.commit).noteVel = s.noteVel := rfl
@[simp] theorem State.commit_active (s : State) : (s.commit).active = s.active := rfl
@[simp] theorem State.commit_shadow (s : State) : (s.commit).shadow = s.shadow := rfl
@[simp] theorem State.commit_live (s : State) : (s.commit).live = committed s.dirty s.shadow s.live := rfl
@[simp] theorem State.commit_egs (s : State) : (s.commit).egs = s.egs := rfl
@[simp] theorem State.commit_osc (s : State) : (s.commit).osc = s.osc := rfl
@[simp] theorem State.commit_lastSample (s : State) : (s.commit).lastSample = s.lastSample := rfl
@[simp] theorem State.commit_lastCutoff (s : State) : (s.commit).lastCutoff = s.lastCutoff := rfl
@[simp] theorem State.commit_sampleCnt (s : State) : (s.commit).sampleCnt = s.sampleCnt := rfl
@[simp] theorem State.commit_outbuf (s : State) : (s.commit).outbuf = s.outbuf := rfl
@[simp] theorem State.commit_epoch (s : State) : (s.commit).epoch = s.epoch := rfl
@[simp] theorem State.commit_resetPin (s : State) : (s.commit).resetPin = s.resetPin := rfl
@[simp] theorem State.commit_host (s : State) : (s.commit).host = s.host := rfl
@[simp] theorem State.commit_sched (s : State) : (s.commit).sched = s.sched := rfl
@[simp] theorem State.commit_rdata (s : State) : (s.commit).rdata = s.rdata := rfl
@[simp] theorem State.commit_hostFailed (s : State) : (s.commit).hostFailed = s.hostFailed := rfl

/-! ## complete (44_commands.md R242) -/

@[simp] theorem State.complete_inst (s : State) : (s.complete).inst = s.inst := rfl
@[simp] theorem State.complete_arg0 (s : State) : (s.complete).arg0 = s.arg0 := rfl
@[simp] theorem State.complete_arg1 (s : State) : (s.complete).arg1 = s.arg1 := rfl
@[simp] theorem State.complete_arg2 (s : State) : (s.complete).arg2 = s.arg2 := rfl
@[simp] theorem State.complete_busy (s : State) : (s.complete).busy = false := rfl
@[simp] theorem State.complete_abortReq (s : State) : (s.complete).abortReq = s.abortReq := rfl
@[simp] theorem State.complete_curCmd (s : State) : (s.complete).curCmd = s.curCmd := rfl
@[simp] theorem State.complete_larg0 (s : State) : (s.complete).larg0 = s.larg0 := rfl
@[simp] theorem State.complete_larg1 (s : State) : (s.complete).larg1 = s.larg1 := rfl
@[simp] theorem State.complete_larg2 (s : State) : (s.complete).larg2 = s.larg2 := rfl
@[simp] theorem State.complete_rbPhase (s : State) : (s.complete).rbPhase = s.rbPhase := rfl
@[simp] theorem State.complete_rbI (s : State) : (s.complete).rbI = s.rbI := rfl
@[simp] theorem State.complete_errCode (s : State) : (s.complete).errCode = s.errCode := rfl
@[simp] theorem State.complete_irqStatus (s : State) : (s.complete).irqStatus = s.irqStatus ||| Flag.cmdDone.mask := rfl
@[simp] theorem State.complete_irqEnable (s : State) : (s.complete).irqEnable = s.irqEnable := rfl
@[simp] theorem State.complete_dirty (s : State) : (s.complete).dirty = s.dirty := rfl
@[simp] theorem State.complete_fs (s : State) : (s.complete).fs = s.fs := rfl
@[simp] theorem State.complete_blockSize (s : State) : (s.complete).blockSize = s.blockSize := rfl
@[simp] theorem State.complete_channels (s : State) : (s.complete).channels = s.channels := rfl
@[simp] theorem State.complete_prepared (s : State) : (s.complete).prepared = s.prepared := rfl
@[simp] theorem State.complete_noteFreq (s : State) : (s.complete).noteFreq = s.noteFreq := rfl
@[simp] theorem State.complete_noteVel (s : State) : (s.complete).noteVel = s.noteVel := rfl
@[simp] theorem State.complete_active (s : State) : (s.complete).active = s.active := rfl
@[simp] theorem State.complete_shadow (s : State) : (s.complete).shadow = s.shadow := rfl
@[simp] theorem State.complete_live (s : State) : (s.complete).live = s.live := rfl
@[simp] theorem State.complete_egs (s : State) : (s.complete).egs = s.egs := rfl
@[simp] theorem State.complete_osc (s : State) : (s.complete).osc = s.osc := rfl
@[simp] theorem State.complete_lastSample (s : State) : (s.complete).lastSample = s.lastSample := rfl
@[simp] theorem State.complete_lastCutoff (s : State) : (s.complete).lastCutoff = s.lastCutoff := rfl
@[simp] theorem State.complete_sampleCnt (s : State) : (s.complete).sampleCnt = s.sampleCnt := rfl
@[simp] theorem State.complete_outbuf (s : State) : (s.complete).outbuf = s.outbuf := rfl
@[simp] theorem State.complete_epoch (s : State) : (s.complete).epoch = s.epoch := rfl
@[simp] theorem State.complete_resetPin (s : State) : (s.complete).resetPin = s.resetPin := rfl
@[simp] theorem State.complete_host (s : State) : (s.complete).host = s.host := rfl
@[simp] theorem State.complete_sched (s : State) : (s.complete).sched = s.sched := rfl
@[simp] theorem State.complete_rdata (s : State) : (s.complete).rdata = s.rdata := rfl
@[simp] theorem State.complete_hostFailed (s : State) : (s.complete).hostFailed = s.hostFailed := rfl

/-! ## abortStep (44_commands.md R235) -/

@[simp] theorem State.abortStep_inst (s : State) : (s.abortStep).inst = s.inst := rfl
@[simp] theorem State.abortStep_arg0 (s : State) : (s.abortStep).arg0 = s.arg0 := rfl
@[simp] theorem State.abortStep_arg1 (s : State) : (s.abortStep).arg1 = s.arg1 := rfl
@[simp] theorem State.abortStep_arg2 (s : State) : (s.abortStep).arg2 = s.arg2 := rfl
@[simp] theorem State.abortStep_busy (s : State) : (s.abortStep).busy = false := rfl
@[simp] theorem State.abortStep_abortReq (s : State) : (s.abortStep).abortReq = false := rfl
@[simp] theorem State.abortStep_curCmd (s : State) : (s.abortStep).curCmd = s.curCmd := rfl
@[simp] theorem State.abortStep_larg0 (s : State) : (s.abortStep).larg0 = s.larg0 := rfl
@[simp] theorem State.abortStep_larg1 (s : State) : (s.abortStep).larg1 = s.larg1 := rfl
@[simp] theorem State.abortStep_larg2 (s : State) : (s.abortStep).larg2 = s.larg2 := rfl
@[simp] theorem State.abortStep_rbPhase (s : State) : (s.abortStep).rbPhase = s.rbPhase := rfl
@[simp] theorem State.abortStep_rbI (s : State) : (s.abortStep).rbI = s.rbI := rfl
@[simp] theorem State.abortStep_errCode (s : State) : (s.abortStep).errCode = s.errCode := rfl
@[simp] theorem State.abortStep_irqStatus (s : State) : (s.abortStep).irqStatus = s.irqStatus ||| Flag.cmdDone.mask := rfl
@[simp] theorem State.abortStep_irqEnable (s : State) : (s.abortStep).irqEnable = s.irqEnable := rfl
@[simp] theorem State.abortStep_dirty (s : State) : (s.abortStep).dirty = s.dirty := rfl
@[simp] theorem State.abortStep_fs (s : State) : (s.abortStep).fs = s.fs := rfl
@[simp] theorem State.abortStep_blockSize (s : State) : (s.abortStep).blockSize = s.blockSize := rfl
@[simp] theorem State.abortStep_channels (s : State) : (s.abortStep).channels = s.channels := rfl
@[simp] theorem State.abortStep_prepared (s : State) : (s.abortStep).prepared = s.prepared := rfl
@[simp] theorem State.abortStep_noteFreq (s : State) : (s.abortStep).noteFreq = s.noteFreq := rfl
@[simp] theorem State.abortStep_noteVel (s : State) : (s.abortStep).noteVel = s.noteVel := rfl
@[simp] theorem State.abortStep_active (s : State) : (s.abortStep).active = false := rfl
@[simp] theorem State.abortStep_shadow (s : State) : (s.abortStep).shadow = s.shadow := rfl
@[simp] theorem State.abortStep_live (s : State) : (s.abortStep).live = s.live := rfl
@[simp] theorem State.abortStep_egs (s : State) : (s.abortStep).egs = s.egs.stop := rfl
@[simp] theorem State.abortStep_osc (s : State) : (s.abortStep).osc = s.osc := rfl
@[simp] theorem State.abortStep_lastSample (s : State) : (s.abortStep).lastSample = s.lastSample := rfl
@[simp] theorem State.abortStep_lastCutoff (s : State) : (s.abortStep).lastCutoff = s.lastCutoff := rfl
@[simp] theorem State.abortStep_sampleCnt (s : State) : (s.abortStep).sampleCnt = s.sampleCnt := rfl
@[simp] theorem State.abortStep_outbuf (s : State) : (s.abortStep).outbuf = s.outbuf := rfl
@[simp] theorem State.abortStep_epoch (s : State) : (s.abortStep).epoch = s.epoch := rfl
@[simp] theorem State.abortStep_resetPin (s : State) : (s.abortStep).resetPin = s.resetPin := rfl
@[simp] theorem State.abortStep_host (s : State) : (s.abortStep).host = s.host := rfl
@[simp] theorem State.abortStep_sched (s : State) : (s.abortStep).sched = s.sched := rfl
@[simp] theorem State.abortStep_rdata (s : State) : (s.abortStep).rdata = s.rdata := rfl
@[simp] theorem State.abortStep_hostFailed (s : State) : (s.abortStep).hostFailed = s.hostFailed := rfl

/-! ## startNote (44_commands.md R238) -/

@[simp] theorem State.startNote_inst (s : State) : (s.startNote).inst = s.inst := rfl
@[simp] theorem State.startNote_arg0 (s : State) : (s.startNote).arg0 = s.arg0 := rfl
@[simp] theorem State.startNote_arg1 (s : State) : (s.startNote).arg1 = s.arg1 := rfl
@[simp] theorem State.startNote_arg2 (s : State) : (s.startNote).arg2 = s.arg2 := rfl
@[simp] theorem State.startNote_busy (s : State) : (s.startNote).busy = false := rfl
@[simp] theorem State.startNote_abortReq (s : State) : (s.startNote).abortReq = s.abortReq := rfl
@[simp] theorem State.startNote_curCmd (s : State) : (s.startNote).curCmd = s.curCmd := rfl
@[simp] theorem State.startNote_larg0 (s : State) : (s.startNote).larg0 = s.larg0 := rfl
@[simp] theorem State.startNote_larg1 (s : State) : (s.startNote).larg1 = s.larg1 := rfl
@[simp] theorem State.startNote_larg2 (s : State) : (s.startNote).larg2 = s.larg2 := rfl
@[simp] theorem State.startNote_rbPhase (s : State) : (s.startNote).rbPhase = s.rbPhase := rfl
@[simp] theorem State.startNote_rbI (s : State) : (s.startNote).rbI = s.rbI := rfl
@[simp] theorem State.startNote_errCode (s : State) : (s.startNote).errCode = s.errCode := rfl
@[simp] theorem State.startNote_irqStatus (s : State) : (s.startNote).irqStatus = s.irqStatus ||| Flag.cmdDone.mask := rfl
@[simp] theorem State.startNote_irqEnable (s : State) : (s.startNote).irqEnable = s.irqEnable := rfl
@[simp] theorem State.startNote_dirty (s : State) : (s.startNote).dirty = 0#5 := rfl
@[simp] theorem State.startNote_fs (s : State) : (s.startNote).fs = s.fs := rfl
@[simp] theorem State.startNote_blockSize (s : State) : (s.startNote).blockSize = s.blockSize := rfl
@[simp] theorem State.startNote_channels (s : State) : (s.startNote).channels = s.channels := rfl
@[simp] theorem State.startNote_prepared (s : State) : (s.startNote).prepared = s.prepared := rfl
@[simp] theorem State.startNote_noteFreq (s : State) : (s.startNote).noteFreq = s.larg0 := rfl
@[simp] theorem State.startNote_noteVel (s : State) : (s.startNote).noteVel = s.larg1 := rfl
@[simp] theorem State.startNote_active (s : State) : (s.startNote).active = true := rfl
@[simp] theorem State.startNote_shadow (s : State) : (s.startNote).shadow = s.shadow := rfl
@[simp] theorem State.startNote_live (s : State) : (s.startNote).live = committed s.dirty s.shadow s.live := rfl
@[simp] theorem State.startNote_egs (s : State) : (s.startNote).egs = s.egs.noteOn := rfl
@[simp] theorem State.startNote_osc (s : State) : (s.startNote).osc = s.osc.setIncs s.larg0 (committed s.dirty s.shadow s.live).osc.ratio s.fs := rfl
@[simp] theorem State.startNote_lastSample (s : State) : (s.startNote).lastSample = s.lastSample := rfl
@[simp] theorem State.startNote_lastCutoff (s : State) : (s.startNote).lastCutoff = s.lastCutoff := rfl
@[simp] theorem State.startNote_sampleCnt (s : State) : (s.startNote).sampleCnt = s.sampleCnt := rfl
@[simp] theorem State.startNote_outbuf (s : State) : (s.startNote).outbuf = s.outbuf := rfl
@[simp] theorem State.startNote_epoch (s : State) : (s.startNote).epoch = s.epoch := rfl
@[simp] theorem State.startNote_resetPin (s : State) : (s.startNote).resetPin = s.resetPin := rfl
@[simp] theorem State.startNote_host (s : State) : (s.startNote).host = s.host := rfl
@[simp] theorem State.startNote_sched (s : State) : (s.startNote).sched = s.sched := rfl
@[simp] theorem State.startNote_rdata (s : State) : (s.startNote).rdata = s.rdata := rfl
@[simp] theorem State.startNote_hostFailed (s : State) : (s.startNote).hostFailed = s.hostFailed := rfl

/-! ## sampleStep (43_render.md R200) -/

@[simp] theorem State.sampleStep_inst (s : State) : (s.sampleStep).inst = s.inst := rfl
@[simp] theorem State.sampleStep_arg0 (s : State) : (s.sampleStep).arg0 = s.arg0 := rfl
@[simp] theorem State.sampleStep_arg1 (s : State) : (s.sampleStep).arg1 = s.arg1 := rfl
@[simp] theorem State.sampleStep_arg2 (s : State) : (s.sampleStep).arg2 = s.arg2 := rfl
@[simp] theorem State.sampleStep_busy (s : State) : (s.sampleStep).busy = s.busy := rfl
@[simp] theorem State.sampleStep_abortReq (s : State) : (s.sampleStep).abortReq = s.abortReq := rfl
@[simp] theorem State.sampleStep_curCmd (s : State) : (s.sampleStep).curCmd = s.curCmd := rfl
@[simp] theorem State.sampleStep_larg0 (s : State) : (s.sampleStep).larg0 = s.larg0 := rfl
@[simp] theorem State.sampleStep_larg1 (s : State) : (s.sampleStep).larg1 = s.larg1 := rfl
@[simp] theorem State.sampleStep_larg2 (s : State) : (s.sampleStep).larg2 = s.larg2 := rfl
@[simp] theorem State.sampleStep_rbPhase (s : State) : (s.sampleStep).rbPhase = s.rbPhase := rfl
@[simp] theorem State.sampleStep_rbI (s : State) : (s.sampleStep).rbI = s.rbI := rfl
@[simp] theorem State.sampleStep_errCode (s : State) : (s.sampleStep).errCode = s.errCode := rfl
@[simp] theorem State.sampleStep_irqStatus (s : State) : (s.sampleStep).irqStatus = if clips s.sampleSum.2 then s.irqStatus ||| Flag.clip.mask else s.irqStatus := rfl
@[simp] theorem State.sampleStep_irqEnable (s : State) : (s.sampleStep).irqEnable = s.irqEnable := rfl
@[simp] theorem State.sampleStep_dirty (s : State) : (s.sampleStep).dirty = s.dirty := rfl
@[simp] theorem State.sampleStep_fs (s : State) : (s.sampleStep).fs = s.fs := rfl
@[simp] theorem State.sampleStep_blockSize (s : State) : (s.sampleStep).blockSize = s.blockSize := rfl
@[simp] theorem State.sampleStep_channels (s : State) : (s.sampleStep).channels = s.channels := rfl
@[simp] theorem State.sampleStep_prepared (s : State) : (s.sampleStep).prepared = s.prepared := rfl
@[simp] theorem State.sampleStep_noteFreq (s : State) : (s.sampleStep).noteFreq = s.noteFreq := rfl
@[simp] theorem State.sampleStep_noteVel (s : State) : (s.sampleStep).noteVel = s.noteVel := rfl
@[simp] theorem State.sampleStep_active (s : State) : (s.sampleStep).active = s.active := rfl
@[simp] theorem State.sampleStep_shadow (s : State) : (s.sampleStep).shadow = s.shadow := rfl
@[simp] theorem State.sampleStep_live (s : State) : (s.sampleStep).live = s.live := rfl
@[simp] theorem State.sampleStep_egs (s : State) : (s.sampleStep).egs = s.tickedEgs := rfl
@[simp] theorem State.sampleStep_osc (s : State) : (s.sampleStep).osc = s.sampleSum.1 := rfl
@[simp] theorem State.sampleStep_lastSample (s : State) : (s.sampleStep).lastSample = s32 (sat32 s.sampleSum.2) := rfl
@[simp] theorem State.sampleStep_lastCutoff (s : State) : (s.sampleStep).lastCutoff = mod32 s.sampleCutoff := rfl
@[simp] theorem State.sampleStep_sampleCnt (s : State) : (s.sampleStep).sampleCnt = s.sampleCnt + 1#32 := rfl
@[simp] theorem State.sampleStep_outbuf (s : State) : (s.sampleStep).outbuf = accumulateOut s.inst s.epoch s.sampleIndex (sat32 s.sampleSum.2) (List.range s.channels.toNat) s.outbuf := rfl
@[simp] theorem State.sampleStep_epoch (s : State) : (s.sampleStep).epoch = s.epoch := rfl
@[simp] theorem State.sampleStep_resetPin (s : State) : (s.sampleStep).resetPin = s.resetPin := rfl
@[simp] theorem State.sampleStep_host (s : State) : (s.sampleStep).host = s.host := rfl
@[simp] theorem State.sampleStep_sched (s : State) : (s.sampleStep).sched = s.sched := rfl
@[simp] theorem State.sampleStep_rdata (s : State) : (s.sampleStep).rdata = s.rdata := rfl
@[simp] theorem State.sampleStep_hostFailed (s : State) : (s.sampleStep).hostFailed = s.hostFailed := rfl

/-! ## completionTest (43_render.md R211) -/

@[simp] theorem State.completionTest_inst (s : State) : (s.completionTest).inst = s.inst := rfl
@[simp] theorem State.completionTest_arg0 (s : State) : (s.completionTest).arg0 = s.arg0 := rfl
@[simp] theorem State.completionTest_arg1 (s : State) : (s.completionTest).arg1 = s.arg1 := rfl
@[simp] theorem State.completionTest_arg2 (s : State) : (s.completionTest).arg2 = s.arg2 := rfl
@[simp] theorem State.completionTest_busy (s : State) : (s.completionTest).busy = s.busy := rfl
@[simp] theorem State.completionTest_abortReq (s : State) : (s.completionTest).abortReq = s.abortReq := rfl
@[simp] theorem State.completionTest_curCmd (s : State) : (s.completionTest).curCmd = s.curCmd := rfl
@[simp] theorem State.completionTest_larg0 (s : State) : (s.completionTest).larg0 = s.larg0 := rfl
@[simp] theorem State.completionTest_larg1 (s : State) : (s.completionTest).larg1 = s.larg1 := rfl
@[simp] theorem State.completionTest_larg2 (s : State) : (s.completionTest).larg2 = s.larg2 := rfl
@[simp] theorem State.completionTest_rbPhase (s : State) : (s.completionTest).rbPhase = s.rbPhase := rfl
@[simp] theorem State.completionTest_rbI (s : State) : (s.completionTest).rbI = s.rbI := rfl
@[simp] theorem State.completionTest_errCode (s : State) : (s.completionTest).errCode = s.errCode := rfl
@[simp] theorem State.completionTest_irqStatus (s : State) : (s.completionTest).irqStatus = if s.voiceFinished then s.irqStatus ||| Flag.voiceDone.mask else s.irqStatus := rfl
@[simp] theorem State.completionTest_irqEnable (s : State) : (s.completionTest).irqEnable = s.irqEnable := rfl
@[simp] theorem State.completionTest_dirty (s : State) : (s.completionTest).dirty = s.dirty := rfl
@[simp] theorem State.completionTest_fs (s : State) : (s.completionTest).fs = s.fs := rfl
@[simp] theorem State.completionTest_blockSize (s : State) : (s.completionTest).blockSize = s.blockSize := rfl
@[simp] theorem State.completionTest_channels (s : State) : (s.completionTest).channels = s.channels := rfl
@[simp] theorem State.completionTest_prepared (s : State) : (s.completionTest).prepared = s.prepared := rfl
@[simp] theorem State.completionTest_noteFreq (s : State) : (s.completionTest).noteFreq = s.noteFreq := rfl
@[simp] theorem State.completionTest_noteVel (s : State) : (s.completionTest).noteVel = s.noteVel := rfl
@[simp] theorem State.completionTest_active (s : State) : (s.completionTest).active = if s.voiceFinished then false else s.active := rfl
@[simp] theorem State.completionTest_shadow (s : State) : (s.completionTest).shadow = s.shadow := rfl
@[simp] theorem State.completionTest_live (s : State) : (s.completionTest).live = s.live := rfl
@[simp] theorem State.completionTest_egs (s : State) : (s.completionTest).egs = s.egs := rfl
@[simp] theorem State.completionTest_osc (s : State) : (s.completionTest).osc = s.osc := rfl
@[simp] theorem State.completionTest_lastSample (s : State) : (s.completionTest).lastSample = s.lastSample := rfl
@[simp] theorem State.completionTest_lastCutoff (s : State) : (s.completionTest).lastCutoff = s.lastCutoff := rfl
@[simp] theorem State.completionTest_sampleCnt (s : State) : (s.completionTest).sampleCnt = s.sampleCnt := rfl
@[simp] theorem State.completionTest_outbuf (s : State) : (s.completionTest).outbuf = s.outbuf := rfl
@[simp] theorem State.completionTest_epoch (s : State) : (s.completionTest).epoch = s.epoch := rfl
@[simp] theorem State.completionTest_resetPin (s : State) : (s.completionTest).resetPin = s.resetPin := rfl
@[simp] theorem State.completionTest_host (s : State) : (s.completionTest).host = s.host := rfl
@[simp] theorem State.completionTest_sched (s : State) : (s.completionTest).sched = s.sched := rfl
@[simp] theorem State.completionTest_rdata (s : State) : (s.completionTest).rdata = s.rdata := rfl
@[simp] theorem State.completionTest_hostFailed (s : State) : (s.completionTest).hostFailed = s.hostFailed := rfl

/-! ## renderCommit (44_commands.md R241) -/

@[simp] theorem State.renderCommit_inst (s : State) : (s.renderCommit).inst = s.inst := rfl
@[simp] theorem State.renderCommit_arg0 (s : State) : (s.renderCommit).arg0 = s.arg0 := rfl
@[simp] theorem State.renderCommit_arg1 (s : State) : (s.renderCommit).arg1 = s.arg1 := rfl
@[simp] theorem State.renderCommit_arg2 (s : State) : (s.renderCommit).arg2 = s.arg2 := rfl
@[simp] theorem State.renderCommit_busy (s : State) : (s.renderCommit).busy = s.busy := rfl
@[simp] theorem State.renderCommit_abortReq (s : State) : (s.renderCommit).abortReq = s.abortReq := rfl
@[simp] theorem State.renderCommit_curCmd (s : State) : (s.renderCommit).curCmd = s.curCmd := rfl
@[simp] theorem State.renderCommit_larg0 (s : State) : (s.renderCommit).larg0 = s.larg0 := rfl
@[simp] theorem State.renderCommit_larg1 (s : State) : (s.renderCommit).larg1 = s.larg1 := rfl
@[simp] theorem State.renderCommit_larg2 (s : State) : (s.renderCommit).larg2 = s.larg2 := rfl
@[simp] theorem State.renderCommit_rbPhase (s : State) : (s.renderCommit).rbPhase = if s.active && s.numSamples != 0#32 then .sample else .finish := rfl
@[simp] theorem State.renderCommit_rbI (s : State) : (s.renderCommit).rbI = 0#32 := rfl
@[simp] theorem State.renderCommit_errCode (s : State) : (s.renderCommit).errCode = s.errCode := rfl
@[simp] theorem State.renderCommit_irqStatus (s : State) : (s.renderCommit).irqStatus = s.irqStatus := rfl
@[simp] theorem State.renderCommit_irqEnable (s : State) : (s.renderCommit).irqEnable = s.irqEnable := rfl
@[simp] theorem State.renderCommit_dirty (s : State) : (s.renderCommit).dirty = 0#5 := rfl
@[simp] theorem State.renderCommit_fs (s : State) : (s.renderCommit).fs = s.fs := rfl
@[simp] theorem State.renderCommit_blockSize (s : State) : (s.renderCommit).blockSize = s.blockSize := rfl
@[simp] theorem State.renderCommit_channels (s : State) : (s.renderCommit).channels = s.channels := rfl
@[simp] theorem State.renderCommit_prepared (s : State) : (s.renderCommit).prepared = s.prepared := rfl
@[simp] theorem State.renderCommit_noteFreq (s : State) : (s.renderCommit).noteFreq = s.noteFreq := rfl
@[simp] theorem State.renderCommit_noteVel (s : State) : (s.renderCommit).noteVel = s.noteVel := rfl
@[simp] theorem State.renderCommit_active (s : State) : (s.renderCommit).active = s.active := rfl
@[simp] theorem State.renderCommit_shadow (s : State) : (s.renderCommit).shadow = s.shadow := rfl
@[simp] theorem State.renderCommit_live (s : State) : (s.renderCommit).live = committed s.dirty s.shadow s.live := rfl
@[simp] theorem State.renderCommit_egs (s : State) : (s.renderCommit).egs = s.egs := rfl
@[simp] theorem State.renderCommit_osc (s : State) : (s.renderCommit).osc = s.osc := rfl
@[simp] theorem State.renderCommit_lastSample (s : State) : (s.renderCommit).lastSample = s.lastSample := rfl
@[simp] theorem State.renderCommit_lastCutoff (s : State) : (s.renderCommit).lastCutoff = s.lastCutoff := rfl
@[simp] theorem State.renderCommit_sampleCnt (s : State) : (s.renderCommit).sampleCnt = s.sampleCnt := rfl
@[simp] theorem State.renderCommit_outbuf (s : State) : (s.renderCommit).outbuf = s.outbuf := rfl
@[simp] theorem State.renderCommit_epoch (s : State) : (s.renderCommit).epoch = s.epoch := rfl
@[simp] theorem State.renderCommit_resetPin (s : State) : (s.renderCommit).resetPin = s.resetPin := rfl
@[simp] theorem State.renderCommit_host (s : State) : (s.renderCommit).host = s.host := rfl
@[simp] theorem State.renderCommit_sched (s : State) : (s.renderCommit).sched = s.sched := rfl
@[simp] theorem State.renderCommit_rdata (s : State) : (s.renderCommit).rdata = s.rdata := rfl
@[simp] theorem State.renderCommit_hostFailed (s : State) : (s.renderCommit).hostFailed = s.hostFailed := rfl

/-! ## renderSample (44_commands.md R241) -/

@[simp] theorem State.renderSample_inst (s : State) : (s.renderSample).inst = s.inst := rfl
@[simp] theorem State.renderSample_arg0 (s : State) : (s.renderSample).arg0 = s.arg0 := rfl
@[simp] theorem State.renderSample_arg1 (s : State) : (s.renderSample).arg1 = s.arg1 := rfl
@[simp] theorem State.renderSample_arg2 (s : State) : (s.renderSample).arg2 = s.arg2 := rfl
@[simp] theorem State.renderSample_busy (s : State) : (s.renderSample).busy = s.busy := rfl
@[simp] theorem State.renderSample_abortReq (s : State) : (s.renderSample).abortReq = s.abortReq := rfl
@[simp] theorem State.renderSample_curCmd (s : State) : (s.renderSample).curCmd = s.curCmd := rfl
@[simp] theorem State.renderSample_larg0 (s : State) : (s.renderSample).larg0 = s.larg0 := rfl
@[simp] theorem State.renderSample_larg1 (s : State) : (s.renderSample).larg1 = s.larg1 := rfl
@[simp] theorem State.renderSample_larg2 (s : State) : (s.renderSample).larg2 = s.larg2 := rfl
@[simp] theorem State.renderSample_rbPhase (s : State) : (s.renderSample).rbPhase = if s.rbI + 1#32 = s.numSamples then .finish else .sample := rfl
@[simp] theorem State.renderSample_rbI (s : State) : (s.renderSample).rbI = s.rbI + 1#32 := rfl
@[simp] theorem State.renderSample_errCode (s : State) : (s.renderSample).errCode = s.errCode := rfl
@[simp] theorem State.renderSample_irqStatus (s : State) : (s.renderSample).irqStatus = if clips s.sampleSum.2 then s.irqStatus ||| Flag.clip.mask else s.irqStatus := rfl
@[simp] theorem State.renderSample_irqEnable (s : State) : (s.renderSample).irqEnable = s.irqEnable := rfl
@[simp] theorem State.renderSample_dirty (s : State) : (s.renderSample).dirty = s.dirty := rfl
@[simp] theorem State.renderSample_fs (s : State) : (s.renderSample).fs = s.fs := rfl
@[simp] theorem State.renderSample_blockSize (s : State) : (s.renderSample).blockSize = s.blockSize := rfl
@[simp] theorem State.renderSample_channels (s : State) : (s.renderSample).channels = s.channels := rfl
@[simp] theorem State.renderSample_prepared (s : State) : (s.renderSample).prepared = s.prepared := rfl
@[simp] theorem State.renderSample_noteFreq (s : State) : (s.renderSample).noteFreq = s.noteFreq := rfl
@[simp] theorem State.renderSample_noteVel (s : State) : (s.renderSample).noteVel = s.noteVel := rfl
@[simp] theorem State.renderSample_active (s : State) : (s.renderSample).active = s.active := rfl
@[simp] theorem State.renderSample_shadow (s : State) : (s.renderSample).shadow = s.shadow := rfl
@[simp] theorem State.renderSample_live (s : State) : (s.renderSample).live = s.live := rfl
@[simp] theorem State.renderSample_egs (s : State) : (s.renderSample).egs = s.tickedEgs := rfl
@[simp] theorem State.renderSample_osc (s : State) : (s.renderSample).osc = s.sampleSum.1 := rfl
@[simp] theorem State.renderSample_lastSample (s : State) : (s.renderSample).lastSample = s32 (sat32 s.sampleSum.2) := rfl
@[simp] theorem State.renderSample_lastCutoff (s : State) : (s.renderSample).lastCutoff = mod32 s.sampleCutoff := rfl
@[simp] theorem State.renderSample_sampleCnt (s : State) : (s.renderSample).sampleCnt = s.sampleCnt + 1#32 := rfl
@[simp] theorem State.renderSample_outbuf (s : State) : (s.renderSample).outbuf = accumulateOut s.inst s.epoch s.sampleIndex (sat32 s.sampleSum.2) (List.range s.channels.toNat) s.outbuf := rfl
@[simp] theorem State.renderSample_epoch (s : State) : (s.renderSample).epoch = s.epoch := rfl
@[simp] theorem State.renderSample_resetPin (s : State) : (s.renderSample).resetPin = s.resetPin := rfl
@[simp] theorem State.renderSample_host (s : State) : (s.renderSample).host = s.host := rfl
@[simp] theorem State.renderSample_sched (s : State) : (s.renderSample).sched = s.sched := rfl
@[simp] theorem State.renderSample_rdata (s : State) : (s.renderSample).rdata = s.rdata := rfl
@[simp] theorem State.renderSample_hostFailed (s : State) : (s.renderSample).hostFailed = s.hostFailed := rfl

/-! ## renderFinish (44_commands.md R241) -/

@[simp] theorem State.renderFinish_inst (s : State) : (s.renderFinish).inst = s.inst := rfl
@[simp] theorem State.renderFinish_arg0 (s : State) : (s.renderFinish).arg0 = s.arg0 := rfl
@[simp] theorem State.renderFinish_arg1 (s : State) : (s.renderFinish).arg1 = s.arg1 := rfl
@[simp] theorem State.renderFinish_arg2 (s : State) : (s.renderFinish).arg2 = s.arg2 := rfl
@[simp] theorem State.renderFinish_busy (s : State) : (s.renderFinish).busy = false := rfl
@[simp] theorem State.renderFinish_abortReq (s : State) : (s.renderFinish).abortReq = s.abortReq := rfl
@[simp] theorem State.renderFinish_curCmd (s : State) : (s.renderFinish).curCmd = s.curCmd := rfl
@[simp] theorem State.renderFinish_larg0 (s : State) : (s.renderFinish).larg0 = s.larg0 := rfl
@[simp] theorem State.renderFinish_larg1 (s : State) : (s.renderFinish).larg1 = s.larg1 := rfl
@[simp] theorem State.renderFinish_larg2 (s : State) : (s.renderFinish).larg2 = s.larg2 := rfl
@[simp] theorem State.renderFinish_rbPhase (s : State) : (s.renderFinish).rbPhase = s.rbPhase := rfl
@[simp] theorem State.renderFinish_rbI (s : State) : (s.renderFinish).rbI = s.rbI := rfl
@[simp] theorem State.renderFinish_errCode (s : State) : (s.renderFinish).errCode = s.errCode := rfl
@[simp] theorem State.renderFinish_irqStatus (s : State) : (s.renderFinish).irqStatus = (if s.voiceFinished then s.irqStatus ||| Flag.voiceDone.mask else s.irqStatus) ||| Flag.cmdDone.mask := rfl
@[simp] theorem State.renderFinish_irqEnable (s : State) : (s.renderFinish).irqEnable = s.irqEnable := rfl
@[simp] theorem State.renderFinish_dirty (s : State) : (s.renderFinish).dirty = s.dirty := rfl
@[simp] theorem State.renderFinish_fs (s : State) : (s.renderFinish).fs = s.fs := rfl
@[simp] theorem State.renderFinish_blockSize (s : State) : (s.renderFinish).blockSize = s.blockSize := rfl
@[simp] theorem State.renderFinish_channels (s : State) : (s.renderFinish).channels = s.channels := rfl
@[simp] theorem State.renderFinish_prepared (s : State) : (s.renderFinish).prepared = s.prepared := rfl
@[simp] theorem State.renderFinish_noteFreq (s : State) : (s.renderFinish).noteFreq = s.noteFreq := rfl
@[simp] theorem State.renderFinish_noteVel (s : State) : (s.renderFinish).noteVel = s.noteVel := rfl
@[simp] theorem State.renderFinish_active (s : State) : (s.renderFinish).active = if s.voiceFinished then false else s.active := rfl
@[simp] theorem State.renderFinish_shadow (s : State) : (s.renderFinish).shadow = s.shadow := rfl
@[simp] theorem State.renderFinish_live (s : State) : (s.renderFinish).live = s.live := rfl
@[simp] theorem State.renderFinish_egs (s : State) : (s.renderFinish).egs = s.egs := rfl
@[simp] theorem State.renderFinish_osc (s : State) : (s.renderFinish).osc = s.osc := rfl
@[simp] theorem State.renderFinish_lastSample (s : State) : (s.renderFinish).lastSample = s.lastSample := rfl
@[simp] theorem State.renderFinish_lastCutoff (s : State) : (s.renderFinish).lastCutoff = s.lastCutoff := rfl
@[simp] theorem State.renderFinish_sampleCnt (s : State) : (s.renderFinish).sampleCnt = s.sampleCnt := rfl
@[simp] theorem State.renderFinish_outbuf (s : State) : (s.renderFinish).outbuf = s.outbuf := rfl
@[simp] theorem State.renderFinish_epoch (s : State) : (s.renderFinish).epoch = s.epoch := rfl
@[simp] theorem State.renderFinish_resetPin (s : State) : (s.renderFinish).resetPin = s.resetPin := rfl
@[simp] theorem State.renderFinish_host (s : State) : (s.renderFinish).host = s.host := rfl
@[simp] theorem State.renderFinish_sched (s : State) : (s.renderFinish).sched = s.sched := rfl
@[simp] theorem State.renderFinish_rdata (s : State) : (s.renderFinish).rdata = s.rdata := rfl
@[simp] theorem State.renderFinish_hostFailed (s : State) : (s.renderFinish).hostFailed = s.hostFailed := rfl

/-! ## hardReset (70_reset_and_hazards.md R300) -/

@[simp] theorem State.hardReset_inst (s : State) : (s.hardReset).inst = s.inst := rfl
@[simp] theorem State.hardReset_arg0 (s : State) : (s.hardReset).arg0 = (State.resetOf s.inst).arg0 := rfl
@[simp] theorem State.hardReset_arg1 (s : State) : (s.hardReset).arg1 = (State.resetOf s.inst).arg1 := rfl
@[simp] theorem State.hardReset_arg2 (s : State) : (s.hardReset).arg2 = (State.resetOf s.inst).arg2 := rfl
@[simp] theorem State.hardReset_busy (s : State) : (s.hardReset).busy = (State.resetOf s.inst).busy := rfl
@[simp] theorem State.hardReset_abortReq (s : State) : (s.hardReset).abortReq = (State.resetOf s.inst).abortReq := rfl
@[simp] theorem State.hardReset_curCmd (s : State) : (s.hardReset).curCmd = (State.resetOf s.inst).curCmd := rfl
@[simp] theorem State.hardReset_larg0 (s : State) : (s.hardReset).larg0 = (State.resetOf s.inst).larg0 := rfl
@[simp] theorem State.hardReset_larg1 (s : State) : (s.hardReset).larg1 = (State.resetOf s.inst).larg1 := rfl
@[simp] theorem State.hardReset_larg2 (s : State) : (s.hardReset).larg2 = (State.resetOf s.inst).larg2 := rfl
@[simp] theorem State.hardReset_rbPhase (s : State) : (s.hardReset).rbPhase = (State.resetOf s.inst).rbPhase := rfl
@[simp] theorem State.hardReset_rbI (s : State) : (s.hardReset).rbI = (State.resetOf s.inst).rbI := rfl
@[simp] theorem State.hardReset_errCode (s : State) : (s.hardReset).errCode = (State.resetOf s.inst).errCode := rfl
@[simp] theorem State.hardReset_irqStatus (s : State) : (s.hardReset).irqStatus = (State.resetOf s.inst).irqStatus := rfl
@[simp] theorem State.hardReset_irqEnable (s : State) : (s.hardReset).irqEnable = (State.resetOf s.inst).irqEnable := rfl
@[simp] theorem State.hardReset_dirty (s : State) : (s.hardReset).dirty = (State.resetOf s.inst).dirty := rfl
@[simp] theorem State.hardReset_fs (s : State) : (s.hardReset).fs = (State.resetOf s.inst).fs := rfl
@[simp] theorem State.hardReset_blockSize (s : State) : (s.hardReset).blockSize = (State.resetOf s.inst).blockSize := rfl
@[simp] theorem State.hardReset_channels (s : State) : (s.hardReset).channels = (State.resetOf s.inst).channels := rfl
@[simp] theorem State.hardReset_prepared (s : State) : (s.hardReset).prepared = (State.resetOf s.inst).prepared := rfl
@[simp] theorem State.hardReset_noteFreq (s : State) : (s.hardReset).noteFreq = (State.resetOf s.inst).noteFreq := rfl
@[simp] theorem State.hardReset_noteVel (s : State) : (s.hardReset).noteVel = (State.resetOf s.inst).noteVel := rfl
@[simp] theorem State.hardReset_active (s : State) : (s.hardReset).active = (State.resetOf s.inst).active := rfl
@[simp] theorem State.hardReset_shadow (s : State) : (s.hardReset).shadow = (State.resetOf s.inst).shadow := rfl
@[simp] theorem State.hardReset_live (s : State) : (s.hardReset).live = (State.resetOf s.inst).live := rfl
@[simp] theorem State.hardReset_egs (s : State) : (s.hardReset).egs = (State.resetOf s.inst).egs := rfl
@[simp] theorem State.hardReset_osc (s : State) : (s.hardReset).osc = (State.resetOf s.inst).osc := rfl
@[simp] theorem State.hardReset_lastSample (s : State) : (s.hardReset).lastSample = (State.resetOf s.inst).lastSample := rfl
@[simp] theorem State.hardReset_lastCutoff (s : State) : (s.hardReset).lastCutoff = (State.resetOf s.inst).lastCutoff := rfl
@[simp] theorem State.hardReset_sampleCnt (s : State) : (s.hardReset).sampleCnt = (State.resetOf s.inst).sampleCnt := rfl
@[simp] theorem State.hardReset_outbuf (s : State) : (s.hardReset).outbuf = (State.resetOf s.inst).outbuf := rfl
@[simp] theorem State.hardReset_epoch (s : State) : (s.hardReset).epoch = s.epoch + 1 := rfl
@[simp] theorem State.hardReset_resetPin (s : State) : (s.hardReset).resetPin = true := rfl
@[simp] theorem State.hardReset_host (s : State) : (s.hardReset).host = s.host := rfl
@[simp] theorem State.hardReset_sched (s : State) : (s.hardReset).sched = s.sched := rfl
@[simp] theorem State.hardReset_rdata (s : State) : (s.hardReset).rdata = s.rdata := rfl
@[simp] theorem State.hardReset_hostFailed (s : State) : (s.hardReset).hostFailed = s.hostFailed := rfl

/-! ## retire (10_state.md R20) -/

@[simp] theorem State.retire_inst (s t : State) : (s.retire t).inst = t.inst := rfl
@[simp] theorem State.retire_arg0 (s t : State) : (s.retire t).arg0 = t.arg0 := rfl
@[simp] theorem State.retire_arg1 (s t : State) : (s.retire t).arg1 = t.arg1 := rfl
@[simp] theorem State.retire_arg2 (s t : State) : (s.retire t).arg2 = t.arg2 := rfl
@[simp] theorem State.retire_busy (s t : State) : (s.retire t).busy = t.busy := rfl
@[simp] theorem State.retire_abortReq (s t : State) : (s.retire t).abortReq = t.abortReq := rfl
@[simp] theorem State.retire_curCmd (s t : State) : (s.retire t).curCmd = t.curCmd := rfl
@[simp] theorem State.retire_larg0 (s t : State) : (s.retire t).larg0 = t.larg0 := rfl
@[simp] theorem State.retire_larg1 (s t : State) : (s.retire t).larg1 = t.larg1 := rfl
@[simp] theorem State.retire_larg2 (s t : State) : (s.retire t).larg2 = t.larg2 := rfl
@[simp] theorem State.retire_rbPhase (s t : State) : (s.retire t).rbPhase = t.rbPhase := rfl
@[simp] theorem State.retire_rbI (s t : State) : (s.retire t).rbI = t.rbI := rfl
@[simp] theorem State.retire_errCode (s t : State) : (s.retire t).errCode = t.errCode := rfl
@[simp] theorem State.retire_irqStatus (s t : State) : (s.retire t).irqStatus = t.irqStatus := rfl
@[simp] theorem State.retire_irqEnable (s t : State) : (s.retire t).irqEnable = t.irqEnable := rfl
@[simp] theorem State.retire_dirty (s t : State) : (s.retire t).dirty = t.dirty := rfl
@[simp] theorem State.retire_fs (s t : State) : (s.retire t).fs = t.fs := rfl
@[simp] theorem State.retire_blockSize (s t : State) : (s.retire t).blockSize = t.blockSize := rfl
@[simp] theorem State.retire_channels (s t : State) : (s.retire t).channels = t.channels := rfl
@[simp] theorem State.retire_prepared (s t : State) : (s.retire t).prepared = t.prepared := rfl
@[simp] theorem State.retire_noteFreq (s t : State) : (s.retire t).noteFreq = t.noteFreq := rfl
@[simp] theorem State.retire_noteVel (s t : State) : (s.retire t).noteVel = t.noteVel := rfl
@[simp] theorem State.retire_active (s t : State) : (s.retire t).active = t.active := rfl
@[simp] theorem State.retire_shadow (s t : State) : (s.retire t).shadow = t.shadow := rfl
@[simp] theorem State.retire_live (s t : State) : (s.retire t).live = t.live := rfl
@[simp] theorem State.retire_egs (s t : State) : (s.retire t).egs = t.egs := rfl
@[simp] theorem State.retire_osc (s t : State) : (s.retire t).osc = t.osc := rfl
@[simp] theorem State.retire_lastSample (s t : State) : (s.retire t).lastSample = t.lastSample := rfl
@[simp] theorem State.retire_lastCutoff (s t : State) : (s.retire t).lastCutoff = t.lastCutoff := rfl
@[simp] theorem State.retire_sampleCnt (s t : State) : (s.retire t).sampleCnt = t.sampleCnt := rfl
@[simp] theorem State.retire_outbuf (s t : State) : (s.retire t).outbuf = t.outbuf := rfl
@[simp] theorem State.retire_epoch (s t : State) : (s.retire t).epoch = t.epoch := rfl
@[simp] theorem State.retire_resetPin (s t : State) : (s.retire t).resetPin = t.resetPin := rfl
@[simp] theorem State.retire_host (s t : State) : (s.retire t).host = if s.turn = .host then hostRest t s.host else s.host := rfl
@[simp] theorem State.retire_sched (s t : State) : (s.retire t).sched = s.sched.tail := rfl
@[simp] theorem State.retire_rdata (s t : State) : (s.retire t).rdata = t.rdata := rfl
@[simp] theorem State.retire_hostFailed (s t : State) : (s.retire t).hostFailed = t.hostFailed := rfl

/-! ## placeCommand (30_encoding.md R96) -/

@[simp] theorem State.placeCommand_inst (s : State) (w : Word) : (s.placeCommand w).inst = s.inst := rfl
@[simp] theorem State.placeCommand_arg0 (s : State) (w : Word) : (s.placeCommand w).arg0 = s.arg0 := rfl
@[simp] theorem State.placeCommand_arg1 (s : State) (w : Word) : (s.placeCommand w).arg1 = s.arg1 := rfl
@[simp] theorem State.placeCommand_arg2 (s : State) (w : Word) : (s.placeCommand w).arg2 = s.arg2 := rfl
@[simp] theorem State.placeCommand_busy (s : State) (w : Word) : (s.placeCommand w).busy = s.busy := rfl
@[simp] theorem State.placeCommand_abortReq (s : State) (w : Word) : (s.placeCommand w).abortReq = s.abortReq := rfl
@[simp] theorem State.placeCommand_curCmd (s : State) (w : Word) : (s.placeCommand w).curCmd = s.curCmd := rfl
@[simp] theorem State.placeCommand_larg0 (s : State) (w : Word) : (s.placeCommand w).larg0 = s.larg0 := rfl
@[simp] theorem State.placeCommand_larg1 (s : State) (w : Word) : (s.placeCommand w).larg1 = s.larg1 := rfl
@[simp] theorem State.placeCommand_larg2 (s : State) (w : Word) : (s.placeCommand w).larg2 = s.larg2 := rfl
@[simp] theorem State.placeCommand_rbPhase (s : State) (w : Word) : (s.placeCommand w).rbPhase = s.rbPhase := rfl
@[simp] theorem State.placeCommand_rbI (s : State) (w : Word) : (s.placeCommand w).rbI = s.rbI := rfl
@[simp] theorem State.placeCommand_errCode (s : State) (w : Word) : (s.placeCommand w).errCode = s.errCode := rfl
@[simp] theorem State.placeCommand_irqStatus (s : State) (w : Word) : (s.placeCommand w).irqStatus = s.irqStatus := rfl
@[simp] theorem State.placeCommand_irqEnable (s : State) (w : Word) : (s.placeCommand w).irqEnable = s.irqEnable := rfl
@[simp] theorem State.placeCommand_dirty (s : State) (w : Word) : (s.placeCommand w).dirty = s.dirty := rfl
@[simp] theorem State.placeCommand_fs (s : State) (w : Word) : (s.placeCommand w).fs = s.fs := rfl
@[simp] theorem State.placeCommand_blockSize (s : State) (w : Word) : (s.placeCommand w).blockSize = s.blockSize := rfl
@[simp] theorem State.placeCommand_channels (s : State) (w : Word) : (s.placeCommand w).channels = s.channels := rfl
@[simp] theorem State.placeCommand_prepared (s : State) (w : Word) : (s.placeCommand w).prepared = s.prepared := rfl
@[simp] theorem State.placeCommand_noteFreq (s : State) (w : Word) : (s.placeCommand w).noteFreq = s.noteFreq := rfl
@[simp] theorem State.placeCommand_noteVel (s : State) (w : Word) : (s.placeCommand w).noteVel = s.noteVel := rfl
@[simp] theorem State.placeCommand_active (s : State) (w : Word) : (s.placeCommand w).active = s.active := rfl
@[simp] theorem State.placeCommand_shadow (s : State) (w : Word) : (s.placeCommand w).shadow = s.shadow := rfl
@[simp] theorem State.placeCommand_live (s : State) (w : Word) : (s.placeCommand w).live = s.live := rfl
@[simp] theorem State.placeCommand_egs (s : State) (w : Word) : (s.placeCommand w).egs = s.egs := rfl
@[simp] theorem State.placeCommand_osc (s : State) (w : Word) : (s.placeCommand w).osc = s.osc := rfl
@[simp] theorem State.placeCommand_lastSample (s : State) (w : Word) : (s.placeCommand w).lastSample = s.lastSample := rfl
@[simp] theorem State.placeCommand_lastCutoff (s : State) (w : Word) : (s.placeCommand w).lastCutoff = s.lastCutoff := rfl
@[simp] theorem State.placeCommand_sampleCnt (s : State) (w : Word) : (s.placeCommand w).sampleCnt = s.sampleCnt := rfl
@[simp] theorem State.placeCommand_outbuf (s : State) (w : Word) : (s.placeCommand w).outbuf = s.outbuf := rfl
@[simp] theorem State.placeCommand_epoch (s : State) (w : Word) : (s.placeCommand w).epoch = s.epoch := rfl
@[simp] theorem State.placeCommand_resetPin (s : State) (w : Word) : (s.placeCommand w).resetPin = false := rfl
@[simp] theorem State.placeCommand_host (s : State) (w : Word) : (s.placeCommand w).host = .write cmdAddr 4 w :: s.host := rfl
@[simp] theorem State.placeCommand_sched (s : State) (w : Word) : (s.placeCommand w).sched = .host :: s.sched := rfl
@[simp] theorem State.placeCommand_rdata (s : State) (w : Word) : (s.placeCommand w).rdata = s.rdata := rfl
@[simp] theorem State.placeCommand_hostFailed (s : State) (w : Word) : (s.placeCommand w).hostFailed = s.hostFailed := rfl

/-! ## load (30_encoding.md R98) -/

@[simp] theorem State.load_inst (s : State) (p : List HostOp) : (s.load p).inst = s.inst := rfl
@[simp] theorem State.load_arg0 (s : State) (p : List HostOp) : (s.load p).arg0 = s.arg0 := rfl
@[simp] theorem State.load_arg1 (s : State) (p : List HostOp) : (s.load p).arg1 = s.arg1 := rfl
@[simp] theorem State.load_arg2 (s : State) (p : List HostOp) : (s.load p).arg2 = s.arg2 := rfl
@[simp] theorem State.load_busy (s : State) (p : List HostOp) : (s.load p).busy = s.busy := rfl
@[simp] theorem State.load_abortReq (s : State) (p : List HostOp) : (s.load p).abortReq = s.abortReq := rfl
@[simp] theorem State.load_curCmd (s : State) (p : List HostOp) : (s.load p).curCmd = s.curCmd := rfl
@[simp] theorem State.load_larg0 (s : State) (p : List HostOp) : (s.load p).larg0 = s.larg0 := rfl
@[simp] theorem State.load_larg1 (s : State) (p : List HostOp) : (s.load p).larg1 = s.larg1 := rfl
@[simp] theorem State.load_larg2 (s : State) (p : List HostOp) : (s.load p).larg2 = s.larg2 := rfl
@[simp] theorem State.load_rbPhase (s : State) (p : List HostOp) : (s.load p).rbPhase = s.rbPhase := rfl
@[simp] theorem State.load_rbI (s : State) (p : List HostOp) : (s.load p).rbI = s.rbI := rfl
@[simp] theorem State.load_errCode (s : State) (p : List HostOp) : (s.load p).errCode = s.errCode := rfl
@[simp] theorem State.load_irqStatus (s : State) (p : List HostOp) : (s.load p).irqStatus = s.irqStatus := rfl
@[simp] theorem State.load_irqEnable (s : State) (p : List HostOp) : (s.load p).irqEnable = s.irqEnable := rfl
@[simp] theorem State.load_dirty (s : State) (p : List HostOp) : (s.load p).dirty = s.dirty := rfl
@[simp] theorem State.load_fs (s : State) (p : List HostOp) : (s.load p).fs = s.fs := rfl
@[simp] theorem State.load_blockSize (s : State) (p : List HostOp) : (s.load p).blockSize = s.blockSize := rfl
@[simp] theorem State.load_channels (s : State) (p : List HostOp) : (s.load p).channels = s.channels := rfl
@[simp] theorem State.load_prepared (s : State) (p : List HostOp) : (s.load p).prepared = s.prepared := rfl
@[simp] theorem State.load_noteFreq (s : State) (p : List HostOp) : (s.load p).noteFreq = s.noteFreq := rfl
@[simp] theorem State.load_noteVel (s : State) (p : List HostOp) : (s.load p).noteVel = s.noteVel := rfl
@[simp] theorem State.load_active (s : State) (p : List HostOp) : (s.load p).active = s.active := rfl
@[simp] theorem State.load_shadow (s : State) (p : List HostOp) : (s.load p).shadow = s.shadow := rfl
@[simp] theorem State.load_live (s : State) (p : List HostOp) : (s.load p).live = s.live := rfl
@[simp] theorem State.load_egs (s : State) (p : List HostOp) : (s.load p).egs = s.egs := rfl
@[simp] theorem State.load_osc (s : State) (p : List HostOp) : (s.load p).osc = s.osc := rfl
@[simp] theorem State.load_lastSample (s : State) (p : List HostOp) : (s.load p).lastSample = s.lastSample := rfl
@[simp] theorem State.load_lastCutoff (s : State) (p : List HostOp) : (s.load p).lastCutoff = s.lastCutoff := rfl
@[simp] theorem State.load_sampleCnt (s : State) (p : List HostOp) : (s.load p).sampleCnt = s.sampleCnt := rfl
@[simp] theorem State.load_outbuf (s : State) (p : List HostOp) : (s.load p).outbuf = s.outbuf := rfl
@[simp] theorem State.load_epoch (s : State) (p : List HostOp) : (s.load p).epoch = s.epoch := rfl
@[simp] theorem State.load_resetPin (s : State) (p : List HostOp) : (s.load p).resetPin = s.resetPin := rfl
@[simp] theorem State.load_host (s : State) (p : List HostOp) : (s.load p).host = p := rfl
@[simp] theorem State.load_sched (s : State) (p : List HostOp) : (s.load p).sched = s.sched := rfl
@[simp] theorem State.load_rdata (s : State) (p : List HostOp) : (s.load p).rdata = s.rdata := rfl
@[simp] theorem State.load_hostFailed (s : State) (p : List HostOp) : (s.load p).hostFailed = s.hostFailed := rfl

end Sys2Proof.Machine
end

