-- ==== Sys2Proof/Laws/Bus.lean ====
section
/-! SUPPORT. The register map and the bus: what an access can do. -/

namespace Sys2Proof.Machine

/-- The register an address of an array names. -/
theorem arrayIndex_eq_some (base n a : Nat) (i : Fin n) :
    arrayIndex base n a = some i ↔ base ≤ a ∧ a % 4 = 0 ∧ (a - base) / 4 = i.val := by
  unfold arrayIndex
  constructor
  · intro h
    split at h
    · rename_i hc
      cases h
      exact ⟨hc.1, hc.2.1, rfl⟩
    · cases h
  · rintro ⟨h1, h2, h3⟩
    have hc : base ≤ a ∧ a % 4 = 0 ∧ (a - base) / 4 < n := ⟨h1, h2, h3 ▸ i.isLt⟩
    rw [dif_pos hc]
    simp only [Option.some.injEq]
    exact Fin.ext h3

/-- Below 0x0400 and in the table area an address names no word of OUTBUF; above, it names the one stored there
(20_memory.md R65, R80). -/
theorem regAt_out (c : Instance) (a ch i : Nat) (h : regAt c a = some (.out ch i)) :
    a = outAddr c ch i ∧ i < c.blockMax ∧ ch < c.chMax := by
  unfold regAt at h
  split at h
  · exfalso
    have hrows : mapRows.all (fun p => match p.2 with | .out _ _ => false | _ => true) = true := by decide
    have hm : ∀ p ∈ mapRows, ∀ x y, p.2 ≠ Reg.out x y := by
      intro p hp x y he
      have := List.all_eq_true.mp hrows p hp
      simp [he] at this
    obtain ⟨p, hp, hq⟩ : ∃ p ∈ mapRows, p.2 = Reg.out ch i := by
      have : ∀ l : List (Nat × Reg), l.lookup a = some (Reg.out ch i) → ∃ p ∈ l, p.2 = Reg.out ch i := by
        intro l
        induction l with
        | nil => simp
        | cons p l ih =>
          intro hl
          rw [List.lookup_cons] at hl
          split at hl
          · exact ⟨p, List.mem_cons_self, by simpa using hl⟩
          · obtain ⟨q, hq, he⟩ := ih hl
            exact ⟨q, List.mem_cons_of_mem _ hq, he⟩
      exact this _ h
    exact hm p hp ch i hq
  · repeat (split at h; · simp [Option.map_eq_some_iff] at h)
    simp only [Option.map_eq_some_iff, arrayIndex_eq_some, Reg.out.injEq] at h
    obtain ⟨k, ⟨h1, h2, h3⟩, hch, hi⟩ := h
    have hk := k.isLt
    have hpos : 0 < c.blockMax := by
      rcases Nat.eq_zero_or_pos c.blockMax with h0 | h0
      · have : c.chMax * c.blockMax = 0 := by simp [h0]
        omega
      · exact h0
    subst hch hi
    refine ⟨?_, Nat.mod_lt _ hpos, (Nat.div_lt_iff_lt_mul hpos).mpr hk⟩
    unfold outAddr
    have := Nat.div_add_mod k.val c.blockMax
    rw [Nat.mul_comm] at this
    omega

/-- From 0x8000 up an address names a word of OUTBUF or nothing (20_memory.md R65, R80). -/
theorem regAt_above_tables (c : Instance) (a : Nat) (h : 0x8000 ≤ a) :
    regAt c a =
      (arrayIndex 0x8000 (c.chMax * c.blockMax) a).map fun i => .out (i.val / c.blockMax) (i.val % c.blockMax) := by
  unfold regAt
  repeat rw [if_neg (by omega)]

/-- The word at OUT[c][i]'s address is OUT[c][i] (20_memory.md R80). -/
theorem regAt_outAddr (c : Instance) (ch i : Nat) (hi : i < c.blockMax) (hch : ch < c.chMax) :
    regAt c (outAddr c ch i) = some (.out ch i) := by
  have hlt : ch * c.blockMax + i < c.chMax * c.blockMax := by
    have := Nat.mul_le_mul_right c.blockMax (show ch + 1 ≤ c.chMax by omega)
    rw [Nat.add_mul, Nat.one_mul] at this
    omega
  have hx : arrayIndex 0x8000 (c.chMax * c.blockMax) (outAddr c ch i) = some ⟨ch * c.blockMax + i, hlt⟩ := by
    rw [arrayIndex_eq_some]
    unfold outAddr
    refine ⟨by omega, by omega, ?_⟩
    simp only
    omega
  have hpos : 0 < c.blockMax := by omega
  rw [regAt_above_tables c _ (by unfold outAddr; omega), hx]
  simp only [Option.map_some, Option.some.injEq, Reg.out.injEq]
  constructor
  · rw [Nat.mul_comm, Nat.mul_add_div hpos, Nat.div_eq_of_lt hi, Nat.add_zero]
  · rw [Nat.mul_comm, Nat.mul_add_mod, Nat.mod_eq_of_lt hi]

/-- The parameter registers that a write can change: what it stores is a value the write rule can store
(10_state.md R35, R37, R39). -/
theorem clampLevel_le (d : Word) : (clampLevel d).toNat ≤ 65536 := by
  unfold clampLevel
  simp only [BitVec.toNat_ofNat, Config.levelOne]
  omega

/-- The same, for FLOOR and PEAK. -/
theorem clampFreq_pos (d : Word) : 1 ≤ (clampFreq d).toNat := by
  unfold clampFreq mod32
  have := d.isLt
  simp only [BitVec.toNat_ofNat]
  omega

/-- The same, for RESON. -/
theorem clampReson_bounds (d : Word) : 1 ≤ (clampReson d).toNat ∧ (clampReson d).toNat ≤ 16777215 := by
  unfold clampReson mod32
  have := d.isLt
  simp only [BitVec.toNat_ofNat, Config.resonMax]
  omega

/-- One parameter register of an envelope generator written keeps the set in range. -/
theorem ParamSet.setEg_ok (p : ParamSet) (e : EgId) (f : EgParam) (d : Word) (h : p.ok) :
    (p.setEg e ((p.eg e).set f (clampLevel d))).ok := by
  have hc := clampLevel_le d
  cases e <;> cases f <;> simp_all [ParamSet.ok, ParamSet.setEg, ParamSet.eg, EgParams.set, EgParams.ok]

/-- Everything a legal write can change, and what stays true of it (20_memory.md R67). -/
theorem writeReg_eq (s : State) (r : Reg) (d : Word) :
    ∃ a0 a1 a2 er st en di sh ob,
      s.writeReg r d =
          { s with
            arg0 := a0
            arg1 := a1
            arg2 := a2
            errCode := er
            irqStatus := st
            irqEnable := en
            dirty := di
            shadow := sh
            outbuf := ob } ∧
        (s.shadow.ok → sh.ok) ∧ (ob = s.outbuf ∨ ∃ ch i, r = .out ch i ∧ ob = s.outbuf.putWord (outAddr s.inst ch i) d) := by
  cases r
  case arg i =>
    fin_cases i <;> exact ⟨_, _, _, _, _, _, _, _, _, rfl, id, .inl rfl⟩
  case egShadow e p => exact ⟨_, _, _, _, _, _, _, _, _, rfl, ParamSet.setEg_ok _ _ _ _, .inl rfl⟩
  case floor =>
    refine ⟨_, _, _, _, _, _, _, _, _, rfl, fun h => ?_, .inl rfl⟩
    obtain ⟨h1, h2, h3, -, h5, h6, h7, h8, h9⟩ := h
    exact ⟨h1, h2, h3, clampFreq_pos d, h5, h6, h7, h8, h9⟩
  case peak =>
    refine ⟨_, _, _, _, _, _, _, _, _, rfl, fun h => ?_, .inl rfl⟩
    obtain ⟨h1, h2, h3, h4, -, h6, h7, h8, h9⟩ := h
    exact ⟨h1, h2, h3, h4, clampFreq_pos d, h6, h7, h8, h9⟩
  case reson =>
    refine ⟨_, _, _, _, _, _, _, _, _, rfl, fun h => ?_, .inl rfl⟩
    obtain ⟨h1, h2, h3, h4, h5, -, -, h8, h9⟩ := h
    exact ⟨h1, h2, h3, h4, h5, (clampReson_bounds d).1, (clampReson_bounds d).2, h8, h9⟩
  case mix1 =>
    refine ⟨_, _, _, _, _, _, _, _, _, rfl, fun h => ?_, .inl rfl⟩
    obtain ⟨h1, h2, h3, h4, h5, h6, h7, -, h9⟩ := h
    exact ⟨h1, h2, h3, h4, h5, h6, h7, clampLevel_le d, h9⟩
  case mix2 =>
    refine ⟨_, _, _, _, _, _, _, _, _, rfl, fun h => ?_, .inl rfl⟩
    obtain ⟨h1, h2, h3, h4, h5, h6, h7, h8, -⟩ := h
    exact ⟨h1, h2, h3, h4, h5, h6, h7, h8, clampLevel_le d⟩
  case ratio =>
    exact ⟨_, _, _, _, _, _, _, _, _, rfl, fun h => h, .inl rfl⟩
  case out ch i => exact ⟨_, _, _, _, _, _, _, _, _, rfl, id, .inr ⟨ch, i, rfl, rfl⟩⟩
  all_goals exact ⟨_, _, _, _, _, _, _, _, _, rfl, id, .inl rfl⟩

/-- Everything a transaction of the HOST can change, the issue of a command apart (20_memory.md R63, R66, R67, R68;
70_reset_and_hazards.md R300). -/
theorem hostAccess_eq (s : State) (op : HostOp) :
    ∃ a0 a1 a2 er st en di sh ob rd hf,
      s.hostAccess op =
          { s with
            arg0 := a0
            arg1 := a1
            arg2 := a2
            errCode := er
            irqStatus := st
            irqEnable := en
            dirty := di
            shadow := sh
            outbuf := ob
            rdata := rd
            hostFailed := hf } ∧
        (s.shadow.ok → sh.ok) ∧ (Memory.wf s.outbuf → Memory.wf ob) ∧
        ∀ p ∈ ob, p ∈ s.outbuf ∨
          (0x8000 ≤ p.1 ∧ p.1 < 0x8000 + 4 * (s.inst.chMax * s.inst.blockMax)) := by
  have hread : ∀ (a : Addr) (n : Nat), ∃ st rd, s.hostRead a n = { s with irqStatus := st, rdata := rd } := by
    intro a n
    unfold State.hostRead
    split
    · exact ⟨_, _, rfl⟩
    · unfold State.busRead
      split <;> exact ⟨_, _, rfl⟩
  cases op with
  | write a n d =>
    unfold State.hostAccess
    simp only
    split
    · exact ⟨_, _, _, _, _, _, _, _, _, _, _, rfl, id, id, fun p hp => .inl hp⟩
    · unfold State.busWrite
      split
      · rename_i r hr
        obtain ⟨a0, a1, a2, er, st, en, di, sh, ob, he, hsh, hob⟩ := writeReg_eq s r d
        refine ⟨a0, a1, a2, er, st, en, di, sh, ob, _, _, he, hsh, ?_, ?_⟩
        · rcases hob with rfl | ⟨ch, i, -, rfl⟩
          · exact id
          · exact Memory.putWord_wf _ _ _
        · intro p hp
          rcases hob with rfl | ⟨ch, i, rfl, rfl⟩
          · exact .inl hp
          · rcases Memory.mem_putWord _ _ _ _ hp with hp | hp
            · right
              have ht : regAt s.inst a.toNat = some (.out ch i) := by
                unfold State.target at hr
                split at hr
                · exact hr
                · cases hr
              obtain ⟨-, hi, hch⟩ := regAt_out _ _ _ _ ht
              have hlt : ch * s.inst.blockMax + i < s.inst.chMax * s.inst.blockMax := by
                have := Nat.mul_le_mul_right s.inst.blockMax (show ch + 1 ≤ s.inst.chMax by omega)
                rw [Nat.add_mul, Nat.one_mul] at this
                omega
              unfold outAddr at hp
              omega
            · exact .inl hp
      · exact ⟨_, _, _, _, _, _, _, _, _, _, _, rfl, id, id, fun p hp => .inl hp⟩
  | read a n e =>
    obtain ⟨st, rd, h⟩ := hread a n
    cases e with
    | none =>
      simp only [State.hostAccess, h]
      exact ⟨_, _, _, _, _, _, _, _, _, _, _, rfl, id, id, fun p hp => .inl hp⟩
    | some v =>
      simp only [State.hostAccess, h]
      exact ⟨_, _, _, _, _, _, _, _, _, _, _, rfl, id, id, fun p hp => .inl hp⟩
  | poll a m v =>
    obtain ⟨st, rd, h⟩ := hread a 4
    simp only [State.hostAccess, h]
    exact ⟨_, _, _, _, _, _, _, _, _, _, _, rfl, id, id, fun p hp => .inl hp⟩

end Sys2Proof.Machine
end

