-- ==== Sys2Proof/Laws/Decode.lean ====
section
/-! SUPPORT. Command words: their fields, their bytes, and what the decoder reads. -/

namespace Sys2Proof

open Sys2Proof.Machine

/-- A word cut into bytes and put together again. -/
theorem wordOfBytes_bytes (w : Word) :
    wordOfBytes (byteOfWord w 0) (byteOfWord w 1) (byteOfWord w 2) (byteOfWord w 3) = w :=
  wordOfBytes_byteOfWord w

/-- Bytes put together into a word and cut again. -/
theorem bytesOfWord_wordOfBytes (b0 b1 b2 b3 : Byte) : bytesOfWord (wordOfBytes b0 b1 b2 b3) = [b0, b1, b2, b3] := by
  unfold bytesOfWord byteOfWord wordOfBytes
  simp only [List.cons.injEq, and_true]
  refine ⟨?_, ?_, ?_, ?_⟩ <;>
  · ext i hi
    simp only [BitVec.getElem_extractLsb', BitVec.getLsbD_append]
    grind

/-- A word is its two fields (30_encoding.md R90). -/
theorem append_splitWord (w : Word) : (splitWord w).rsvd ++ (splitWord w).opcode = w := by
  unfold splitWord
  ext i hi
  simp only [BitVec.getElem_append, BitVec.getElem_extractLsb']
  split
  all_goals (rw [← BitVec.getLsbD_eq_getElem]; congr 1; omega)

/-- The fields of a word made of two fields (30_encoding.md R90). -/
theorem splitWord_append (r : BitVec 24) (o : BitVec 8) : splitWord (r ++ o) = ⟨r, o⟩ := by
  unfold splitWord
  simp only [CmdWord.mk.injEq]
  constructor <;>
  · ext i hi
    simp only [BitVec.getElem_extractLsb', BitVec.getLsbD_append]
    grind

/-- The opcode map read backwards (30_encoding.md R91). -/
theorem opcodeInstr_eq_some (op : BitVec 8) (i : Instr) : opcodeInstr op = some i ↔ op = i.opcode := by
  constructor
  · intro h
    apply BitVec.eq_of_toNat_eq
    revert h
    unfold opcodeInstr
    split <;> rename_i h <;> intro hi <;> first | (cases hi; exact h) | cases hi
  · rintro rfl
    cases i <;> rfl

/-- An opcode outside the map (30_encoding.md R94). -/
theorem opcodeInstr_eq_none (op : BitVec 8) : opcodeInstr op = none ↔ 6 ≤ op.toNat := by
  unfold opcodeInstr
  split <;> rename_i h
  all_goals simp_all
  all_goals omega

/-- What the decoder accepts: the word of an instruction and nothing else (30_encoding.md R91). -/
theorem decodeWord_eq_ok (w : Word) (i : Instr) : decodeWord w = .ok i ↔ w = encodeWord i := by
  have hw := append_splitWord w
  have hf : ∀ j : Instr, j.fields.rsvd = 0#24 := fun j => by cases j <;> rfl
  constructor
  · intro h
    unfold decodeWord at h
    split at h
    · rename_i hr
      have hr : (splitWord w).rsvd = 0#24 := by simpa [CmdWord.rsvdOk] using hr
      split at h
      · rename_i j hj
        cases h
        rw [opcodeInstr_eq_some] at hj
        rw [← hw, hr, hj, encodeWord, hf i]
        rfl
      · cases h
    · cases h
  · rintro rfl
    cases i <;> rfl

end Sys2Proof
end

