-- ==== Sys2Proof/Laws/Envelope.lean ====
section
/-! SUPPORT. The envelope generators: what a tick can do, and the invariants of 10_state.md R49 items 1 to 3. -/

namespace Sys2Proof.Machine

/-- The segment durations' range (41_envelope.md R141). -/
theorem dur_le (t fs : Nat) (ht : t ≤ 65536) : dur t fs ≤ 4 * fs := by
  unfold dur
  have : t * 4 * fs ≤ 65536 * 4 * fs := Nat.mul_le_mul_right _ (Nat.mul_le_mul_right _ ht)
  omega

@[simp] theorem levelTop_toNat : levelTop.toNat = 65536 := rfl

@[simp] theorem lvl_levelTop : lvl levelTop = 65536 := rfl

/-- The level that a ramp between two levels in range gives, as a number (10_state.md R42). -/
theorem levelOf_lerp (a b n N : Nat) (ha : a ≤ 65536) (hb : b ≤ 65536) (hn : n ≤ N) :
    ((levelOf (lerp a b n N)).toNat : Int) = lerp a b n N := by
  have h := lerp_between a b n N hn
  apply toNat_levelOf <;> omega

/-- The same, as a bound. -/
theorem levelOf_lerp_le (a b n N : Nat) (ha : a ≤ 65536) (hb : b ≤ 65536) (hn : n ≤ N) :
    (levelOf (lerp a b n N)).toNat ≤ 65536 := by
  have h := lerp_between a b n N hn
  have := levelOf_lerp a b n N ha hb hn
  omega

/-- An envelope generator that is zeroed keeps the invariants. -/
theorem Eg.zero_ok : Eg.zero.ok := by decide

/-- A trigger keeps the invariants (41_envelope.md R142). -/
theorem Eg.noteOn_ok (g : Eg) (h : g.ok) : g.noteOn.ok := by
  obtain ⟨-, h2, -, -⟩ := h
  simp [Eg.ok, Eg.noteOn, h2]

/-- A release keeps the invariants (41_envelope.md R143). -/
theorem Eg.noteOff_ok (g : Eg) (h : g.ok) : g.noteOff.ok := by
  unfold Eg.noteOff
  split
  · exact h
  · obtain ⟨-, h2, -, -⟩ := h
    simp [Eg.ok, h2]

/-- What a Decay tick leaves (41_envelope.md R148). -/
theorem Eg.tickDecay_ok (g : Eg) (p : EgParams) (fs : Nat) (h : g.start.toNat ≤ 65536) (hs : g.stage = .decay)
    (hp : p.ok) : (g.tickDecay p fs).ok := by
  obtain ⟨-, -, hsus, -⟩ := hp
  unfold Eg.tickDecay
  simp only
  split
  · simp [Eg.ok, Eg.enterSustain, Eg.tickSustain, h, hsus]
  · split
    · simp [Eg.ok, Eg.enterSustain, h, hsus]
    · rename_i hN hn
      have := levelOf_lerp_le 65536 p.sustain.toNat (g.elapsed.toNat + 1) (dur p.decay.toNat fs) (by omega) hsus (by omega)
      simpa [Eg.ok, hs, h, lvl] using this

/-- A tick keeps the invariants (41_envelope.md R146 to R151). -/
theorem Eg.tick_ok (g : Eg) (p : EgParams) (fs : Nat) (h : g.ok) (hp : p.ok) : (g.tick p fs).ok := by
  obtain ⟨h1, h2, h3, h4⟩ := h
  unfold Eg.tick
  split <;> rename_i hs
  · obtain ⟨a, b, c⟩ := h1 hs
    simp [Eg.ok, Eg.tickIdle, hs, b, c]
  · unfold Eg.tickAttack
    simp only
    split
    · exact Eg.tickDecay_ok _ p fs h3 rfl hp
    · split
      · simp [Eg.ok, Eg.enterDecay, h3, levelTop]
      · have := levelOf_lerp_le g.start.toNat 65536 (g.elapsed.toNat + 1) (dur p.attack.toNat fs) h3 (by omega) (by omega)
        simpa [Eg.ok, hs, h3, lvl] using this
  · exact Eg.tickDecay_ok g p fs h3 hs hp
  · simp [Eg.ok, Eg.tickSustain, hs, h3, h4 hs, hp.2.2.1]
  · unfold Eg.tickRelease
    simp only
    split
    · exact Eg.zero_ok
    · split
      · exact Eg.zero_ok
      · have := levelOf_lerp_le g.start.toNat 0 (g.elapsed.toNat + 1) (dur p.release.toNat fs) h3 (by omega) (by omega)
        simpa [Eg.ok, hs, h3, lvl] using this

/-- A tick of all three keeps the invariants. -/
theorem EgBank.tick_ok (b : EgBank) (p : ParamSet) (fs : Nat) (h : b.ok) (hp : p.ok) : (b.tick p fs).ok :=
  ⟨Eg.tick_ok _ _ _ h.1 hp.1, Eg.tick_ok _ _ _ h.2.1 hp.2.1, Eg.tick_ok _ _ _ h.2.2 hp.2.2.1⟩

/-- The triggers of all three keep the invariants. -/
theorem EgBank.noteOn_ok (b : EgBank) (h : b.ok) : b.noteOn.ok :=
  ⟨Eg.noteOn_ok _ h.1, Eg.noteOn_ok _ h.2.1, Eg.noteOn_ok _ h.2.2⟩

/-- The releases of all three keep the invariants. -/
theorem EgBank.noteOff_ok (b : EgBank) (h : b.ok) : b.noteOff.ok :=
  ⟨Eg.noteOff_ok _ h.1, Eg.noteOff_ok _ h.2.1, Eg.noteOff_ok _ h.2.2⟩

/-- Three zeroed envelope generators keep the invariants. -/
theorem EgBank.stop_ok (b : EgBank) : b.stop.ok := ⟨Eg.zero_ok, Eg.zero_ok, Eg.zero_ok⟩

/-- A commit keeps every active register at a value its write rule can store (44_commands.md R232). -/
theorem committed_ok (d : BitVec 5) (sh lv : ParamSet) (hs : sh.ok) (hl : lv.ok) : (committed d sh lv).ok := by
  obtain ⟨s1, s2, s3, s4, s5, s6, s7, s8, s9⟩ := hs
  obtain ⟨l1, l2, l3, l4, l5, l6, l7, l8, l9⟩ := hl
  unfold committed ParamSet.ok
  refine ⟨?_, ?_, ?_, ?_, ?_, ?_, ?_, ?_, ?_⟩ <;> simp only <;> split <;> assumption

/-- The cutoff lies between the floor and the peak, so it is at least 1 (42_filter.md R181). -/
theorem cutoff_between (fl pk : Word) (e : Level) (he : e.toNat ≤ 65536) :
    min fl.toNat pk.toNat ≤ cutoff fl pk e ∧ cutoff fl pk e ≤ max fl.toNat pk.toNat := by
  have h := lerp_between fl.toNat pk.toNat e.toNat 65536 he
  unfold cutoff
  have hl : lvl levelTop = ((65536 : Nat) : Int) := rfl
  rw [hl, lvl]
  omega

end Sys2Proof.Machine
end

