-- ==== Sys2Proof/Laws/PerInstr.lean ====
section
/-! SUPPORT. Families of statements, one lemma per instruction. -/

namespace Sys2Proof.Laws

/-- The command word of an instruction has legal fields, and its opcode byte names the instruction
(30_encoding.md R90, R91). -/
def WordFields.Statement (i : Instr) : Prop :=
  i.wf = true ∧ splitWord (encodeWord i) = i.fields ∧ opcodeInstr i.opcode = some i

theorem WordFields.nop : WordFields.Statement .nop := by unfold WordFields.Statement; decide

theorem WordFields.prepare : WordFields.Statement .prepare := by unfold WordFields.Statement; decide

theorem WordFields.noteOn : WordFields.Statement .noteOn := by unfold WordFields.Statement; decide

theorem WordFields.noteOff : WordFields.Statement .noteOff := by unfold WordFields.Statement; decide

theorem WordFields.forceStop : WordFields.Statement .forceStop := by unfold WordFields.Statement; decide

theorem WordFields.renderBlock : WordFields.Statement .renderBlock := by unfold WordFields.Statement; decide

end Sys2Proof.Laws
end

