-- ==== Sys2Proof/Laws/Render.lean ====
section
/-! SUPPORT. The oscillator bank and the sample step: what one oscillator, one harmonic and one sample change. -/

namespace Sys2Proof.Machine

/-- Advancing an oscillator leaves the increments (40_oscillator.md R116). -/
@[simp] theorem OscBank.advance_inc (b : OscBank) (j j' : Layer) (h : Fin 24) : (b.advance j h).inc j' = b.inc j' := by
  cases j <;> cases j' <;> rfl

/-- The phases after one oscillator advances (40_oscillator.md R116). -/
theorem OscBank.advance_phase (b : OscBank) (j j' : Layer) (h h' : Fin 24) :
    ((b.advance j h).phase j')[h'] =
      if j = j' ∧ h = h' then (b.phase j)[h] + (b.inc j)[h] else (b.phase j')[h'] := by
  have key : ∀ (v : Bank) (x : Word), (v.set h x)[h'] = if h = h' then x else v[h'] := fun v x => by
    simp only [Fin.getElem_fin]
    rw [Vector.getElem_set]
    simp only [Fin.val_inj]
  cases j <;> cases j' <;> simp only [OscBank.advance, OscBank.setPhase, OscBank.phase, key] <;> simp

/-- One harmonic leaves the increments. -/
@[simp] theorem harmonicStep_inc (v : SampleEnv) (h : Fin 24) (b : OscBank) (acc : Int) (j : Layer) :
    (harmonicStep v h b acc).1.inc j = b.inc j := by
  simp [harmonicStep, OscBank.sample]

/-- One harmonic advances its two oscillators and no other (43_render.md R203). -/
theorem harmonicStep_phase (v : SampleEnv) (h h' : Fin 24) (b : OscBank) (acc : Int) (j : Layer) :
    ((harmonicStep v h b acc).1.phase j)[h'] =
      if h = h' then (b.phase j)[h'] + (b.inc j)[h'] else (b.phase j)[h'] := by
  simp only [harmonicStep, OscBank.sample, OscBank.advance_phase, OscBank.advance_inc]
  by_cases hh : h = h'
  · subst hh
    cases j <;> simp
  · cases j <;> simp [hh]

/-- What one harmonic adds to the accumulator, from the phases as they are before it (43_render.md R204). -/
def harmonicSum (v : SampleEnv) (b : OscBank) (h : Fin 24) : Int :=
  contribution v.e1 (amplitude v.mix1 v.inst.saw[h] v.inst.sqr[h]) (sineOf (b.phase1[h] + b.inc1[h]))
      (gain ((h.val + 1) * v.noteFreq.toNat) v.cutoff v.reson) +
    contribution v.e2 (amplitude v.mix2 v.inst.saw[h] v.inst.sqr[h]) (sineOf (b.phase2[h] + b.inc2[h]))
      (gain ((h.val + 1) * v.noteFreq.toNat) v.cutoff v.reson)

/-- The accumulator after one harmonic (43_render.md R200). -/
theorem harmonicStep_acc (v : SampleEnv) (h : Fin 24) (b : OscBank) (acc : Int) :
    (harmonicStep v h b acc).2 = acc + harmonicSum v b h := by
  simp only [harmonicStep, harmonicSum, OscBank.sample, OscBank.advance_phase, OscBank.advance_inc]
  simp [OscBank.phase, OscBank.inc, add_assoc]

/-- Every harmonic of a sample leaves the increments (43_render.md R200). -/
theorem harmonics_inc (v : SampleEnv) (hs : List (Fin 24)) (b : OscBank) (acc : Int) (j : Layer) :
    (harmonics v hs b acc).1.inc j = b.inc j := by
  induction hs generalizing b acc with
  | nil => rfl
  | cons h hs ih =>
    rw [harmonics]
    split
    · rw [ih, harmonicStep_inc]
    · rfl

/-- The Nyquist test is monotone: below an included harmonic every harmonic is included (40_oscillator.md R122). -/
theorem included_mono (f fs : Word) (k k' : Nat) (hk : k ≤ k') (h : included f fs k' = true) : included f fs k = true := by
  simp only [included, decide_eq_true_eq] at *
  exact (Nat.mul_le_mul_right _ hk).trans h

/-- A sample's gains are defined when the active parameters are in range and EG3's level is (42_filter.md R181, R186). -/
theorem gainDefined_of_ok (s : State) (hl : s.live.ok) (he : s.egs.ok) : s.gainDefined = true := by
  obtain ⟨-, -, h3, hf, hp, hq, -⟩ := hl
  have hcut := cutoff_between s.live.filter.floor s.live.filter.peak s.tickedEgs.eg3.level
    (Eg.tick_ok _ _ _ he.2.2 h3).2.1
  unfold State.gainDefined State.sampleCutoff
  simp only [Bool.and_eq_true, decide_eq_true_eq]
  omega

/-- The harmonics of a sample are the leading included ones, one after the other (43_render.md R203). -/
theorem harmonics_eq_foldl (v : SampleEnv) (hs : List (Fin 24)) (b : OscBank) (acc : Int) :
    harmonics v hs b acc =
      (hs.takeWhile fun h => included v.noteFreq v.fs (h.val + 1)).foldl (fun r h => harmonicStep v h r.1 r.2) (b, acc) := by
  induction hs generalizing b acc with
  | nil => rfl
  | cons h hs ih =>
    rw [harmonics, List.takeWhile_cons]
    split
    · rw [List.foldl_cons, ih]
    · rfl

/-- Different harmonics one after the other: their sum, each from the phases before the sample, and the phases after
(43_render.md R203, R206). -/
theorem foldl_harmonicStep (v : SampleEnv) (hs : List (Fin 24)) (hn : hs.Nodup) (b : OscBank) (acc : Int) :
    (hs.foldl (fun r h => harmonicStep v h r.1 r.2) (b, acc)).2 = acc + (hs.map (harmonicSum v b)).sum ∧
      ∀ (j : Layer) (h : Fin 24),
        ((hs.foldl (fun r h => harmonicStep v h r.1 r.2) (b, acc)).1.phase j)[h] =
          if h ∈ hs then (b.phase j)[h] + (b.inc j)[h] else (b.phase j)[h] := by
  induction hs generalizing b acc with
  | nil => simp
  | cons k hs ih =>
    obtain ⟨hk, hn⟩ := List.nodup_cons.mp hn
    obtain ⟨h1, h2⟩ := ih hn (harmonicStep v k b acc).1 (harmonicStep v k b acc).2
    simp only [List.foldl_cons]
    constructor
    · rw [h1, harmonicStep_acc, List.map_cons, List.sum_cons, ← add_assoc]
      congr 2
      apply List.map_congr_left
      intro h hh
      have hne : k ≠ h := fun e => hk (e ▸ hh)
      have e1 := harmonicStep_phase v k h b acc .l1
      have e2 := harmonicStep_phase v k h b acc .l2
      have e3 := harmonicStep_inc v k b acc .l1
      have e4 := harmonicStep_inc v k b acc .l2
      simp only [OscBank.phase, OscBank.inc, if_neg hne] at e1 e2 e3 e4
      unfold harmonicSum
      rw [e1, e2, e3, e4]
    · intro j h
      rw [h2, harmonicStep_phase, harmonicStep_inc]
      by_cases hh : h = k
      · subst hh
        simp [hk]
      · have : k ≠ h := fun e => hh e.symm
        simp [this, hh]

/-- The leading included harmonics are all the included ones (40_oscillator.md R122). -/
theorem takeWhile_included (f fs : Word) :
    ((List.finRange 24).takeWhile fun h => included f fs (h.val + 1)) =
      (List.finRange 24).filter fun h => included f fs (h.val + 1) := by
  have hs : (List.finRange 24).Pairwise (· < ·) := List.pairwise_lt_finRange 24
  revert hs
  generalize List.finRange 24 = l
  induction l with
  | nil => simp
  | cons a l ih =>
    intro hs
    obtain ⟨h1, h2⟩ := List.pairwise_cons.mp hs
    rw [List.takeWhile_cons, List.filter_cons]
    split
    · rw [ih h2]
    · rename_i hc
      symm
      rw [List.filter_eq_nil_iff]
      intro b hb hi
      refine hc (included_mono f fs _ _ ?_ hi)
      have := h1 b hb
      simp only [Fin.lt_def] at this
      omega

end Sys2Proof.Machine
end

