-- ==== Sys2Proof/Laws/Step.lean ====
section
/-! SUPPORT. What a step can do, said once: the step that is due, what issuing a command leaves, and the inversion of step. -/

namespace Sys2Proof.Machine

/-- The HOST is due a command exactly when its next statement issues that command's word (44_commands.md R230). -/
theorem hostDue_command (s : State) (i : Instr) :
    s.hostDue = .command i ↔ s.resetPin = false ∧ s.host.head? = some (.write cmdAddr 4 (encodeWord i)) := by
  unfold State.hostDue
  cases h : s.host with
  | nil => simp
  | cons op ops =>
    simp only [List.head?_cons, Option.some.injEq]
    cases op with
    | read a n e => simp [State.commandWord]
    | poll a m v => simp [State.commandWord]
    | write a n d =>
      simp only [State.commandWord]
      by_cases hc : (!s.resetPin && legalAccess a n && a == cmdAddr) = true
      · rw [if_pos hc]
        simp only [Bool.and_eq_true, Bool.not_eq_true', beq_iff_eq] at hc
        obtain ⟨⟨hp, hl⟩, rfl⟩ := hc
        have hn : n = 4 := by
          unfold legalAccess at hl
          simp only [Bool.and_eq_true, beq_iff_eq] at hl
          exact hl.1
        subst hn
        simp only
        cases hd : decodeWord d with
        | ok j =>
          have hd' := (decodeWord_eq_ok d j).mp hd
          subst hd'
          simp only [Due.command.injEq, hp, HostOp.write.injEq, true_and]
          constructor
          · rintro rfl; rfl
          · intro he
            have h1 := (decodeWord_eq_ok _ j).mpr rfl
            have h2 := (decodeWord_eq_ok _ i).mpr he
            rw [h1] at h2
            exact Except.ok.inj h2
        | error e =>
          simp only [reduceCtorEq, HostOp.write.injEq, true_and, false_iff, not_and]
          rintro - rfl
          rw [(decodeWord_eq_ok _ i).mpr rfl] at hd
          cases hd
      · rw [if_neg hc]
        simp only [reduceCtorEq, HostOp.write.injEq, false_iff, not_and]
        rintro hp rfl rfl -
        exact hc (by rw [hp]; rfl)

/-- The ENGINE is due a command exactly when one is in progress and 44_commands.md R234 names a step of it. -/
theorem engineDue_command (s : State) (i : Instr) :
    s.engineDue = .command i ↔ s.busy = true ∧ s.resetPin = false ∧ s.engineCommand = some i := by
  unfold State.engineDue
  split
  · rename_i h
    simp only [Bool.and_eq_true, Bool.not_eq_true'] at h
    cases hc : s.engineCommand <;> simp [h]
  · rename_i h
    simp only [Bool.and_eq_true, Bool.not_eq_true', not_and] at h
    simp only [reduceCtorEq, false_iff, not_and]
    intro hb hp
    exact absurd hp (h hb)

/-- What issuing a command leaves: one of the rejections, or the acceptance (44_commands.md R230). -/
theorem issue_cases (s : State) (i : Instr) :
    (s.busy = true ∧ i ≠ .forceStop ∧ s.issue i = s.reject .busy) ∨
      ((s.busy = false ∨ i = .forceStop) ∧ s.prepared = false ∧ (i = .noteOn ∨ i = .renderBlock) ∧
        s.issue i = s.reject .notPrepared) ∨
      (s.busy = false ∧ i = .prepare ∧ s.configOk = false ∧ s.issue i = { s with prepared := false }.reject .config) ∨
      (s.busy = false ∧ i = .renderBlock ∧ s.prepared = true ∧ s.rangeOk = false ∧ s.issue i = s.reject .range) ∨
      ((s.busy = false ∨ i = .forceStop) ∧ (i = .noteOn ∨ i = .renderBlock → s.prepared = true) ∧
        (i = .prepare → s.configOk = true) ∧ (i = .renderBlock → s.rangeOk = true) ∧ s.issue i = s.accept i) := by
  cases hb : s.busy <;> cases hp : s.prepared <;> cases hc : s.configOk <;> cases hr : s.rangeOk <;> cases i <;>
    simp [State.issue, hb, hp, hc, hr]

/-- The six states a step can come from and what it leaves (10_state.md R20, 20_memory.md R72). -/
theorem step_eq_next (s t : State) (h : step s = .next t) :
    ∃ u, t = s.retire u ∧
      ((∃ i, s.due = .command i ∧ exec i s = .next u) ∨
        (s.due = .illegalWord ∧ u = s.reject .illegal) ∨
        (∃ op, s.due = .access op ∧ u = s.hostAccess op) ∨
        (s.due = .assertReset ∧ u = s.hardReset) ∨
        (s.due = .releaseReset ∧ u = { s with resetPin := false }) ∨
        (s.due = .idle ∧ u = s)) := by
  unfold step at h
  split at h <;> rename_i hd
  · rename_i i
    cases he : exec i s with
    | next u =>
      rw [he] at h
      cases h
      exact ⟨u, rfl, .inl ⟨i, hd, he⟩⟩
    | fault f => rw [he] at h; cases h
    | refused r => rw [he] at h; cases h
  · cases h; exact ⟨_, rfl, .inr (.inl ⟨hd, rfl⟩)⟩
  · cases h; exact ⟨_, rfl, .inr (.inr (.inl ⟨_, hd, rfl⟩))⟩
  · cases h; exact ⟨_, rfl, .inr (.inr (.inr (.inl ⟨hd, rfl⟩)))⟩
  · cases h; exact ⟨_, rfl, .inr (.inr (.inr (.inr (.inl ⟨hd, rfl⟩))))⟩
  · cases h; exact ⟨_, rfl, .inr (.inr (.inr (.inr (.inr ⟨hd, rfl⟩))))⟩
  · cases h

/-- A command is due: at the HOST's turn its issue, at the ENGINE's its step. -/
theorem due_command (s : State) (i : Instr) (h : s.due = .command i) :
    (s.turn = .host ∧ s.hostDue = .command i) ∨
      (s.turn = .engine ∧ s.busy = true ∧ s.resetPin = false ∧ s.engineCommand = some i) := by
  unfold State.due at h
  cases ht : s.turn with
  | host => rw [ht] at h; exact .inl ⟨rfl, h⟩
  | engine => rw [ht] at h; exact .inr ⟨rfl, (engineDue_command s i).mp h⟩
  | assertReset => rw [ht] at h; cases h
  | releaseReset => rw [ht] at h; cases h

/-- At the HOST's turn every command's meaning is its issue (44_commands.md R230). -/
theorem exec_host (i : Instr) (s : State) (h : s.turn = .host) : exec i s = .next (s.issue i) := by
  cases i <;> simp [exec, execNop, execPrepare, execNoteOn, execNoteOff, execForceStop, execRenderBlock, h]

/-- What each command's ENGINE step leaves when it goes on (44_commands.md R235 to R241). -/
theorem exec_engine (i : Instr) (s u : State) (ht : s.turn = .engine) (h : exec i s = .next u) :
    (i = .nop ∧ u = s.complete) ∨
      (i = .prepare ∧
        u = { s with
              fs := s.larg0
              blockSize := s.larg1
              channels := s.larg2
              prepared := true
              egs := s.egs.stop
              active := false }.complete) ∨
      (i = .noteOn ∧ s.fs ≠ 0#32 ∧ u = s.startNote) ∨
      (i = .noteOff ∧ u = { s with egs := s.egs.noteOff }.complete) ∨
      (i = .forceStop ∧ u = s.abortStep) ∨
      (i = .renderBlock ∧ s.rbPhase = .commit ∧ u = s.renderCommit) ∨
      (i = .renderBlock ∧ s.rbPhase = .sample ∧ s.gainDefined = true ∧ s.insideOutbuf = true ∧ u = s.renderSample) ∨
      (i = .renderBlock ∧ s.rbPhase = .finish ∧ u = s.renderFinish) := by
  have hne : s.turn ≠ .host := by rw [ht]; decide
  cases i
  · simp only [exec, execNop, if_neg hne] at h
    cases h; simp
  · simp only [exec, execPrepare, if_neg hne] at h
    cases h; simp
  · simp only [exec, execNoteOn, if_neg hne] at h
    split at h
    · cases h
    · rename_i hf
      cases h; simp [hf]
  · simp only [exec, execNoteOff, if_neg hne] at h
    cases h; simp
  · simp only [exec, execForceStop, if_neg hne] at h
    cases h; simp
  · simp only [exec, execRenderBlock, if_neg hne] at h
    split at h <;> rename_i hp
    · cases h; simp [hp]
    · split at h
      · cases h
      · split at h
        · cases h
        · cases h; simp_all
    · cases h; simp [hp]

/-- What the ENGINE's command is (44_commands.md R234). -/
theorem engineCommand_eq_some (s : State) (i : Instr) :
    s.engineCommand = some i ↔
      (s.abortReq = true ∧ i = .forceStop) ∨ (s.abortReq = false ∧ i ≠ .forceStop ∧ s.curCmd = i.opcode) := by
  unfold State.engineCommand
  cases ha : s.abortReq
  · simp only [Bool.false_eq_true, if_false, false_and, false_or, true_and]
    rw [← opcodeInstr_eq_some]
    split <;> rename_i h
    · rw [h]
      simp only [reduceCtorEq, Option.some.injEq, false_iff, not_and]
      intro hne he
      exact hne he.symm
    · constructor
      · intro hi
        refine ⟨?_, hi⟩
        rintro rfl
        exact h hi
      · exact fun hi => hi.2
  · simp [eq_comm]

/-- Everything a step can be: the HOST's issue, its illegal word, its access or nothing left to do; the ENGINE's idle turn or its
step of the command in progress; the reset input asserted or released (20_memory.md R72). -/
theorem step_cases (s t : State) (h : step s = .next t) :
    ∃ u, t = s.retire u ∧
      ((s.turn = .host ∧ ∃ i, s.hostDue = .command i ∧ u = s.issue i) ∨
        (s.turn = .host ∧ s.hostDue = .illegalWord ∧ u = s.reject .illegal) ∨
        (s.turn = .host ∧ ∃ op, s.hostDue = .access op ∧ u = s.hostAccess op) ∨
        (s.turn = .host ∧ s.hostDue = .idle ∧ u = s) ∨
        (s.turn = .engine ∧ u = s ∧ (s.busy = false ∨ s.resetPin = true)) ∨
        (∃ i, s.engineRuns i ∧ exec i s = .next u) ∨
        (s.turn = .assertReset ∧ u = s.hardReset) ∨ (s.turn = .releaseReset ∧ u = { s with resetPin := false })) := by
  have hhost : ∀ d : Due, s.hostDue = d → (∃ i, d = .command i) ∨ d = .illegalWord ∨ (∃ op, d = .access op) ∨ d = .idle := by
    rintro d rfl
    unfold State.hostDue
    split
    · simp
    · split
      · split <;> simp
      · simp
  have heng : ∀ d : Due, s.engineDue = d → (∃ i, d = .command i) ∨ d = .stuck ∨ (d = .idle ∧ (s.busy = false ∨ s.resetPin = true)) := by
    rintro d rfl
    unfold State.engineDue
    split
    · split <;> simp
    · rename_i hb
      cases h1 : s.busy <;> cases h2 : s.resetPin <;> simp_all
  obtain ⟨u, ht, h⟩ := step_eq_next s t h
  refine ⟨u, ht, ?_⟩
  rcases h with ⟨i, hd, he⟩ | ⟨hd, hu⟩ | ⟨op, hd, hu⟩ | ⟨hd, hu⟩ | ⟨hd, hu⟩ | ⟨hd, hu⟩
  · rcases due_command s i hd with ⟨h1, h2⟩ | h1
    · rw [exec_host _ _ h1] at he
      cases he
      exact .inl ⟨h1, i, h2, rfl⟩
    · exact .inr (.inr (.inr (.inr (.inr (.inl ⟨i, h1, he⟩)))))
  all_goals
    unfold State.due at hd
    cases h1 : s.turn <;> rw [h1] at hd <;> simp only [reduceCtorEq] at hd
    all_goals first
      | (have := heng _ hd; simp at this; done)
      | (have := hhost _ hd; simp at this; done)
      | exact .inr (.inr (.inr (.inr (.inl ⟨rfl, hu, by simpa using heng _ hd⟩))))
      | simp [hd, hu]

/-- Everything the issue of a command can change (44_commands.md R230, R231, R233). -/
theorem issue_eq (s : State) (i : Instr) :
    ∃ cc l0 l1 l2 b ab rp ri er st pr,
      s.issue i =
          { s with
            curCmd := cc
            larg0 := l0
            larg1 := l1
            larg2 := l2
            busy := b
            abortReq := ab
            rbPhase := rp
            rbI := ri
            errCode := er
            irqStatus := st
            prepared := pr } ∧
        (pr = true → s.prepared = true) ∧ (st = s.irqStatus ∨ st = s.irqStatus ||| Flag.cmdErr.mask) := by
  rcases issue_cases s i with h | h | h | h | h
  · rw [h.2.2]; exact ⟨_, _, _, _, _, _, _, _, _, _, _, rfl, id, .inr rfl⟩
  · rw [h.2.2.2]; exact ⟨_, _, _, _, _, _, _, _, _, _, _, rfl, id, .inr rfl⟩
  · rw [h.2.2.2]; exact ⟨_, _, _, _, _, _, _, _, _, _, _, rfl, by simp, .inr rfl⟩
  · rw [h.2.2.2.2]; exact ⟨_, _, _, _, _, _, _, _, _, _, _, rfl, id, .inr rfl⟩
  · rw [h.2.2.2.2]
    cases i
    case forceStop =>
      unfold State.accept
      simp only
      split <;> exact ⟨_, _, _, _, _, _, _, _, _, _, _, rfl, id, .inl rfl⟩
    all_goals exact ⟨_, _, _, _, _, _, _, _, _, _, _, rfl, id, .inl rfl⟩

/-- A run of one step more, from a step that gives a next state. -/
theorem run_succ_of_step (n : Nat) (s u : State) (h : step s = .next u) :
    Sys2Proof.core.run (n + 1) s = Sys2Proof.core.run n u := by
  have key : ∀ (M : Host.Core) (a b : M.State), M.step a = .next b → M.run (n + 1) a = M.run n b := by
    intro M a b hab
    show (match M.step a with
      | .next s' => M.run n s'
      | .fault r => .fault r
      | .refused r => .refused r) = _
    rw [hab]
  exact key Sys2Proof.core s u h

end Sys2Proof.Machine
end

