-- ==== Sys2Proof/Tests/Slice0.lean ====
section
/-! SUPPORT. The author's own tests: the checks of WellFormed.lean, the command words written out from the encoding, worked examples
of the spec (95_test_vectors.md and the examples in the rules), and for each statement with hypotheses a state that meets them. -/

namespace Sys2Proof.Tests

open Sys2Proof.Machine

/-! ## WellFormed: each check refuses an ill-formed term -/

theorem test_rsvdOk_refuses : CmdWord.rsvdOk ⟨1#24, 0x00#8⟩ = false ∧ CmdWord.wf ⟨1#24, 0x00#8⟩ = false := by decide
theorem test_opcodeOk_refuses : CmdWord.opcodeOk ⟨0#24, 0x06#8⟩ = false ∧ CmdWord.wf ⟨0#24, 0x06#8⟩ = false := by decide
theorem test_cmdWord_wf_accepts : CmdWord.wf ⟨0#24, 0x05#8⟩ = true := by decide
theorem test_blockMaxOk_refuses :
    Instance.blockMaxOk ⟨0, 2, zeroBank, zeroBank⟩ = false ∧ Instance.blockMaxOk ⟨4097, 1, zeroBank, zeroBank⟩ = false := by
  decide
theorem test_chMaxOk_refuses : Instance.chMaxOk ⟨1024, 0, zeroBank, zeroBank⟩ = false := by decide
theorem test_sizeOk_refuses :
    Instance.sizeOk ⟨4096, 3, zeroBank, zeroBank⟩ = false ∧ Instance.wf ⟨4096, 2, zeroBank, zeroBank⟩ = true := by decide
theorem test_tableNormalized_refuses : tableNormalized zeroBank = false := by decide
/-- 40_oscillator.md R111: the sums of the default tables; R112: they are normalized. -/
theorem test_default_tables :
    tableSum defaultSaw = 16777215 ∧ tableSum defaultSqr = 16777215 ∧ defaultInstance.tablesNormalized = true := by decide
theorem test_default_wf : defaultInstance.wf = true := by decide

/-! ## Decode: the words of 30_encoding.md R91, bit by bit -/

theorem test_decode_nop : decodeWord 0b00000000000000000000000000000000#32 = .ok .nop := by decide
theorem test_decode_prepare : decodeWord 0b00000000000000000000000000000001#32 = .ok .prepare := by decide
theorem test_decode_noteOn : decodeWord 0b00000000000000000000000000000010#32 = .ok .noteOn := by decide
theorem test_decode_noteOff : decodeWord 0b00000000000000000000000000000011#32 = .ok .noteOff := by decide
theorem test_decode_forceStop : decodeWord 0b00000000000000000000000000000100#32 = .ok .forceStop := by decide
theorem test_decode_renderBlock : decodeWord 0b00000000000000000000000000000101#32 = .ok .renderBlock := by decide
/-- 30_encoding.md R94. -/
theorem test_decode_illegal :
    decodeWord 0x00000006#32 = .error .unknownOpcode ∧ decodeWord 0x000000FF#32 = .error .unknownOpcode ∧
      decodeWord 0x00000104#32 = .error .reservedBits ∧ decodeWord 0x80000000#32 = .error .reservedBits := by decide
/-- 20_memory.md R62: the byte of the opcode is the one at the lowest address. -/
theorem test_decode_bytes :
    decodeBytes [0x05#8, 0#8, 0#8, 0#8, 0xAA#8] = .ok (.renderBlock, [0xAA#8]) ∧
      decodeBytes [0#8, 0#8, 0#8, 0x05#8] = .error .reservedBits ∧ decodeBytes [0x05#8, 0#8, 0#8] = .error .tooShort := by
  decide
theorem test_decodeTableWord : decodeTableWord 32 3 = some .noteOff ∧ decodeTableWord 32 7 = none := by decide

/-! ## Arithmetic: 00_scope.md R12 to R16 -/

theorem test_tdiv : tdiv (-7) 2 = -3 ∧ tdiv 7 2 = 3 := by decide
/-- The examples of R13. -/
theorem test_asr : asr (-1) 1 = -1 ∧ asr (-3) 1 = -2 := by decide
theorem test_rhu : rhu 1 2 = 1 ∧ rhu 1 3 = 0 := by decide
theorem test_isqrt : isqrt 0 = 0 ∧ isqrt 24 = 4 ∧ isqrt 25 = 5 := by decide
theorem test_sat32 : sat32 2147483648 = 2147483647 ∧ sat32 (-2147483649) = -2147483648 := by decide
/-- 30_encoding.md R96: hz(440). -/
theorem test_hz : hz 440 1 = 0x01B80000#32 := by decide

/-! ## Envelopes: the examples of 41_envelope.md -/

/-- R141. -/
theorem test_dur :
    dur 1 48000 = 3 ∧ dur 0x10000 48000 = 192000 ∧ dur 3 8192 = 2 ∧ dur 1 8192 = 1 ∧ dur 0x8000 1 = 2 ∧
      dur 0x10000 1048575 = 4194300 := by decide
/-- R147: N = 4 from START 0 and N = 3 from START 0; R148: N = 3 to SUSTAIN_A = 0. -/
theorem test_attack_decay :
    (Eg.tick ⟨.attack, 0#17, 1#32, 0#17⟩ ⟨8#17, 0#17, 0#17, 0#17⟩ 8192).level = 32768#17 ∧
      (Eg.tick ⟨.attack, 0#17, 0#32, 0#17⟩ ⟨6#17, 0#17, 0#17, 0#17⟩ 8192).level = 21845#17 ∧
      (Eg.tick ⟨.decay, 0#17, 0#32, 0#17⟩ ⟨0#17, 6#17, 0#17, 0#17⟩ 8192).level = 43691#17 := by decide
/-- R150: N = 3 from START 32768; the third tick gives 0 and Idle. -/
theorem test_release :
    (Eg.tick ⟨.release, 0#17, 0#32, 32768#17⟩ ⟨0#17, 0#17, 0#17, 6#17⟩ 8192).level = 21846#17 ∧
      Eg.tick ⟨.release, 10923#17, 2#32, 32768#17⟩ ⟨0#17, 0#17, 0#17, 6#17⟩ 8192 = Eg.zero := by decide
/-- R151: the cascade of zero-length segments. -/
theorem test_cascade :
    Eg.tick ⟨.attack, 0#17, 0#32, 0#17⟩ EgParams.reset 48000 = ⟨.sustain, 0x10000#17, 0#32, 0#17⟩ := by decide

/-! ## Filter and oscillators: the examples of 42_filter.md and 40_oscillator.md -/

/-- R180, R181. -/
theorem test_cutoff :
    cutoff 65536000#32 327680000#32 32768#17 = 196608000 ∧ cutoff 0x10000#32 1#32 32768#17 = 32769 ∧
      cutoff 1#32 0x10001#32 32767#17 = 32768 := by decide
/-- R182, R186: hz(440), C/2 and 2C at C = hz(24000). -/
theorem test_gain :
    gain 28835840 1572864000 0x10000 = 65547 ∧ gain 786432000 1572864000 0xB505 = 63579 ∧
      gain 3145728000 1572864000 0x10000 = 18176 ∧ gain (24 * 0xFFFFFFFF) 1 0xFFFFFF = 0 := by decide +kernel
/-- R120: a quarter turn per sample. -/
theorem test_sine :
    sineOf 0x40000000#32 = 32767 ∧ sineOf 0x80000000#32 = 0 ∧ sineOf 0xC0000000#32 = -32767 := by decide +kernel
/-- R122. -/
theorem test_harmCount : harmCount 0x03E80001#32 48000#32 = 23 ∧ harmCount 0x5DC00001#32 48000#32 = 0 := by decide
/-- R116: the wrap. -/
theorem test_advance :
    ((OscBank.advance ⟨Vector.replicate 24 0xFFFFFFFF#32, zeroBank, Vector.replicate 24 1#32, zeroBank⟩ .l1 3).phase1)[3] =
      0#32 := by decide

/-! ## Commands: one step each -/

/-- A prepared voice with the parameters after reset, as program P1 prepares it (95_test_vectors.md 3.1). -/
def prepared : State :=
  { State.reset with fs := 48000#32, blockSize := 4#32, channels := 1#32, prepared := true }

/-- A state with a command of opcode `op` in progress. -/
def running (s : State) (op : BitVec 8) (a0 a1 a2 : Word) : State :=
  { s with busy := true, curCmd := op, larg0 := a0, larg1 := a1, larg2 := a2 }

/-- The state a step leaves, or the state itself where it leaves none. -/
def after (s : State) : State :=
  match step s with
  | .next t => t
  | .fault _ => s
  | .refused _ => s

/-- R236: NOP's ENGINE step from idle gives BUSY = 0 and IRQ_STATUS = 0x01. -/
theorem test_nop :
    (after (running State.reset 0#8 0#32 0#32 0#32)).busy = false ∧
      (after (running State.reset 0#8 0#32 0#32 0#32)).irqStatus = 0x01#5 := by decide
/-- R237: `prepare 48000, 64, 2`. -/
theorem test_prepare :
    (after (running State.reset 1#8 48000#32 64#32 2#32)).fs = 48000#32 ∧
      (after (running State.reset 1#8 48000#32 64#32 2#32)).blockSize = 64#32 ∧
      (after (running State.reset 1#8 48000#32 64#32 2#32)).prepared = true := by decide
/-- R113: hz(440) at 48000 Hz, harmonics 1 and 24. -/
theorem test_noteOn :
    (after (running prepared 2#8 0x01B80000#32 0#32 0#32)).osc.inc1[0] = 39370534#32 ∧
      (after (running prepared 2#8 0x01B80000#32 0#32 0#32)).osc.inc1[23] = 944892805#32 := by decide +kernel
/-- R114: ratio 1.5, committed by the same NOTE_ON. -/
theorem test_noteOn_ratio :
    (after (running
      { prepared with shadow := { ParamSet.reset with osc := ⟨0#17, 0#17, 0x18000#32⟩ }, dirty := 0x10#5 }
      2#8 0x01B80000#32 0#32 0#32)).osc.inc2[1] = 118111601#32 := by decide +kernel
/-- R143. -/
theorem test_noteOff :
    (after (running { prepared with egs := ⟨⟨.sustain, 32768#17, 0#32, 0#17⟩, Eg.zero, Eg.zero⟩ } 3#8 0#32 0#32 0#32)).egs =
      ⟨⟨.release, 32768#17, 0#32, 32768#17⟩, Eg.zero, Eg.zero⟩ := by decide
/-- R240: FORCE_STOP during a render, accepted and then the abort step. -/
theorem test_forceStop_issue :
    (after (State.withFetchWord (running prepared 5#8 0#32 4#32 0#32) 32 4)).abortReq = true ∧
      (after (State.withFetchWord (running prepared 5#8 0#32 4#32 0#32) 32 4)).curCmd = 5#8 := by decide
theorem test_forceStop_abort :
    (after { running { prepared with egs := ⟨⟨.release, 10923#17, 2#32, 32768#17⟩, Eg.zero, Eg.zero⟩ } 5#8 0#32 4#32 0#32 with
      abortReq := true }).egs.eg1 = Eg.zero := by decide

/-- Program P1 (95_test_vectors.md 3.1) at its first sample step: hz(16000) noted, `render 0, 4` committed, OUT[0][0] cleared. -/
def p1Sample : State :=
  { running (running prepared 2#8 0x3E800000#32 0#32 0#32).startNote 5#8 0#32 4#32 0#32 with
    rbPhase := .sample
    outbuf := Memory.putWord [] 0x8000 0#32 }

/-- P1, sample 0: y = 8870292, K = 1, and no clipping. -/
theorem test_p1_sample :
    (after p1Sample).lastSample = 8870292#32 ∧ (after p1Sample).out 0 0 = 0x00875994#32 ∧
      (after p1Sample).irqStatus = 0x01#5 := by decide +kernel
/-- 95_test_vectors.md, clipping and saturation: FS = 48000, hz(12000), cutoff hz(12000), RESON_A = 0xFFFFFF. -/
theorem test_clip_saturate :
    (after
      { running
          { (running prepared 2#8 0x2EE00000#32 0#32 0#32).startNote with
            live := { ParamSet.reset with filter := ⟨0x2EE00000#32, 0x2EE00000#32, 0xFFFFFF#32⟩ } }
          5#8 0#32 4#32 0#32 with
        rbPhase := .sample }).lastSample = 2147483647#32 ∧
      (after
        { running
            { (running prepared 2#8 0x2EE00000#32 0#32 0#32).startNote with
              live := { ParamSet.reset with filter := ⟨0x2EE00000#32, 0x2EE00000#32, 0xFFFFFF#32⟩ } }
            5#8 0#32 4#32 0#32 with
          rbPhase := .sample }).irqStatus = 0x05#5 := by decide +kernel
/-- 95_test_vectors.md, OUTBUF accumulation (R209). -/
theorem test_accumulate :
    accumulated 0x7FFFFF00#32 0x200 = 0x7FFFFFFF#32 ∧ accumulated 0x80000000#32 (-5) = 0x80000000#32 := by decide

/-! ## The first step after reset, and the bus -/

/-- 44_commands.md R230, R233: NOP is accepted right after reset; RENDER_BLOCK is rejected with NOT_PREPARED. -/
theorem test_first_step :
    (after (State.reset.withFetchWord 32 0)).busy = true ∧ (after (State.reset.withFetchWord 32 5)).errCode = .notPrepared ∧
      (after (State.reset.withFetchWord 32 9)).errCode = .illegal := by decide
/-- 20_memory.md R64: PARAMS of the default instance. -/
theorem test_params : (State.reset.hostAccess (.read 0x0008#16 4 none)).rdata = 0x04000218#32 := by decide
/-- 20_memory.md R63, R66: a misaligned read, and an unmapped one, return 0 and set BUS_ERR. -/
theorem test_bus_error :
    (State.reset.hostAccess (.read 0x0002#16 4 none)).irqStatus = 0x10#5 ∧
      (State.reset.hostAccess (.read 0x000C#16 4 none)).irqStatus = 0x10#5 ∧
      (State.reset.hostAccess (.read 0x0000#16 2 none)).rdata = 0#32 := by decide
/-- 20_memory.md R65: SINE_LUT[3072] reads -32767, sign-extended. -/
theorem test_sine_read : (State.reset.hostAccess (.read 0x7000#16 4 none)).rdata = 0xFFFF8001#32 := by decide +kernel
/-- 20_memory.md R62, R80: OUT[1][2] of the default instance, written and read. -/
theorem test_out :
    ((State.reset.hostAccess (.write 0x9008#16 4 0x12345678#32)).hostAccess (.read 0x9008#16 4 none)).rdata = 0x12345678#32 ∧
      (State.reset.hostAccess (.write 0x9008#16 4 0x12345678#32)).outByte 0x9008 = 0x78#8 := by decide +kernel
/-- 30_encoding.md R97: three expansions. -/
theorem test_pseudo :
    Pseudo.expand defaultInstance (.prepare 48000#32 4#32 1#32) =
        [.write 0x0014#16 4 48000#32, .write 0x0018#16 4 4#32, .write 0x001C#16 4 1#32, .write 0x0010#16 4 1#32] ∧
      Pseudo.expand defaultInstance .wait = [.poll 0x0020#16 1#32 0#32] ∧
      Pseudo.expand defaultInstance (.zero 1 2 2) = [.write 0x9008#16 4 0#32, .write 0x900C#16 4 0#32] := by decide
/-- 95_test_vectors.md 3.3: statements 4 to 8 of program P3, base statements and pseudo-instructions mixed. -/
theorem test_expandAll :
    expandAll defaultInstance
        [.pseudo (.clrirq 8#32), .base (wr defaultInstance .cmd 0x106#32), .base (rdExpect defaultInstance .status 0x100#32),
          .pseudo (.clrirq 8#32), .pseudo (.prepare 0#32 16#32 1#32)] =
      [.write 0x0024#16 4 8#32, .write 0x0010#16 4 0x106#32, .read 0x0020#16 4 (some 0x100#32), .write 0x0024#16 4 8#32,
        .write 0x0014#16 4 0#32, .write 0x0018#16 4 16#32, .write 0x001C#16 4 1#32, .write 0x0010#16 4 1#32] := by decide

/-! ## Witnesses: for each statement with hypotheses, states and operands that meet them -/

/-- A small instance: four samples, two channels. -/
def tiny : Instance := ⟨4, 2, defaultSaw, defaultSqr⟩

/-- A prepared voice of the small instance, sounding at hz(440), before its first sample. -/
def sounding : State :=
  (running
    { State.resetOf tiny with fs := 48000#32, blockSize := 4#32, channels := 2#32, prepared := true }
    2#8 0x01B80000#32 7#32 0#32).startNote

/-- A RENDER_BLOCK of the last three samples in progress, at the last one: the sample's index is BLOCK_MAX - 1. -/
def midRender : State :=
  { running sounding 5#8 1#32 3#32 0#32 with
    rbPhase := .sample
    rbI := 2#32
    egs := ⟨⟨.attack, 32768#17, 2#32, 0#17⟩, ⟨.sustain, 65536#17, 0#32, 0#17⟩, ⟨.release, 1#17, 4194299#32, 65536#17⟩⟩
    outbuf := [(0x8000, 0x11#8), (0x801F, 0x22#8)] }

/-- The same voice with the HOST's next statement `op`. -/
def hostNext (op : HostOp) : State := { sounding with host := [op] }

theorem midRender_inv : Inv midRender := by
  constructor
  case spec => constructor <;> decide
  case inside =>
    intro p hp
    have : p = (0x8000, 0x11#8) ∨ p = (0x801F, 0x22#8) := by simpa [midRender] using hp
    rcases this with rfl | rfl <;> decide
  all_goals decide

theorem sounding_inv : Inv sounding := by
  constructor
  case spec => constructor <;> decide
  case inside =>
    intro p hp
    have : p ∈ ([] : Memory) := hp
    simp at this
  all_goals decide

/-- A state with a command in progress keeps the invariant when the command is one that the invariant allows. -/
theorem inv_running (op : BitVec 8) (a0 a1 a2 : Word) (ph : RbPhase) (ac : Bool) (l : List Turn)
    (h : State.engineCommand { running sounding op a0 a1 a2 with rbPhase := ph, active := ac, sched := l } ≠ none)
    (h1 : op = 1#8 → 1 ≤ a0.toNat ∧ a0.toNat ≤ 1048575 ∧ 1 ≤ a1.toNat ∧ a1.toNat ≤ 4 ∧ 1 ≤ a2.toNat ∧ a2.toNat ≤ 2)
    (h5 : op = 5#8 → a0.toNat + a1.toNat ≤ 4 ∧ ph ≠ .sample) :
    Inv { running sounding op a0 a1 a2 with rbPhase := ph, active := ac, sched := l } := by
  have hs := sounding_inv
  refine ⟨⟨hs.spec.egs, hs.spec.shadow, hs.spec.live, fun hb => by simp [running] at hb, hs.spec.sampleRate⟩, hs.inst,
    hs.configured, fun hp => (nomatch (show false = true from hp)), fun _ _ => Option.isSome_iff_ne_none.mpr h, fun _ hc => h1 hc, fun _ _ => rfl,
    fun _ hc => ⟨rfl, (h5 hc).1, fun hp => absurd hp (h5 hc).2⟩, hs.memory, hs.inside⟩

theorem witness_DecodeAndEncodeAgree :
    Instr.wf .renderBlock = true ∧ decodeBytes [0x04#8, 0#8, 0#8, 0#8, 0x07#8] = .ok (.forceStop, [0x07#8]) := by decide

theorem witness_StepRunsTheDecodedCommand :
    (hostNext (.write 0x0010#16 4 0x03#32)).hostIssues 0x03#32 ∧
      decodeBytes (bytesOfWord 0x03#32) = .ok (.noteOff, []) ∧
      (∃ t, exec .noteOff (hostNext (.write 0x0010#16 4 0x03#32)) = .next t) ∧
      midRender.engineRuns .renderBlock ∧ midRender.abortReq = false ∧ midRender.curCmd = Instr.renderBlock.opcode ∧
      (∃ t, exec .renderBlock midRender = .next t) ∧
      State.engineRuns { midRender with abortReq := true } .forceStop ∧
      (∃ t, exec .forceStop { midRender with abortReq := true } = .next t) ∧
      (running State.reset 2#8 0#32 0#32 0#32).engineRuns .noteOn ∧
      exec .noteOn (running State.reset 2#8 0#32 0#32 0#32) = .fault .zeroSampleRate :=
  ⟨by decide, by decide, ⟨_, rfl⟩, by decide, by decide, by decide, ⟨_, rfl⟩, by decide, ⟨_, rfl⟩, by decide, rfl⟩

theorem witness_IllegalWordIsRejected :
    (hostNext (.write 0x0010#16 4 0x06#32)).hostIssues 0x06#32 ∧ 6 ≤ ((0x06#32).extractLsb' 0 8).toNat ∧
      (hostNext (.write 0x0010#16 4 0x104#32)).hostIssues 0x104#32 ∧ (0x104#32).extractLsb' 8 24 ≠ 0#24 := by decide

theorem witness_IdleTurnsChangeNothing :
    State.turn { sounding with sched := [.engine] } = .engine ∧ State.busy { sounding with sched := [.engine] } = false ∧
      sounding.turn = .host ∧ sounding.host = [] := by decide

theorem witness_HostStatementsTakeTheirSteps :
    (hostNext (.read 0x0001#16 4 none)).turn = .host ∧
      (hostNext (.read 0x0001#16 4 none)).readGives 0x0001#16 4 0#32 0x11#5 ∧
      (hostNext (.read 0x0020#16 2 none)).readGives 0x0020#16 2 0#32 0x11#5 ∧
      (hostNext (.read 0xFFFC#16 4 (some 1#32))).readGives 0xFFFC#16 4 0#32 0x11#5 ∧
      State.readGives { hostNext (.poll 0x0020#16 1#32 0#32) with resetPin := true } 0x0020#16 4 0#32 0x01#5 ∧
      (hostNext (.write 0x0000#16 4 1#32)).turn = .host ∧ (0x0000#16 : Addr) ≠ 0x0010#16 := by
  refine ⟨by decide, .inr (.inl ?_), .inr (.inl ?_), .inr (.inl ?_), .inl ?_, ?_⟩ <;> decide

theorem witness_readGives_value :
    (hostNext (.read 0x0000#16 4 (some 0x48564331#32))).readGives 0x0000#16 4 0x48564331#32 0x01#5 :=
  .inr (.inr ⟨by decide, by decide, by decide, .id, by decide, by decide, by decide⟩)

theorem witness_IssueRejectsInOrder :
    State.turn { midRender with sched := [.host] } = .host ∧ State.busy { midRender with sched := [.host] } = true ∧
      State.reset.turn = .host ∧ State.reset.busy = false ∧ State.reset.prepared = false ∧
      ¬(1 ≤ State.reset.arg0.toNat) ∧ sounding.prepared = true ∧
      (State.blockSize { sounding with arg0 := 4#32, arg1 := 1#32 }).toNat < 4 + 1 := by decide

theorem witness_IssueAcceptsAndLatches :
    sounding.turn = .host ∧ sounding.busy = false ∧ sounding.prepared = true ∧
      1 ≤ (1048575#32).toNat ∧ (1048575#32).toNat ≤ 1048575 ∧ (4#32).toNat ≤ sounding.inst.blockMax ∧
      (2#32).toNat ≤ sounding.inst.chMax ∧ (4#32).toNat + (0#32).toNat ≤ sounding.blockSize.toNat ∧
      State.turn { midRender with sched := [.host] } = .host ∧ State.busy { midRender with sched := [.host] } = true := by
  decide

/-- For NopOnlyCompletes, PrepareConfiguresAndStops, NoteOnStartsTheNote, NoteOffReleasesEveryEnvelope and
AbortStepStopsTheVoice. -/
theorem witness_engine_turn :
    (running sounding 0#8 0#32 0#32 0#32).turn = .engine ∧ (running sounding 2#8 0#32 0#32 0#32).fs ≠ 0#32 := by decide

theorem witness_RenderCommitStep :
    (running sounding 5#8 0#32 4#32 0#32).turn = .engine ∧ (running sounding 5#8 0#32 4#32 0#32).rbPhase = .commit := by
  decide

/-- For the statements about the sample step; the sample's index is the last of the block. -/
theorem witness_sample : midRender.sampleReady ∧ Memory.wf midRender.outbuf := by decide

theorem witness_SampleAccumulatesIntoOutbuf :
    0 < midRender.channels.toNat ∧ 1 < midRender.channels.toNat ∧ midRender.channels.toNat ≤ 2 ∧ 3 < midRender.inst.blockMax ∧
      midRender.larg0.toNat + midRender.rbI.toNat = 3 := by decide

theorem witness_RenderFinishStep :
    State.turn { midRender with rbPhase := .finish } = .engine ∧ State.rbPhase { midRender with rbPhase := .finish } = .finish := by
  decide

theorem witness_EnvelopeTransitionRelation :
    Eg.ok ⟨.attack, 65536#17, 4194299#32, 65536#17⟩ ∧ EgParams.ok ⟨65536#17, 65536#17, 65536#17, 65536#17⟩ ∧
      Eg.ok ⟨.idle, 0#17, 0#32, 0#17⟩ ∧ Eg.ok ⟨.decay, 1#17, 0#32, 0#17⟩ ∧ Eg.ok ⟨.sustain, 0#17, 0#32, 0#17⟩ ∧
      Eg.ok ⟨.release, 1#17, 1#32, 2#17⟩ ∧
      (65536 * 4 * 1048575 + 32768) / 65536 = 4194300 ∧ (0 * 4 * 1048575 + 32768) / 65536 = 0 ∧
      (1 * 4 * 8192 + 32768) / 65536 = 1 ∧ (2 * 4 * 8192 + 32768) / 65536 = 1 ∧ (4 * 4 * 8192 + 32768) / 65536 = 2 := by
  decide

theorem witness_EnvelopeRampsAreMonotone :
    Eg.ok Eg.zero ∧ EgParams.ok ⟨1#17, 0#17, 0x8000#17, 1#17⟩ ∧ Eg.zero.stage = .idle ∧ 1 ≤ dur 1 48000 ∧
      dur (EgParams.attack EgParams.reset).toNat 48000 = 0 ∧ EgParams.reset.ok ∧
      Eg.ok ⟨.sustain, 0x8000#17, 0#32, 0#17⟩ := by decide

theorem witness_SustainIsLeftOnlyByCommand :
    (midRender.egs.get .e2).stage = .sustain ∧ ∃ t, step midRender = .next t := ⟨by decide, ⟨_, rfl⟩⟩

/-- For the statements about the gain: the least and the largest q, the least cutoff. -/
theorem witness_gain : 1 ≤ 1 ∧ 1 ≤ 0xFFFFFF ∧ 0xFFFFFF ≤ 0xFFFFFF ∧ (0 : Nat) = 0 := by decide

theorem witness_HarmonicCountIsTheNyquistGuard :
    1 ≤ 24 ∧ 24 ≤ 24 ∧ sounding.resetPin = false ∧
      harmCount (State.noteFreq { sounding with noteFreq := 0x5DC00001#32 }) (State.fs { sounding with noteFreq := 0#32 }) = 0 := by
  decide

theorem witness_SineTableSymmetries : 0 < 4096 ∧ 4095 < 4096 ∧ 1024 < 1025 ∧ 2047 < 2048 ∧ 2048 ≤ 2048 ∧ 2048 < 4096 := by decide

theorem witness_ContributionRoundingIsBounded :
    (-32767 : Int) ≤ -32767 ∧ (-32767 : Int) ≤ 32767 ∧ (32767 : Int) ≤ 32767 ∧ (1 : Nat) ≤ 1 ∧
      (0 : ℚ) = ((0#17 : Level).toNat : ℚ) * (0 : Int) * (32767 : Int) * (0 : Nat) / 2 ^ 47 := by
  refine ⟨by decide, by decide, by decide, by decide, by simp⟩

theorem witness_IllegalAccessOnlySetsBusErr :
    sounding.resetPin = false ∧ 8 ≠ 4 ∧ (0xFFFF#16).toNat % 4 ≠ 0 ∧ regAt sounding.inst (0x8020#16).toNat = none := by
  decide

theorem witness_ReadOnlyWriteOnlySetsBusErr :
    sounding.resetPin = false ∧ sounding.target 0x7FFC#16 4 = some (.sine 4095) ∧ Reg.access (.sine 4095) = .ro := by
  decide +kernel

theorem witness_RegisterMapIsExact :
    tiny.wf = true ∧ regAt tiny 0 = some .id ∧ regAt tiny 0x801C = some (.out 1 3) ∧ 0x801C < 65536 := by decide

theorem witness_ReadsHaveNoSideEffect :
    sounding.resetPin = false ∧ sounding.inst.wf = true ∧ sounding.target 0x801C#16 4 = some (.out 1 3) := by
  decide

/-- For the statements about accesses while the reset input is released. -/
theorem witness_resetPin : sounding.resetPin = false ∧ State.reset.resetPin = false := by decide

theorem witness_OutbufWriteStoresOneWord :
    midRender.resetPin = false ∧ midRender.inst.wf = true ∧ 1 < midRender.inst.chMax ∧ 3 < midRender.inst.blockMax ∧
      Memory.wf midRender.outbuf := by decide

theorem witness_OutbufRaceHasBothOutcomes :
    Inv { midRender with host := [.write 0x801C#16 4 0x7FFFFFFF#32] } ∧ midRender.busy = true ∧ midRender.abortReq = false ∧
      midRender.curCmd = 0x05#8 ∧ midRender.rbPhase = .sample ∧ 1 < midRender.channels.toNat ∧
      BitVec.ofNat 16 (0x8000 + 4 * (1 * midRender.inst.blockMax + (midRender.larg0.toNat + midRender.rbI.toNat))) = 0x801C#16 := by
  have h := midRender_inv
  exact ⟨⟨⟨h.spec.egs, h.spec.shadow, h.spec.live, h.spec.noAbort, h.spec.sampleRate⟩, h.inst, h.configured, h.resetIdle,
    h.command, h.preparing, h.starting, h.rendering, h.memory, h.inside⟩, by decide, by decide, by decide, by decide,
    by decide, by decide⟩

/-- For the statements about the ENGINE's steps. -/
theorem witness_engine_step :
    midRender.turn = .engine ∧ (∃ t, step midRender = .next t) ∧ (running sounding 2#8 0#32 0#32 0#32).engineRuns .noteOn ∧
      ∃ t, step (running sounding 2#8 0#32 0#32 0#32) = .next t := ⟨by decide, ⟨_, rfl⟩, by decide, ⟨_, rfl⟩⟩

theorem witness_HostNeverWritesVoiceState :
    (hostNext (.write 0x0010#16 4 0x01#32)).turn = .host ∧ ∃ t, step (hostNext (.write 0x0010#16 4 0x01#32)) = .next t :=
  ⟨by decide, ⟨_, rfl⟩⟩

theorem witness_FlagsAreClearedOnlyByTheHost :
    sounding.flag .cmdDone = true ∧
      ∃ t, step (hostNext (.write 0x0024#16 4 0x01#32)) = .next t ∧
        State.flag (hostNext (.write 0x0024#16 4 0x01#32)) .cmdDone = true ∧ t.flag .cmdDone = false :=
  ⟨by decide, _, rfl, by decide, by decide⟩

theorem witness_ActiveCopiesChangeOnlyAtACommit :
    ∃ t,
      step (running { sounding with dirty := 0x10#5, shadow := { ParamSet.reset with osc := ⟨1#17, 0#17, 0#32⟩ } } 5#8 0#32 4#32 0#32) =
          .next t ∧
        t.live ≠ sounding.live := ⟨_, rfl, by decide⟩

theorem witness_SampleCountCountsSampleSteps :
    midRender.turn ≠ .assertReset ∧ midRender.engineRuns .renderBlock ∧ midRender.rbPhase = .sample ∧
      ∃ t, step midRender = .next t := ⟨by decide, by decide, by decide, ⟨_, rfl⟩⟩

theorem witness_ResetInputResetsEverything :
    State.turn { midRender with sched := [.assertReset] } = .assertReset ∧
      State.turn { sounding with resetPin := true, sched := [.releaseReset] } = .releaseReset ∧
      State.resetPin { sounding with resetPin := true } = true := by decide

theorem witness_EveryStepKeepsTheInvariant : Inv midRender ∧ ∃ t, step midRender = .next t := ⟨midRender_inv, ⟨_, rfl⟩⟩

theorem witness_InvariantHoldsAfterReset : tiny.wf = true := by decide

theorem witness_SpecInvariantsHoldInEveryReachableState : Reachable (after { State.resetOf tiny with host := [.write 0x0010#16 4 0#32] }) :=
  ⟨tiny, [.write 0x0010#16 4 0#32], [], 1, by decide, rfl⟩

theorem witness_NoStepStops : Inv midRender := midRender_inv

theorem witness_RenderBlockTakesNumPlusTwoSteps :
    Inv { running sounding 5#8 0#32 2#32 0#32 with
          rbPhase := .commit, active := true, sched := [.engine, .engine, .engine, .engine, .host] } ∧
      (∀ u ∈ [Turn.engine, .engine, .engine, .engine, .host].take (2 + 2), u = .engine) ∧
      State.engineRuns
        { running sounding 5#8 0#32 2#32 0#32 with
          rbPhase := .commit, active := true, sched := [.engine, .engine, .engine, .engine, .host] } .renderBlock :=
  ⟨inv_running _ _ _ _ _ _ _ (by decide) (by decide) (by decide), by decide, by decide⟩

theorem witness_OtherCommandsTakeOneStep :
    Inv { running sounding 1#8 1#32 4#32 2#32 with rbPhase := .commit, active := true, sched := [] } ∧
      State.engineRuns { running sounding 1#8 1#32 4#32 2#32 with rbPhase := .commit, active := true, sched := [] } .prepare :=
  ⟨inv_running _ _ _ _ _ _ _ (by decide) (by decide) (by decide), by decide⟩

theorem witness_InactiveVoiceRendersNothing :
    Inv { running sounding 5#8 0#32 4#32 0#32 with rbPhase := .commit, active := false, sched := [.engine, .engine, .host] } ∧
      (∀ u ∈ [Turn.engine, .engine, .host].take 2, u = .engine) ∧
      State.engineRuns
        { running sounding 5#8 0#32 4#32 0#32 with rbPhase := .commit, active := false, sched := [.engine, .engine, .host] }
        .renderBlock :=
  ⟨inv_running _ _ _ _ _ _ _ (by decide) (by decide) (by decide), by decide, by decide⟩

theorem witness_EveryWaitTerminates :
    Inv { midRender with host := [.poll 0x0020#16 1#32 0#32], sched := [.host, .engine] } ∧
      ∀ u ∈ [Turn.host, Turn.engine], u = .host ∨ u = .engine := by
  have h := midRender_inv
  exact ⟨⟨⟨h.spec.egs, h.spec.shadow, h.spec.live, h.spec.noAbort, h.spec.sampleRate⟩, h.inst, h.configured, h.resetIdle,
    h.command, h.preparing, h.starting, h.rendering, h.memory, h.inside⟩, by decide⟩

end Sys2Proof.Tests
end

section
/-! SUPPORT. What a step of each agent can be, and the invariant taken apart: what it says of the voice and of OUTBUF, and what it
says of the command in progress. -/

namespace Sys2Proof.Machine

/-! ## The step of each agent -/

/-- What a HOST step can be: the issue of a command, the rejection of a word that is none, an access, or nothing left to do
(20_memory.md R72). -/
theorem step_host (s t : State) (hturn : s.turn = .host) (h : step s = .next t) :
    ∃ u, t = s.retire u ∧
      ((∃ i, s.hostDue = .command i ∧ u = s.issue i) ∨ u = s.reject .illegal ∨
        (∃ op, s.hostDue = .access op ∧ u = s.hostAccess op) ∨ u = s) := by
  obtain ⟨u, rfl, hu⟩ := step_cases s t h
  refine ⟨u, rfl, ?_⟩
  rcases hu with ⟨-, hi⟩ | ⟨-, -, hu⟩ | ⟨-, ha⟩ | ⟨-, -, hu⟩ | ⟨he, -⟩ | ⟨i, ⟨he, -⟩, -⟩ | ⟨he, -⟩ | ⟨he, -⟩
  · exact .inl hi
  · exact .inr (.inl hu)
  · exact .inr (.inr (.inl ha))
  · exact .inr (.inr (.inr hu))
  all_goals simp [hturn] at he

/-- What an ENGINE step can be: nothing, or the step of the command in progress (44_commands.md R234). -/
theorem step_engine (s t : State) (hturn : s.turn = .engine) (h : step s = .next t) :
    ∃ u, t = s.retire u ∧ (u = s ∨ ∃ i, s.engineRuns i ∧ exec i s = .next u) := by
  obtain ⟨u, rfl, hu⟩ := step_cases s t h
  refine ⟨u, rfl, ?_⟩
  rcases hu with ⟨he, -⟩ | ⟨he, -⟩ | ⟨he, -⟩ | ⟨he, -⟩ | ⟨-, hu, -⟩ | hi | ⟨he, -⟩ | ⟨he, -⟩
  iterate 4 (· simp [hturn] at he)
  · exact .inl hu
  · exact .inr hi
  all_goals simp [hturn] at he

/-- An opcode names one command (30_encoding.md R91). -/
theorem opcode_inj (i j : Instr) : i.opcode = j.opcode ↔ i = j := by
  rw [← opcodeInstr_eq_some, (opcodeInstr_eq_some _ i).mpr rfl, Option.some.injEq]

/-! ## The two halves of the invariant -/

/-- A legal configuration of the block: the operands that PREPARE accepts (10_state.md R33, 44_commands.md R230). -/
abbrev LegalConfig (c : Instance) (fs bs ch : Word) : Prop :=
  1 ≤ fs.toNat ∧ fs.toNat ≤ 1048575 ∧ 1 ≤ bs.toNat ∧ bs.toNat ≤ c.blockMax ∧ 1 ≤ ch.toNat ∧ ch.toNat ≤ c.chMax

/-- PREPARE's check at issue is that of a legal configuration (44_commands.md R230). -/
theorem configOk_iff (s : State) : s.configOk = true ↔ LegalConfig s.inst s.arg0 s.arg1 s.arg2 := by
  simp [State.configOk, and_assoc]

/-- OUTBUF is canonical and lists only bytes of words that exist (20_memory.md R80). -/
abbrev OutbufOk (c : Instance) (m : Memory) : Prop :=
  Memory.wf m ∧ ∀ p ∈ m, 0x8000 ≤ p.1 ∧ p.1 < 0x8000 + 4 * (c.chMax * c.blockMax)

/-- What the invariant says of the voice, its parameters and OUTBUF. -/
structure VoiceOk (s : State) : Prop where
  egs : s.egs.ok
  shadow : s.shadow.ok
  live : s.live.ok
  inst : s.inst.wf = true
  config : s.prepared = true → LegalConfig s.inst s.fs s.blockSize s.channels
  outbuf : OutbufOk s.inst s.outbuf

/-- What the invariant says of the command in progress. -/
structure CommandOk (s : State) : Prop where
  noAbort : s.busy = false → s.abortReq = false
  resetIdle : s.resetPin = true → s.busy = false
  command : s.busy = true → s.abortReq = false → s.engineCommand.isSome = true
  preparing : s.busy = true → s.curCmd = 1#8 → LegalConfig s.inst s.larg0 s.larg1 s.larg2
  starting : s.busy = true → s.curCmd = 2#8 → s.prepared = true
  rendering : s.busy = true → s.curCmd = 5#8 →
    s.prepared = true ∧ s.larg0.toNat + s.larg1.toNat ≤ s.blockSize.toNat ∧
      (s.rbPhase = .sample → s.rbI.toNat < s.larg1.toNat ∧ s.active = true)

/-- The invariant is its two halves. -/
theorem inv_iff (s : State) : Inv s ↔ VoiceOk s ∧ CommandOk s := by
  constructor
  · intro h
    have hconfig (hp : s.prepared = true) : LegalConfig s.inst s.fs s.blockSize s.channels :=
      ⟨h.spec.sampleRate hp, h.configured hp⟩
    exact ⟨⟨h.spec.egs, h.spec.shadow, h.spec.live, h.inst, hconfig, h.memory, h.inside⟩,
      ⟨h.spec.noAbort, h.resetIdle, h.command, h.preparing, h.starting, h.rendering⟩⟩
  · rintro ⟨v, c⟩
    exact ⟨⟨v.egs, v.shadow, v.live, c.noAbort, fun hp => (v.config hp).1⟩, v.inst, fun hp => (v.config hp).2,
      c.resetIdle, c.command, c.preparing, c.starting, c.rendering, v.outbuf.1, v.outbuf.2⟩

/-- The end of a step touches neither half. -/
theorem Inv.retire {s u : State} (h : Inv u) : Inv (s.retire u) := by
  obtain ⟨v, c⟩ := (inv_iff u).mp h
  exact (inv_iff _).mpr ⟨{ v with }, { c with }⟩

/-! ## Idle states -/

/-- While no command is in progress there is nothing to keep of it. -/
theorem CommandOk.of_idle {s : State} (hb : s.busy = false) (ha : s.abortReq = false) : CommandOk s where
  noAbort _ := ha
  resetIdle _ := hb
  command h := by simp [hb] at h
  preparing h := by simp [hb] at h
  starting h := by simp [hb] at h
  rendering h := by simp [hb] at h

/-- The state after reset keeps the invariant: nothing is prepared, in progress or written (10_state.md R48). -/
theorem inv_resetOf (c : Instance) (hc : c.wf = true) : Inv (State.resetOf c) := by
  have hset : ParamSet.reset.ok := by decide
  refine (inv_iff _).mpr ⟨?_, .of_idle rfl rfl⟩
  exact {
    egs := ⟨Eg.zero_ok, Eg.zero_ok, Eg.zero_ok⟩
    shadow := hset
    live := hset
    inst := hc
    config := fun hp => nomatch hp
    outbuf := by simp [OutbufOk, State.resetOf] }

/-- A command that ends with CMD_DONE leaves a legal voice idle (44_commands.md R242). -/
theorem VoiceOk.inv_complete {s : State} (h : VoiceOk s) (ha : s.abortReq = false) : Inv s.complete :=
  (inv_iff _).mpr ⟨{ h with }, .of_idle rfl ha⟩

/-! ## HOST steps keep the invariant -/

/-- A rejection records an error and nothing that the invariant speaks of (44_commands.md R231). -/
theorem Inv.reject {s : State} (h : Inv s) (e : ErrCode) : Inv (s.reject e) := by
  obtain ⟨v, c⟩ := (inv_iff s).mp h
  exact (inv_iff _).mpr ⟨{ v with }, { c with }⟩

/-- A rejected PREPARE leaves an idle voice that is not prepared (44_commands.md R230). -/
theorem Inv.unprepare {s : State} (h : Inv s) (hb : s.busy = false) : Inv { s with prepared := false } := by
  obtain ⟨v, c⟩ := (inv_iff s).mp h
  exact (inv_iff _).mpr ⟨{ v with config := fun hp => nomatch hp }, .of_idle hb (c.noAbort hb)⟩

/-- A command in progress is legal when it is one of the six, FORCE_STOP only with its abort requested, and its own conditions
of issue hold of what was latched (44_commands.md R230, R233). -/
theorem CommandOk.of_running {s : State} (i : Instr) (hp : s.resetPin = false) (hb : s.busy = true) (hi : s.curCmd = i.opcode)
    (habort : i = .forceStop → s.abortReq = true)
    (hprepare : i = .prepare → LegalConfig s.inst s.larg0 s.larg1 s.larg2)
    (hstart : i = .noteOn → s.prepared = true)
    (hrender : i = .renderBlock → s.prepared = true ∧ s.larg0.toNat + s.larg1.toNat ≤ s.blockSize.toNat ∧
      (s.rbPhase = .sample → s.rbI.toNat < s.larg1.toNat ∧ s.active = true)) : CommandOk s where
  noAbort h := by simp [hb] at h
  resetIdle h := by simp [hp] at h
  command _ ha := by
    have hne : i ≠ .forceStop := fun hf => by simp [habort hf] at ha
    rw [(engineCommand_eq_some s i).mpr (.inr ⟨ha, hne, hi⟩)]
    rfl
  preparing _ hc := hprepare ((opcode_inj i .prepare).mp (hi.symm.trans hc))
  starting _ hc := hstart ((opcode_inj i .noteOn).mp (hi.symm.trans hc))
  rendering _ hc := hrender ((opcode_inj i .renderBlock).mp (hi.symm.trans hc))

/-- Acceptance touches nothing of the voice (44_commands.md R233). -/
theorem VoiceOk.accept {s : State} (h : VoiceOk s) (i : Instr) : VoiceOk (s.accept i) := by
  cases i
  case forceStop =>
    simp only [State.accept]
    split <;> exact { h with }
  all_goals exact { h with }

/-- An accepted command is a legal command in progress (44_commands.md R230, R233). -/
theorem CommandOk.accept {s : State} (h : CommandOk s) (i : Instr) (hp : s.resetPin = false)
    (hprepared : i = .noteOn ∨ i = .renderBlock → s.prepared = true)
    (hconfig : i = .prepare → s.configOk = true) (hrange : i = .renderBlock → s.rangeOk = true) :
    CommandOk (s.accept i) := by
  cases i
  case forceStop =>
    simp only [State.accept]
    split
    · rename_i hb
      exact { h with
        noAbort := fun hb' => by simp [hb] at hb'
        command := fun _ ha => nomatch ha }
    · exact .of_running .forceStop hp rfl rfl (fun _ => rfl) nofun nofun nofun
  case prepare => exact .of_running .prepare hp rfl rfl nofun (fun _ => (configOk_iff s).mp (hconfig rfl)) nofun nofun
  case noteOn => exact .of_running .noteOn hp rfl rfl nofun nofun (fun _ => hprepared (.inl rfl)) nofun
  case renderBlock =>
    have hfit : s.arg0.toNat + s.arg1.toNat ≤ s.blockSize.toNat := by simpa [State.rangeOk] using hrange rfl
    exact .of_running .renderBlock hp rfl rfl nofun nofun nofun fun _ => ⟨hprepared (.inr rfl), hfit, nofun⟩
  case nop => exact .of_running .nop hp rfl rfl nofun nofun nofun nofun
  case noteOff => exact .of_running .noteOff hp rfl rfl nofun nofun nofun nofun

/-- The issue of a command keeps the invariant, whether it is rejected or accepted (44_commands.md R230). -/
theorem Inv.issue {s : State} (h : Inv s) (i : Instr) (hp : s.resetPin = false) : Inv (s.issue i) := by
  rcases issue_cases s i with
    ⟨-, -, he⟩ | ⟨-, -, -, he⟩ | ⟨hb, -, -, he⟩ | ⟨-, -, -, -, he⟩ | ⟨-, hprepared, hconfig, hrange, he⟩ <;> rw [he]
  · exact h.reject _
  · exact h.reject _
  · exact (h.unprepare hb).reject _
  · exact h.reject _
  · obtain ⟨v, c⟩ := (inv_iff s).mp h
    exact (inv_iff _).mpr ⟨v.accept i, c.accept i hp hprepared hconfig hrange⟩

/-- An access of the HOST keeps the invariant (20_memory.md R63, R66, R67). -/
theorem Inv.hostAccess {s : State} (h : Inv s) (op : HostOp) : Inv (s.hostAccess op) := by
  obtain ⟨v, c⟩ := (inv_iff s).mp h
  obtain ⟨a0, a1, a2, er, st, en, di, sh, ob, rd, hf, he, hsh, hwf, hin⟩ := hostAccess_eq s op
  have hob : OutbufOk s.inst ob := ⟨hwf v.outbuf.1, fun p hp => (hin p hp).elim (v.outbuf.2 p) id⟩
  rw [he]
  exact (inv_iff _).mpr ⟨{ v with shadow := hsh v.shadow, outbuf := hob }, { c with }⟩

/-! ## ENGINE steps keep the invariant -/

/-- Each word OUT[c][i] that exists lies inside OUTBUF (20_memory.md R80). -/
theorem outAddr_inside (c : Instance) (ch i : Nat) (hch : ch < c.chMax) (hi : i < c.blockMax) :
    0x8000 ≤ outAddr c ch i ∧ outAddr c ch i + 4 ≤ 0x8000 + 4 * (c.chMax * c.blockMax) := by
  have hlt : ch * c.blockMax + c.blockMax ≤ c.chMax * c.blockMax := by
    rw [← Nat.succ_mul]
    exact Nat.mul_le_mul_right _ hch
  unfold outAddr
  omega

/-- A sample accumulated into existing words keeps OUTBUF legal (43_render.md R209). -/
theorem OutbufOk.accumulateOut {c : Instance} {m : Memory} (h : OutbufOk c m) (e idx : Nat) (y : Int) (chs : List Nat)
    (hidx : idx < c.blockMax) (hchs : ∀ ch ∈ chs, ch < c.chMax) : OutbufOk c (accumulateOut c e idx y chs m) := by
  refine ⟨accumulateOut_wf c e idx y chs m h.1, fun p hp => ?_⟩
  rcases mem_accumulateOut c e idx y chs m p hp with ⟨ch, hch, hword⟩ | hp
  · have := outAddr_inside c ch idx (hchs ch hch) hidx
    omega
  · exact h.2 p hp

/-- A commit keeps the voice legal (44_commands.md R232). -/
theorem VoiceOk.commit {s : State} (h : VoiceOk s) : VoiceOk s.commit :=
  { h with live := committed_ok s.dirty s.shadow s.live h.shadow h.live }

/-- RENDER_BLOCK's COMMIT step keeps the invariant (44_commands.md R241). -/
theorem Inv.renderCommit {s : State} (h : Inv s) : Inv s.renderCommit := by
  obtain ⟨v, c⟩ := (inv_iff s).mp h
  refine (inv_iff _).mpr ⟨{ v.commit with }, { c with rendering := fun hb hc => ?_ }⟩
  obtain ⟨hprepared, hfit, -⟩ := c.rendering hb hc
  refine ⟨hprepared, hfit, fun hph => ?_⟩
  have hgo : s.active = true ∧ s.larg1 ≠ 0#32 := by simpa [State.numSamples] using hph
  refine ⟨?_, hgo.1⟩
  have hne := hgo.2
  show (0#32).toNat < s.larg1.toNat
  bv_omega

/-- RENDER_BLOCK's SAMPLE step keeps the invariant (44_commands.md R241). -/
theorem Inv.renderSample {s : State} (h : Inv s) (hb : s.busy = true) (hph : s.rbPhase = .sample)
    (hin : s.insideOutbuf = true) : Inv s.renderSample := by
  obtain ⟨v, c⟩ := (inv_iff s).mp h
  obtain ⟨hidx, hch⟩ : s.sampleIndex < s.inst.blockMax ∧ s.channels.toNat ≤ s.inst.chMax := by
    simpa [State.insideOutbuf] using hin
  have hob := v.outbuf.accumulateOut s.epoch s.sampleIndex (sat32 s.sampleSum.2) (List.range s.channels.toNat) hidx
    fun ch hmem => (List.mem_range.mp hmem).trans_le hch
  refine (inv_iff _).mpr
    ⟨{ v with egs := EgBank.tick_ok _ _ _ v.egs v.live, outbuf := hob }, { c with rendering := fun _ hc => ?_ }⟩
  obtain ⟨hprepared, hfit, hsample⟩ := c.rendering hb hc
  obtain ⟨hlt, hactive⟩ := hsample hph
  refine ⟨hprepared, hfit, fun hnext => ⟨?_, hactive⟩⟩
  have hne : s.rbI + 1#32 ≠ s.larg1 := fun he => by simp [State.numSamples, he] at hnext
  show (s.rbI + 1#32).toNat < s.larg1.toNat
  bv_omega

/-- The ENGINE step of the command in progress keeps the invariant (44_commands.md R235 to R241). -/
theorem Inv.exec_engine {s u : State} (h : Inv s) (i : Instr) (hrun : s.engineRuns i) (hu : exec i s = .next u) : Inv u := by
  obtain ⟨v, c⟩ := (inv_iff s).mp h
  obtain ⟨hturn, hb, -, hcmd⟩ := hrun
  have hown (hi : i ≠ .forceStop) : s.abortReq = false ∧ s.curCmd = i.opcode := by
    rcases (engineCommand_eq_some s i).mp hcmd with ⟨-, hf⟩ | ⟨ha, -, hc⟩
    · exact absurd hf hi
    · exact ⟨ha, hc⟩
  rcases Machine.exec_engine i s u hturn hu with
    ⟨rfl, rfl⟩ | ⟨rfl, rfl⟩ | ⟨rfl, -, rfl⟩ | ⟨rfl, rfl⟩ | ⟨rfl, rfl⟩ | ⟨rfl, -, rfl⟩ | ⟨rfl, hph, -, hin, rfl⟩ | ⟨rfl, -, rfl⟩
  · exact v.inv_complete (hown nofun).1
  · obtain ⟨ha, hc⟩ := hown nofun
    refine VoiceOk.inv_complete ?_ ha
    exact { v with egs := EgBank.stop_ok _, config := fun _ => c.preparing hb hc }
  · refine VoiceOk.inv_complete ?_ (hown nofun).1
    exact { v.commit with egs := EgBank.noteOn_ok _ v.egs }
  · refine VoiceOk.inv_complete ?_ (hown nofun).1
    exact { v with egs := EgBank.noteOff_ok _ v.egs }
  · refine VoiceOk.inv_complete ?_ rfl
    exact { v with egs := EgBank.stop_ok _ }
  · exact h.renderCommit
  · exact h.renderSample hb hph hin
  · exact VoiceOk.inv_complete { v with } (hown nofun).1

/-! ## Every step keeps the invariant -/

/-- Settles O53: each kind of step keeps both halves of the invariant. -/
theorem everyStepKeepsTheInvariant : Obligations.EveryStepKeepsTheInvariant := by
  intro s t h hstep
  obtain ⟨u, rfl, hu⟩ := step_cases s t hstep
  apply Inv.retire
  rcases hu with ⟨-, i, hi, rfl⟩ | ⟨-, -, rfl⟩ | ⟨-, op, -, rfl⟩ | ⟨-, -, rfl⟩ | ⟨-, rfl, -⟩ | ⟨i, hrun, hu⟩ | ⟨-, rfl⟩ | ⟨-, rfl⟩
  · exact h.issue i ((hostDue_command s i).mp hi).1
  · exact h.reject _
  · exact h.hostAccess op
  · exact h
  · exact h
  · exact h.exec_engine i hrun hu
  · obtain ⟨v, c⟩ := (inv_iff _).mp (inv_resetOf s.inst h.inst)
    exact (inv_iff _).mpr ⟨{ v with }, .of_idle rfl rfl⟩
  · obtain ⟨v, c⟩ := (inv_iff s).mp h
    exact (inv_iff _).mpr ⟨{ v with }, { c with resetIdle := nofun }⟩

/-- Settles O54: the HOST's program and the turns to come are nothing that the invariant speaks of. -/
theorem invariantHoldsAfterReset : Obligations.InvariantHoldsAfterReset := by
  intro c prog sched hc
  obtain ⟨v, -⟩ := (inv_iff _).mp (inv_resetOf c hc)
  exact (inv_iff _).mpr ⟨{ v with }, .of_idle rfl rfl⟩

/-- A run of one step more has a first step, and the rest runs from the state that it leaves. -/
theorem run_succ_eq_next (M : Host.Core) (n : Nat) (s t : M.State) (h : M.run (n + 1) s = .next t) :
    ∃ u, M.step s = .next u ∧ M.run n u = .next t := by
  rw [Host.Core.run] at h
  split at h
  case h_1 u hu => exact ⟨u, hu, h⟩
  all_goals cases h

/-- Every run from a state of the invariant ends in one. -/
theorem Inv.run {s t : State} (n : Nat) (h : Inv s) (hrun : Sys2Proof.core.run n s = .next t) : Inv t := by
  induction n generalizing s with
  | zero =>
    cases hrun
    exact h
  | succ n ih =>
    obtain ⟨u, hstep, hrest⟩ := run_succ_eq_next Sys2Proof.core n s t hrun
    exact ih (everyStepKeepsTheInvariant s u h hstep) hrest

/-- Settles O55: the invariant holds at reset and along every run, and it contains the six. -/
theorem specInvariantsHoldInEveryReachableState : Obligations.SpecInvariantsHoldInEveryReachableState := by
  rintro t ⟨c, prog, sched, n, hc, hrun⟩
  exact (Inv.run n (invariantHoldsAfterReset c prog sched hc) hrun).spec

end Sys2Proof.Machine
end

section
/-! SUPPORT. Which agent writes what: the frame of each agent's step, the flags of IRQ_STATUS, idle turns, and what a write to each
control and parameter register stores. -/

namespace Sys2Proof.Machine

/-! ## What the ENGINE leaves -/

/-- What is the HOST's, fixed, or outside the block, the HOST's statements apart (10_state.md R21, R28;
20_memory.md R82). -/
def State.hostSide (s : State) :=
  (s.arg0, s.arg1, s.arg2, s.shadow, s.irqEnable, s.errCode, s.inst, s.epoch, s.resetPin, s.rdata, s.hostFailed)

/-- No ENGINE step of a command touches what is the HOST's (44_commands.md R244). -/
theorem exec_engine_hostSide (i : Instr) (s u : State) (hturn : s.turn = .engine) (hu : exec i s = .next u) :
    u.hostSide = s.hostSide := by
  rcases exec_engine i s u hturn hu with
    ⟨-, rfl⟩ | ⟨-, rfl⟩ | ⟨-, -, rfl⟩ | ⟨-, rfl⟩ | ⟨-, rfl⟩ | ⟨-, -, rfl⟩ | ⟨-, -, -, -, rfl⟩ | ⟨-, -, rfl⟩ <;> rfl

/-- Settles O44, by what each command's ENGINE step leaves. -/
theorem engineNeverWritesHostRegisters : Obligations.EngineNeverWritesHostRegisters := by
  intro s t hturn hstep
  obtain ⟨u, rfl, hu⟩ := step_engine s t hturn hstep
  have hside : u.hostSide = s.hostSide := by
    rcases hu with rfl | ⟨i, -, hu⟩
    · rfl
    · exact exec_engine_hostSide i s u hturn hu
  simp only [State.hostSide, Prod.mk.injEq] at hside
  obtain ⟨h0, h1, h2, hshadow, henable, herr, hinst, hepoch, hpin, hrdata, hfailed⟩ := hside
  exact ⟨h0, h1, h2, hshadow, henable, herr, hinst, hepoch, hpin, by simp [hturn], hrdata, hfailed⟩

/-! ## What the HOST leaves -/

/-- The voice's state: configuration, note, active copies, envelope generators, oscillators, diagnostics, PREPARED apart
(10_state.md R33, R34, R36, R38, R40, R41, R42, R44). -/
def State.voiceSide (s : State) :=
  (s.fs, s.blockSize, s.channels, s.noteFreq, s.noteVel, s.active, s.live, s.egs, s.osc, s.lastSample, s.lastCutoff, s.sampleCnt,
    s.inst)

/-- The issue of a command touches nothing of the voice, and PREPARED only falls (44_commands.md R230, R231, R233). -/
theorem issue_voiceSide (s : State) (i : Instr) :
    (s.issue i).voiceSide = s.voiceSide ∧ ((s.issue i).prepared = true → s.prepared = true) := by
  obtain ⟨_, _, _, _, _, _, _, _, _, _, _, he, hprepared, -⟩ := issue_eq s i
  rw [he]
  exact ⟨rfl, hprepared⟩

/-- An access touches nothing of the voice (20_memory.md R66, R67). -/
theorem hostAccess_voiceSide (s : State) (op : HostOp) :
    (s.hostAccess op).voiceSide = s.voiceSide ∧ (s.hostAccess op).prepared = s.prepared := by
  obtain ⟨_, _, _, _, _, _, _, _, _, _, _, he, -⟩ := hostAccess_eq s op
  rw [he]
  exact ⟨rfl, rfl⟩

/-- Settles O45, by what the issue of a command and an access leave. -/
theorem hostNeverWritesVoiceState : Obligations.HostNeverWritesVoiceState := by
  intro s t hturn hstep
  obtain ⟨u, rfl, hu⟩ := step_host s t hturn hstep
  have hside : u.voiceSide = s.voiceSide ∧ (u.prepared = true → s.prepared = true) := by
    rcases hu with ⟨i, -, rfl⟩ | rfl | ⟨op, -, rfl⟩ | rfl
    · exact issue_voiceSide s i
    · exact ⟨rfl, id⟩
    · exact ⟨(hostAccess_voiceSide s op).1, (hostAccess_voiceSide s op).2.symm.trans⟩
    · exact ⟨rfl, id⟩
  simp only [State.voiceSide, Prod.mk.injEq] at hside
  obtain ⟨⟨hfs, hbs, hch, hfreq, hvel, hactive, hlive, hegs, hosc, hsample, hcutoff, hcnt, hinst⟩, hprepared⟩ := hside
  exact ⟨hfs, hbs, hch, hfreq, hvel, hactive, hlive, hegs, hosc, hsample, hcutoff, hcnt, hinst, hprepared⟩

/-! ## The register map's rows -/

/-- Every row of the map for single registers is an aligned word below the tables (20_memory.md R65). -/
theorem mapRows_aligned : ∀ p ∈ mapRows, p.1 < 0x0400 ∧ p.1 % 4 = 0 := by decide

/-- What the map finds for an address is a row with that address. -/
theorem mem_of_lookup {l : List (Nat × Reg)} {a : Nat} {r : Reg} (h : l.lookup a = some r) : (a, r) ∈ l := by
  obtain ⟨l₁, l₂, rfl, -⟩ := List.lookup_eq_some_iff.mp h
  simp

/-- A row of the map says which register its address names (20_memory.md R65). -/
theorem regAt_of_row (c : Instance) {a : Nat} {r : Reg} (h : mapRows.lookup a = some r) : regAt c a = some r := by
  have hlt := (mapRows_aligned _ (mem_of_lookup h)).1
  rw [regAt, if_pos hlt, h]

/-- Only its own row names IRQ_STATUS (20_memory.md R65). -/
theorem regAt_irqStatus (c : Instance) (a : Nat) (h : regAt c a = some .irqStatus) : a = 0x0024 := by
  have hrow : ∀ p ∈ mapRows, p.2 = .irqStatus → p.1 = 0x0024 := by decide
  unfold regAt at h
  split at h
  · exact hrow _ (mem_of_lookup h) rfl
  · repeat (split at h; · simp [Option.map_eq_some_iff] at h)
    simp [Option.map_eq_some_iff] at h

/-- A HOST write to a single register's address writes that register (20_memory.md R63, R67). -/
theorem hostAccess_write_row {s : State} (hp : s.resetPin = false) (a : Addr) (r : Reg) (d : Word)
    (h : mapRows.lookup a.toNat = some r) : s.hostAccess (.write a 4 d) = s.writeReg r d := by
  have halign := (mapRows_aligned _ (mem_of_lookup h)).2
  have htarget : s.target a 4 = some r := by
    simp only [State.target, legalAccess, halign, regAt_of_row s.inst h]
    rfl
  simp [State.hostAccess, hp, State.busWrite, htarget]

/-! ## The flags of IRQ_STATUS -/

/-- Every flag that was set is set (10_state.md R29). -/
def FlagsKept (s u : State) : Prop := ∀ f : Flag, s.flag f = true → u.flag f = true

/-- Nothing is cleared where IRQ_STATUS only gains bits. -/
theorem FlagsKept.of_or {s u : State} (m : BitVec 5) (h : u.irqStatus = s.irqStatus ||| m) : FlagsKept s u := by
  intro f hf
  unfold State.flag at *
  simp [h, hf]

/-- Nothing is cleared where IRQ_STATUS stays. -/
theorem FlagsKept.of_eq {s u : State} (h : u.irqStatus = s.irqStatus) : FlagsKept s u :=
  .of_or 0#5 (by simp [h])

/-- No ENGINE step of a command clears a flag (60_exceptions.md R277). -/
theorem exec_engine_flagsKept (i : Instr) (s u : State) (hturn : s.turn = .engine) (hu : exec i s = .next u) :
    FlagsKept s u := by
  rcases exec_engine i s u hturn hu with
    ⟨-, rfl⟩ | ⟨-, rfl⟩ | ⟨-, -, rfl⟩ | ⟨-, rfl⟩ | ⟨-, rfl⟩ | ⟨-, -, rfl⟩ | ⟨-, -, -, -, rfl⟩ | ⟨-, -, rfl⟩
  iterate 5 (· exact .of_or Flag.cmdDone.mask rfl)
  · exact .of_eq rfl
  · by_cases hclip : clips s.sampleSum.2 = true
    · exact .of_or Flag.clip.mask (by simp [hclip])
    · exact .of_eq (by simp [hclip])
  · by_cases hdone : s.voiceFinished = true
    · exact .of_or (Flag.voiceDone.mask ||| Flag.cmdDone.mask) (by simp [hdone, BitVec.or_assoc])
    · exact .of_or Flag.cmdDone.mask (by simp [hdone])

/-- The issue of a command clears no flag (44_commands.md R231, R233). -/
theorem issue_flagsKept (s : State) (i : Instr) : FlagsKept s (s.issue i) := by
  obtain ⟨_, _, _, _, _, _, _, _, _, st, _, he, -, hst⟩ := issue_eq s i
  rw [he]
  rcases hst with rfl | rfl
  · exact .of_eq rfl
  · exact .of_or Flag.cmdErr.mask rfl

/-- A read clears no flag (20_memory.md R66). -/
theorem hostRead_flagsKept (s : State) (a : Addr) (n : Nat) : FlagsKept s (s.hostRead a n) := by
  unfold State.hostRead
  split
  · exact .of_eq rfl
  · unfold State.busRead
    split
    · exact .of_eq rfl
    · exact .of_or Flag.busErr.mask rfl

/-- A write to a register other than IRQ_STATUS clears no flag (20_memory.md R67). -/
theorem writeReg_flagsKept (s : State) (r : Reg) (d : Word) (hr : r ≠ .irqStatus) : FlagsKept s (s.writeReg r d) := by
  cases r
  case irqStatus => exact absurd rfl hr
  case arg i => fin_cases i <;> exact .of_eq rfl
  case cmd | irqEnable | dirty | egShadow | floor | peak | reson | mix1 | mix2 | ratio | out => exact .of_eq rfl
  all_goals exact .of_or Flag.busErr.mask rfl

/-- An acknowledged flag is one whose bit was written as 1 (20_memory.md R67). -/
theorem ackIrq_flag (s : State) (d : Word) (f : Flag) : (s.ackIrq d).flag f = (s.flag f && !d.getLsbD f.bit) := by
  cases f <;> simp [State.flag, State.ackIrq, Flag.bit]

/-- The register of a legal access is the one that its address names (20_memory.md R63). -/
theorem target_eq_some (s : State) (a : Addr) (n : Nat) (r : Reg) :
    s.target a n = some r ↔ (n = 4 ∧ a.toNat % 4 = 0) ∧ regAt s.inst a.toNat = some r := by
  simp [State.target, legalAccess]

/-- An access that clears a flag is a write of 1 to the flag's bit of IRQ_STATUS (20_memory.md R67). -/
theorem hostAccess_clears (s : State) (op : HostOp) (f : Flag) (hs : s.flag f = true) (hu : (s.hostAccess op).flag f = false) :
    ∃ d : Word, op = .write 0x0024#16 4 d ∧ d.getLsbD f.bit = true := by
  have hno (u : State) (hk : FlagsKept s u) (hc : u.flag f = false) : False := by simp [hk f hs] at hc
  cases op with
  | read a n e =>
    cases e <;> exact (hno _ (hostRead_flagsKept s a n) hu).elim
  | poll a m v => exact (hno _ (hostRead_flagsKept s a 4) hu).elim
  | write a n d =>
    simp only [State.hostAccess] at hu
    split at hu
    · exact (hno s (.of_eq rfl) hu).elim
    · unfold State.busWrite at hu
      split at hu
      case h_2 => exact (hno s.busError (.of_or Flag.busErr.mask rfl) hu).elim
      case h_1 r hr =>
        obtain ⟨⟨rfl, -⟩, hreg⟩ := (target_eq_some s a n r).mp hr
        by_cases hirq : r = .irqStatus
        · subst hirq
          have ha : a = 0x0024#16 := BitVec.eq_of_toNat_eq (regAt_irqStatus _ _ hreg)
          have hack : (s.ackIrq d).flag f = false := hu
          rw [ackIrq_flag, hs] at hack
          exact ⟨d, by rw [ha], by simpa using hack⟩
        · exact (hno _ (writeReg_flagsKept s r d hirq) hu).elim

/-- An access that is due is the HOST's next statement (30_encoding.md R96). -/
theorem hostDue_access (s : State) (op : HostOp) (h : s.hostDue = .access op) : s.host.head? = some op := by
  unfold State.hostDue at h
  split at h
  · cases h
  · rename_i hhost
    split at h
    · split at h <;> cases h
    · cases h
      simp [hhost]

/-- Settles O46: only an access to IRQ_STATUS or the reset clears a flag. -/
theorem flagsAreClearedOnlyByTheHost : Obligations.FlagsAreClearedOnlyByTheHost := by
  intro s t f hstep hs ht
  obtain ⟨u, rfl, hu⟩ := step_cases s t hstep
  have hclear : u.flag f = false := ht
  have hno (hk : FlagsKept s u) : False := by simp [hk f hs] at hclear
  rcases hu with
    ⟨-, i, -, rfl⟩ | ⟨-, -, rfl⟩ | ⟨hturn, op, hdue, rfl⟩ | ⟨-, -, rfl⟩ | ⟨-, rfl, -⟩ | ⟨i, hrun, hu⟩ | ⟨hturn, -⟩ | ⟨-, rfl⟩
  · exact (hno (issue_flagsKept s i)).elim
  · exact (hno (.of_or Flag.cmdErr.mask rfl)).elim
  · obtain ⟨d, rfl, hd⟩ := hostAccess_clears s op f hs hclear
    exact .inr ⟨hturn, d, hostDue_access s _ hdue, hd⟩
  · exact (hno (.of_eq rfl)).elim
  · exact (hno (.of_eq rfl)).elim
  · exact (hno (exec_engine_flagsKept i s u hrun.1 hu)).elim
  · exact .inl hturn
  · exact (hno (.of_eq rfl)).elim

/-- A word is not zero exactly when one of its bits is 1. -/
theorem bitVec_ne_zero_iff {w : Nat} (x : BitVec w) : x ≠ 0#w ↔ ∃ i, i < w ∧ x.getLsbD i = true := by
  constructor
  · intro hx
    by_contra hall
    refine hx (BitVec.eq_of_getLsbD_eq fun i hi => ?_)
    have hbit : ¬x.getLsbD i = true := fun hb => hall ⟨i, hi, hb⟩
    simpa using hbit
  · rintro ⟨i, -, hb⟩ rfl
    simp at hb

/-- Settles O41: the conjunction of the two words is not zero exactly when they share a bit. -/
theorem interruptLineIsTheEnabledFlags : Obligations.InterruptLineIsTheEnabledFlags := by
  intro s
  have hirq : s.irq = true ↔ s.irqStatus &&& s.irqEnable ≠ 0#5 := by simp [State.irq]
  rw [hirq, bitVec_ne_zero_iff]
  simp

/-! ## Idle turns -/

/-- A step that is not due changes nothing but the turn. -/
theorem step_of_idle (s : State) (h : s.due = .idle) : step s = .next (s.retire s) := by
  simp [step, h]

/-- Settles O6: nothing is due at either turn. -/
theorem idleTurnsChangeNothing : Obligations.IdleTurnsChangeNothing := by
  constructor
  · intro s hturn hb
    rw [step_of_idle s (by simp [State.due, hturn, State.engineDue, hb])]
    simp [State.retire, hturn]
  · intro s hturn hhost
    rw [step_of_idle s (by simp [State.due, hturn, State.hostDue, hhost])]
    simp [State.retire, hturn, hhost, hostRest]

/-! ## Writes to the control and parameter registers -/

/-- Settles O38: each address is a row of the map, and the register's write rule stores the clamped value. -/
theorem parameterWritesAreClamped : Obligations.ParameterWritesAreClamped := by
  intro s d hp
  exact ⟨
    hostAccess_write_row hp _ (.egShadow .e1 .attack) d rfl,
    hostAccess_write_row hp _ (.egShadow .e1 .decay) d rfl,
    hostAccess_write_row hp _ (.egShadow .e1 .sustain) d rfl,
    hostAccess_write_row hp _ (.egShadow .e1 .release) d rfl,
    hostAccess_write_row hp _ (.egShadow .e2 .attack) d rfl,
    hostAccess_write_row hp _ (.egShadow .e2 .decay) d rfl,
    hostAccess_write_row hp _ (.egShadow .e2 .sustain) d rfl,
    hostAccess_write_row hp _ (.egShadow .e2 .release) d rfl,
    hostAccess_write_row hp _ (.egShadow .e3 .attack) d rfl,
    hostAccess_write_row hp _ (.egShadow .e3 .decay) d rfl,
    hostAccess_write_row hp _ (.egShadow .e3 .sustain) d rfl,
    hostAccess_write_row hp _ (.egShadow .e3 .release) d rfl,
    hostAccess_write_row hp _ .floor d rfl,
    hostAccess_write_row hp _ .peak d rfl,
    hostAccess_write_row hp _ .reson d rfl,
    hostAccess_write_row hp _ .mix1 d rfl,
    hostAccess_write_row hp _ .mix2 d rfl,
    hostAccess_write_row hp _ .ratio d rfl⟩

/-- Settles O40: each address is a row of the map, and the write takes the low five bits or adds them. -/
theorem controlRegisterWrites : Obligations.ControlRegisterWrites := by
  intro s d hp
  refine ⟨hostAccess_write_row hp _ (.arg 0) d rfl, hostAccess_write_row hp _ (.arg 1) d rfl,
    hostAccess_write_row hp _ (.arg 2) d rfl, d.extractLsb' 0 5, s.dirty ||| d.extractLsb' 0 5,
    hostAccess_write_row hp _ .irqEnable d rfl, hostAccess_write_row hp _ .dirty d rfl, fun i hi => ?_⟩
  simp [hi]

end Sys2Proof.Machine
end

section
/-! SUPPORT. The bus as the HOST sees it: what an illegal access does, what a write to a read-only register does, and the register
map as one equivalence. -/

namespace Sys2Proof.Machine

/-! ## Accesses -/

/-- An access names no register exactly when it is illegal or its address is unmapped (20_memory.md R63, R65). -/
theorem target_eq_none (s : State) (a : Addr) (n : Nat) :
    s.target a n = none ↔ n ≠ 4 ∨ a.toNat % 4 ≠ 0 ∨ regAt s.inst a.toNat = none := by
  by_cases hlegal : legalAccess a n = true
  · obtain ⟨rfl, ha⟩ : n = 4 ∧ a.toNat % 4 = 0 := by simpa [legalAccess] using hlegal
    simp [State.target, hlegal, ha]
  · have hbad : n ≠ 4 ∨ a.toNat % 4 ≠ 0 := by simpa [legalAccess, ← imp_iff_not_or] using hlegal
    simp only [State.target, if_neg hlegal, true_iff]
    exact hbad.imp_right .inl

/-- The address of a single register names it (20_memory.md R65). -/
theorem target_of_row (s : State) (a : Addr) {r : Reg} (h : mapRows.lookup a.toNat = some r) : s.target a 4 = some r :=
  (target_eq_some s a 4 r).mpr ⟨⟨rfl, (mapRows_aligned _ (mem_of_lookup h)).2⟩, regAt_of_row s.inst h⟩

/-- A HOST write that names a register writes it (20_memory.md R67). -/
theorem hostAccess_write_of_target {s : State} (hp : s.resetPin = false) {a : Addr} {n : Nat} {r : Reg}
    (h : s.target a n = some r) (d : Word) : s.hostAccess (.write a n d) = s.writeReg r d := by
  simp [State.hostAccess, hp, State.busWrite, h]

/-- A HOST read that names a register returns its value, and nothing else changes (20_memory.md R66). -/
theorem hostAccess_read_of_target {s : State} (hp : s.resetPin = false) {a : Addr} {n : Nat} {r : Reg}
    (h : s.target a n = some r) : s.hostAccess (.read a n none) = { s with rdata := s.readReg r } := by
  simp [State.hostAccess, State.hostRead, hp, State.busRead, h]

/-- A HOST write that names no register is a bus error (20_memory.md R63, R68). -/
theorem hostAccess_write_of_no_target {s : State} (hp : s.resetPin = false) {a : Addr} {n : Nat}
    (h : s.target a n = none) (d : Word) : s.hostAccess (.write a n d) = s.busError := by
  simp [State.hostAccess, hp, State.busWrite, h]

/-- A HOST read that names no register is a bus error and returns 0 (20_memory.md R63, R66). -/
theorem hostAccess_read_of_no_target {s : State} (hp : s.resetPin = false) {a : Addr} {n : Nat}
    (h : s.target a n = none) : s.hostAccess (.read a n none) = { s.busError with rdata := 0#32 } := by
  simp [State.hostAccess, State.hostRead, hp, State.busRead, h]

/-- A bus error sets bit 4 of IRQ_STATUS and nothing else (60_exceptions.md R272). -/
theorem busError_eq (s : State) : s.busError = { s with irqStatus := s.irqStatus ||| 0x10#5 } := rfl

/-- A write to a read-only register is a bus error (20_memory.md R67, R82). -/
theorem writeReg_of_ro (s : State) (r : Reg) (d : Word) (h : r.access = .ro) : s.writeReg r d = s.busError := by
  cases r
  case cmd | arg | irqStatus | irqEnable | dirty | egShadow | floor | peak | reson | mix1 | mix2 | ratio | out =>
    simp [Reg.access] at h
  all_goals rfl

/-- Settles O33: such an access names no register. -/
theorem illegalAccessOnlySetsBusErr : Obligations.IllegalAccessOnlySetsBusErr := by
  intro s a n d hp hbad
  have hnone := (target_eq_none s a n).mpr hbad
  exact ⟨hostAccess_write_of_no_target hp hnone d, hostAccess_read_of_no_target hp hnone⟩

/-- Settles O34: a legal write to a register of access RO is a bus error. -/
theorem readOnlyWriteOnlySetsBusErr : Obligations.ReadOnlyWriteOnlySetsBusErr := by
  intro s a d r hp ht hro
  rw [hostAccess_write_of_target hp ht, writeReg_of_ro s r d hro, busError_eq]

/-- Settles O39: the address is IRQ_STATUS's row of the map, and a bit stays where the word written has a 0. -/
theorem irqStatusIsWriteOneToClear : Obligations.IrqStatusIsWriteOneToClear := by
  intro s d hp
  refine ⟨s.irqStatus &&& ~~~(d.extractLsb' 0 5), hostAccess_write_row hp _ .irqStatus d rfl, fun i hi => ?_⟩
  simp [hi]

/-! ## The register map -/

/-- The register exists under BLOCK_MAX and CH_MAX: every one does but the words of OUTBUF outside them (20_memory.md R65, R80). -/
def Reg.present (c : Instance) : Reg → Prop
  | .out ch i => ch < c.chMax ∧ i < c.blockMax
  | _ => True

/-- The map's two tables agree on the single registers (20_memory.md R65). -/
theorem regAddr_of_row (c : Instance) : ∀ p ∈ mapRows, regAddr c p.2 = p.1 := by
  have hmap : mapRows.map (fun p => regAddr c p.2) = mapRows.map Prod.fst := rfl
  exact List.map_inj_left.mp hmap

/-- The address of the word at an index of an array (20_memory.md R65). -/
theorem arrayIndex_eq_some_iff {base n a : Nat} {i : Fin n} (hbase : base % 4 = 0) :
    arrayIndex base n a = some i ↔ base + 4 * i.val = a := by
  rw [arrayIndex_eq_some]
  omega

/-- An address that names a register is that register's address (20_memory.md R65, R80). -/
theorem regAddr_of_regAt {c : Instance} {a : Nat} {r : Reg} (h : regAt c a = some r) : regAddr c r = a := by
  have hreg := h
  unfold regAt at h
  split at h
  · exact regAddr_of_row c _ (mem_of_lookup h)
  iterate 7
    split at h
    · obtain ⟨i, hi, rfl⟩ := Option.map_eq_some_iff.mp h
      exact (arrayIndex_eq_some_iff rfl).mp hi
  · obtain ⟨i, -, rfl⟩ := Option.map_eq_some_iff.mp h
    exact (regAt_out c a _ _ hreg).1.symm

/-- A register that an address names exists (20_memory.md R80). -/
theorem present_of_regAt {c : Instance} {a : Nat} {r : Reg} (h : regAt c a = some r) : r.present c := by
  cases r
  case out ch i => exact (regAt_out c a ch i h).2.symm
  all_goals trivial

/-- The address of a register that exists names it (20_memory.md R65, R80). -/
theorem regAt_regAddr {c : Instance} {r : Reg} (h : r.present c) : regAt c (regAddr c r) = some r := by
  cases r
  case out ch i => exact regAt_outAddr c ch i h.2 h.1
  case arg i => fin_cases i <;> exact regAt_of_row c rfl
  case egShadow e p | egActive e p | egState e p => cases e <;> cases p <;> exact regAt_of_row c rfl
  case' phase j k | inc j k => cases j
  case saw k | sqr k | sine k | phase.l1 | phase.l2 | inc.l1 | inc.l2 =>
    generalize ha : regAddr c _ = a
    rw [regAddr] at ha
    unfold regAt
    repeat rw [if_neg (by omega)]
    rw [if_pos (by omega), (arrayIndex_eq_some_iff rfl).mpr ha]
    rfl
  all_goals exact regAt_of_row c rfl

/-- The register map as one equivalence (20_memory.md R65, R80). -/
theorem regAt_eq_some_iff (c : Instance) (a : Nat) (r : Reg) : regAt c a = some r ↔ regAddr c r = a ∧ r.present c := by
  constructor
  · exact fun h => ⟨regAddr_of_regAt h, present_of_regAt h⟩
  · rintro ⟨rfl, h⟩
    exact regAt_regAddr h

/-- Settles O35: the address table and the map are each other's inverse. -/
theorem registerMapIsExact : Obligations.RegisterMapIsExact := by
  intro c a r _ _
  rw [regAt_eq_some_iff]
  rfl

end Sys2Proof.Machine
end

section
/-! SUPPORT. What a legal read of each register returns, by its address: the numbers in its fields. -/

namespace Sys2Proof.Machine

/-! ## Reads -/

/-- No register's value depends on what the HOST last read (20_memory.md R66). -/
theorem readReg_rdata (s : State) (v : Word) (r : Reg) : State.readReg { s with rdata := v } r = s.readReg r := by
  cases r
  case arg i => fin_cases i <;> rfl
  all_goals rfl

/-- A read that names a register, taken twice, is the same as once (20_memory.md R69). -/
theorem hostAccess_read_again {s : State} (hp : s.resetPin = false) {a : Addr} {n : Nat} {r : Reg} (h : s.target a n = some r) :
    (s.hostAccess (.read a n none)).hostAccess (.read a n none) = s.hostAccess (.read a n none) := by
  rw [hostAccess_read_of_target hp h]
  exact (hostAccess_read_of_target (s := { s with rdata := s.readReg r }) hp h).trans
    (congrArg (fun v => { s with rdata := v }) (readReg_rdata s _ r))

/-- A HOST read of a single register's address returns its value, and nothing else changes (20_memory.md R66). -/
theorem hostAccess_read_row {s : State} (hp : s.resetPin = false) (a : Addr) (r : Reg) (h : mapRows.lookup a.toNat = some r) :
    s.hostAccess (.read a 4 none) = { s with rdata := s.readReg r } :=
  hostAccess_read_of_target hp (target_of_row s a h)

/-- OUTBUF has at most 8192 words (00_scope.md R6). -/
theorem Instance.size_le {c : Instance} (h : c.wf = true) : c.chMax * c.blockMax ≤ 8192 := by
  have hsize : c.sizeOk = true := (Bool.and_eq_true_iff.mp h).2
  simpa [Instance.sizeOk] using hsize

/-- Every register that exists has an aligned address of 16 bits (20_memory.md R63, R65, R80). -/
theorem regAddr_legal {c : Instance} (hc : c.wf = true) {r : Reg} (h : r.present c) :
    regAddr c r % 4 = 0 ∧ regAddr c r < 65536 := by
  cases r
  case out ch i =>
    have hend := (outAddr_inside c ch i h.1 h.2).2
    have hsize := Instance.size_le hc
    simp only [regAddr, outAddr] at hend ⊢
    omega
  case egShadow e p | egActive e p => cases e <;> cases p <;> simp [regAddr, egBase, EgParam.offset]
  case egState e f => cases e <;> cases f <;> simp [regAddr, egBase, EgField.offset]
  case phase j k | inc j k => cases j <;> simp only [regAddr] <;> omega
  case arg | saw | sqr | sine => simp only [regAddr]; omega
  all_goals simp [regAddr]

/-- The access at a register's address names it (20_memory.md R65, R80). -/
theorem target_regAddr (s : State) (hs : s.inst.wf = true) {r : Reg} (h : r.present s.inst) :
    s.target (BitVec.ofNat 16 (regAddr s.inst r)) 4 = some r := by
  obtain ⟨halign, hlt⟩ := regAddr_legal hs h
  have hto : (BitVec.ofNat 16 (regAddr s.inst r)).toNat = regAddr s.inst r := by
    rw [BitVec.toNat_ofNat, Nat.mod_eq_of_lt hlt]
  rw [target_eq_some, hto]
  exact ⟨⟨rfl, halign⟩, regAt_regAddr h⟩

/-- The word at a register's address is the register's value (20_memory.md R66). -/
theorem wordAt_regAddr {s : State} (hp : s.resetPin = false) (hs : s.inst.wf = true) (r : Reg) (h : r.present s.inst) :
    s.wordAt (regAddr s.inst r) = s.readReg r :=
  congrArg State.rdata (hostAccess_read_of_target hp (target_regAddr s hs h))

/-- A register of at most 32 bits reads as its own number: it is zero-extended (20_memory.md R65). -/
theorem wordAt_toNat {s : State} (hp : s.resetPin = false) (hs : s.inst.wf = true) (r : Reg) (h : r.present s.inst) {w : Nat}
    (x : BitVec w) (hx : s.readReg r = x.setWidth 32) (hw : w ≤ 32) : (s.wordAt (regAddr s.inst r)).toNat = x.toNat := by
  rw [wordAt_regAddr hp hs r h, hx, BitVec.toNat_setWidth_of_le hw]

/-- The shadow parameters of one envelope generator, read at their addresses (20_memory.md R65). -/
theorem wordAt_egShadow {s : State} (hp : s.resetPin = false) (hs : s.inst.wf = true) (e : EgId) (p : EgParam) :
    (s.wordAt (egBase e + p.offset)).toNat = ((s.shadow.eg e).get p).toNat :=
  wordAt_toNat hp hs (.egShadow e p) trivial _ rfl (by decide)

/-- The active copies of one envelope generator, read at their addresses (20_memory.md R65). -/
theorem wordAt_egActive {s : State} (hp : s.resetPin = false) (hs : s.inst.wf = true) (e : EgId) (p : EgParam) :
    (s.wordAt (egBase e + 0x10 + p.offset)).toNat = ((s.live.eg e).get p).toNat :=
  wordAt_toNat hp hs (.egActive e p) trivial _ rfl (by decide)

/-- The state of one envelope generator, read at its addresses (10_state.md R42, 20_memory.md R65). -/
theorem wordAt_egState {s : State} (hp : s.resetPin = false) (hs : s.inst.wf = true) (e : EgId) :
    (s.wordAt (egBase e + 0x20)).toNat = (s.egs.get e).stage.code.toNat ∧
      (s.wordAt (egBase e + 0x24)).toNat = (s.egs.get e).level.toNat ∧
      s.wordAt (egBase e + 0x28) = (s.egs.get e).elapsed ∧
      (s.wordAt (egBase e + 0x2C)).toNat = (s.egs.get e).start.toNat :=
  ⟨wordAt_toNat hp hs (.egState e .stage) trivial _ rfl (by decide),
    wordAt_toNat hp hs (.egState e .level) trivial _ rfl (by decide),
    wordAt_regAddr hp hs (.egState e .elapsed) trivial,
    wordAt_toNat hp hs (.egState e .start) trivial _ rfl (by decide)⟩

/-- No entry of the quarter wave is above 32767 (40_oscillator.md R118). -/
theorem quarterWave_le (i : Nat) : quarterWave i ≤ 32767 := by
  have hrows : ∀ row ∈ qwRows, ∀ v ∈ row, v ≤ 32767 := by decide
  have hrow : ∀ v ∈ qwRows.getD (i / 16) [], v ≤ 32767 := by
    rw [List.getD_eq_getElem?_getD]
    cases h : qwRows[i / 16]?
    case none => simp
    case some row => exact hrows row (List.mem_of_getElem? h)
  unfold quarterWave
  rw [List.getD_eq_getElem?_getD]
  cases h : (qwRows.getD (i / 16) [])[i % 16]?
  case none => simp
  case some v => exact hrow v (List.mem_of_getElem? h)

/-- Every entry of the sine table is a 16-bit number (40_oscillator.md R118). -/
theorem sineLut_bounds (i : Nat) : -32767 ≤ sineLut i ∧ sineLut i ≤ 32767 := by
  have hhalf (j : Nat) : 0 ≤ halfWave j ∧ halfWave j ≤ 32767 := by
    have := quarterWave_le j
    have := quarterWave_le (2048 - j)
    unfold halfWave
    split <;> omega
  have := hhalf i
  have := hhalf (i - 2048)
  unfold sineLut
  split <;> omega

/-- The sine table reads sign-extended (20_memory.md R65, 40_oscillator.md R117). -/
theorem wordAt_sine {s : State} (hp : s.resetPin = false) (hs : s.inst.wf = true) (i : Nat) (hi : i < 4096) :
    (s.wordAt (0x4000 + 4 * i)).toInt = sineLut i := by
  obtain ⟨hlo, hhi⟩ := sineLut_bounds i
  have hread : s.wordAt (0x4000 + 4 * i) = s32 (sineLut i) := wordAt_regAddr hp hs (.sine ⟨i, hi⟩) trivial
  rw [hread, toInt_s32 _ (by omega) (by omega)]

/-- A word of OUTBUF has its bytes in rising order, least significant first (20_memory.md R62). -/
theorem Memory.byteOfWord_word (m : Memory) (e a b : Nat) (hb : b < 4) : byteOfWord (m.word e a) b = m.byte e (a + b) := by
  have hbytes := bytesOfWord_wordOfBytes (m.byte e a) (m.byte e (a + 1)) (m.byte e (a + 2)) (m.byte e (a + 3))
  simp only [bytesOfWord, List.cons.injEq, and_true] at hbytes
  obtain ⟨h0, h1, h2, h3⟩ := hbytes
  obtain rfl | rfl | rfl | rfl : b = 0 ∨ b = 1 ∨ b = 2 ∨ b = 3 := by omega
  · exact h0
  · exact h1
  · exact h2
  · exact h3

/-- Settles O36: a read of a register leaves what the register's value depends on, and each address is that of a register. -/
theorem readsHaveNoSideEffect : Obligations.ReadsHaveNoSideEffect := by
  refine ⟨fun s a r hp ht => ?_, fun s hp hs => ?_⟩
  · exact ⟨hostAccess_read_of_target hp ht, hostAccess_read_again hp ht⟩
  · have word (r : Reg) (h : r.present s.inst) : s.wordAt (regAddr s.inst r) = s.readReg r := wordAt_regAddr hp hs r h
    have num (r : Reg) (h : r.present s.inst) {w : Nat} (x : BitVec w) (hx : s.readReg r = x.setWidth 32) (hw : w ≤ 32) :
        (s.wordAt (regAddr s.inst r)).toNat = x.toNat := wordAt_toNat hp hs r h x hx hw
    refine ⟨⟨word (.arg 0) trivial, word (.arg 1) trivial, word (.arg 2) trivial⟩,
      ⟨num .irqStatus trivial _ rfl (by decide), num .irqEnable trivial _ rfl (by decide), num .dirty trivial _ rfl (by decide)⟩,
      ⟨word .fs trivial, word .blockSize trivial, word .channels trivial⟩,
      ⟨word .noteFreq trivial, word .noteVel trivial⟩,
      ⟨word .lastSample trivial, word .lastCutoff trivial, word .sampleCnt trivial⟩,
      ?egs,
      ⟨word .floor trivial, word .peak trivial, word .reson trivial⟩,
      ⟨word .floorA trivial, word .peakA trivial, word .resonA trivial⟩,
      ⟨num .mix1 trivial _ rfl (by decide), num .mix2 trivial _ rfl (by decide), word .ratio trivial⟩,
      ⟨num .mix1A trivial _ rfl (by decide), num .mix2A trivial _ rfl (by decide), word .ratioA trivial⟩,
      fun k => ⟨word (.saw k) trivial, word (.sqr k) trivial, word (.phase .l1 k) trivial, word (.phase .l2 k) trivial,
        word (.inc .l1 k) trivial, word (.inc .l2 k) trivial⟩,
      wordAt_sine hp hs,
      ?out⟩
    case egs =>
      intro b sh ac g hb
      obtain ⟨e, rfl, rfl, rfl, rfl⟩ : ∃ e, b = egBase e ∧ sh = s.shadow.eg e ∧ ac = s.live.eg e ∧ g = s.egs.get e := by
        rcases hb with hb | hb | hb
        · exact ⟨.e1, hb⟩
        · exact ⟨.e2, hb⟩
        · exact ⟨.e3, hb⟩
      have shadow := wordAt_egShadow hp hs e
      have live := wordAt_egActive hp hs e
      obtain ⟨hstage, hlevel, helapsed, hstart⟩ := wordAt_egState hp hs e
      refine ⟨⟨shadow .attack, shadow .decay, shadow .sustain, shadow .release⟩,
        ⟨live .attack, live .decay, live .sustain, live .release⟩, ?_, hlevel, helapsed, hstart⟩
      rw [hstage]
      cases (s.egs.get e).stage <;> rfl
    case out =>
      intro ch i hch hi b hb
      have hword : s.wordAt (0x8000 + 4 * (ch * s.inst.blockMax + i)) = s.out ch i := word (.out ch i) ⟨hch, hi⟩
      rw [hword]
      exact Memory.byteOfWord_word _ _ _ b hb

/-! ## Identification and status -/

/-- The number of two words put side by side. -/
theorem toNat_append_eq_add {m n : Nat} (x : BitVec m) (y : BitVec n) : (x ++ y).toNat = x.toNat * 2 ^ n + y.toNat := by
  rw [BitVec.toNat_append, ← Nat.shiftLeft_add_eq_or_of_lt y.isLt, Nat.shiftLeft_eq]

/-- PARAMS in numbers (20_memory.md R64). -/
theorem paramsWord_toNat (c : Instance) :
    (paramsWord c).toNat = c.blockMax % 2 ^ 16 * 2 ^ 16 + c.chMax % 2 ^ 8 * 2 ^ 8 + 24 := by
  simp only [paramsWord, toNat_append_eq_add, BitVec.toNat_ofNat]
  omega

/-- STATUS in numbers (10_state.md R27). -/
theorem statusWord_toNat (s : State) :
    s.statusWord.toNat =
      s.busy.toNat + 2 * s.prepared.toNat + 4 * s.active.toNat + 8 * s.abortReq.toNat + 256 * s.errCode.code.toNat := by
  simp only [State.statusWord, toNat_append_eq_add, BitVec.toNat_ofBool, BitVec.toNat_ofNat]
  omega

/-- Settles O37: each address is a row of the map, and the two words are the numbers in their fields. -/
theorem statusAndIdentificationRead : Obligations.StatusAndIdentificationRead := by
  intro s hp
  have word (a : Addr) (r : Reg) (h : mapRows.lookup a.toNat = some r) :
      (s.hostAccess (.read a 4 none)).rdata = s.readReg r := congrArg State.rdata (hostAccess_read_row hp a r h)
  refine ⟨word _ .id rfl, word _ .version rfl, ?params, word _ .cmd rfl, ?status⟩
  case params =>
    rw [word _ .params rfl]
    exact paramsWord_toNat s.inst
  case status =>
    rw [word _ .status rfl]
    refine (statusWord_toNat s).trans ?_
    cases s.errCode <;> rfl

end Sys2Proof.Machine
end

section
/-! SUPPORT. A HOST write to a word of OUTBUF, its two orders with the sample step that accumulates into the word, and the
argument registers, which no ENGINE step reads. -/

namespace Sys2Proof.Machine

/-! ## Writes to OUTBUF -/

/-- A HOST write to OUT[c][i] stores the word there (20_memory.md R67, R80). -/
theorem hostAccess_write_out {s : State} (hp : s.resetPin = false) (hs : s.inst.wf = true) {ch i : Nat}
    (hch : ch < s.inst.chMax) (hi : i < s.inst.blockMax) (d : Word) :
    s.hostAccess (.write (BitVec.ofNat 16 (outAddr s.inst ch i)) 4 d) = s.setOut ch i d :=
  hostAccess_write_of_target hp (target_regAddr s hs (r := .out ch i) ⟨hch, hi⟩) d

/-- OUT[c][i] reads as the word just stored there (20_memory.md R62). -/
theorem out_setOut_self (s : State) (ch i : Nat) (d : Word) (hm : Memory.wf s.outbuf) : (s.setOut ch i d).out ch i = d :=
  Memory.word_putWord_self s.outbuf s.epoch (outAddr s.inst ch i) d hm

/-- A byte of OUTBUF after a word was stored: one of the word's, or what was there (20_memory.md R62). -/
theorem outByte_setOut (s : State) (ch i b : Nat) (d : Word) (hm : Memory.wf s.outbuf) :
    (s.setOut ch i d).outByte b =
      if outAddr s.inst ch i ≤ b ∧ b < outAddr s.inst ch i + 4 then byteOfWord d (b - outAddr s.inst ch i) else s.outByte b :=
  Memory.byte_putWord s.outbuf s.epoch (outAddr s.inst ch i) b d hm

/-- Settles O42: the write is the store of one word, and the bytes of OUTBUF after it are known. -/
theorem outbufWriteStoresOneWord : Obligations.OutbufWriteStoresOneWord := by
  intro s ch i d hp hs hch hi hm
  refine ⟨s.setOut ch i d, hostAccess_write_out hp hs hch hi d, rfl, Memory.putWord_wf _ _ _ hm, out_setOut_self s ch i d hm,
    fun b hb => ?_, fun a ha => ?_⟩
  · change (s.setOut ch i d).outByte (outAddr s.inst ch i + b) = byteOfWord d b
    rw [outByte_setOut s ch i _ d hm, if_pos ⟨by omega, by omega⟩, Nat.add_sub_cancel_left]
  · change a < outAddr s.inst ch i ∨ outAddr s.inst ch i + 4 ≤ a at ha
    rw [outByte_setOut s ch i _ d hm, if_neg (by omega)]

/-! ## A HOST write against a sample step -/

/-- The HOST's step when its next statement writes OUT[c][i] (20_memory.md R72, R80). -/
theorem step_host_write_out {s : State} {ops : List HostOp} {ch i : Nat} {d : Word} (hturn : s.turn = .host)
    (hp : s.resetPin = false) (hs : s.inst.wf = true) (hch : ch < s.inst.chMax) (hi : i < s.inst.blockMax)
    (hhost : s.host = .write (BitVec.ofNat 16 (outAddr s.inst ch i)) 4 d :: ops) :
    step s = .next (s.retire (s.setOut ch i d)) := by
  have hne : BitVec.ofNat 16 (outAddr s.inst ch i) ≠ cmdAddr := by
    intro he
    have hout : s.target cmdAddr 4 = some (.out ch i) := he ▸ target_regAddr s hs (r := .out ch i) ⟨hch, hi⟩
    have hcmd : s.target cmdAddr 4 = some .cmd := target_of_row s cmdAddr rfl
    simp [hout] at hcmd
  have hdue : s.due = .access (.write (BitVec.ofNat 16 (outAddr s.inst ch i)) 4 d) := by
    simp [State.due, hturn, State.hostDue, hhost, State.commandWord, hne]
  simp only [step, hdue, hostAccess_write_out hp hs hch hi]

/-- A step that is due for a command is what the command does (20_memory.md R72). -/
theorem step_of_command {s : State} {i : Instr} (h : s.due = .command i) : step s = retired s (exec i s) := by
  simp only [step, h]

/-- The ENGINE's step of the command in progress is what the command does (44_commands.md R234). -/
theorem step_of_engineRuns {s u : State} {i : Instr} (hrun : s.engineRuns i) (hu : exec i s = .next u) :
    step s = .next (s.retire u) := by
  obtain ⟨hturn, hb, hp, hcmd⟩ := hrun
  have hdue : s.due = .command i := by
    simp only [State.due, hturn]
    exact (engineDue_command s i).mpr ⟨hb, hp, hcmd⟩
  rw [step_of_command hdue, hu]
  rfl

/-- A RENDER_BLOCK in progress that is about to produce a sample (44_commands.md R241). -/
structure Sampling (s : State) : Prop where
  inv : Inv s
  busy : s.busy = true
  noAbort : s.abortReq = false
  command : s.curCmd = 0x05#8
  phase : s.rbPhase = .sample

/-- While a command is in progress the reset input is released (70_reset_and_hazards.md R300). -/
theorem Sampling.released {s : State} (h : Sampling s) : s.resetPin = false := by
  by_contra hp
  have hidle := h.inv.resetIdle (by simpa using hp)
  simp [h.busy] at hidle

/-- The sample's words exist: a render stays inside its block, and the block inside OUTBUF (44_commands.md R230, R241). -/
theorem Sampling.inside {s : State} (h : Sampling s) : s.sampleIndex < s.inst.blockMax ∧ s.channels.toNat ≤ s.inst.chMax := by
  obtain ⟨hprepared, hfit, hsample⟩ := h.inv.rendering h.busy h.command
  obtain ⟨-, -, hblock, -, hch⟩ := h.inv.configured hprepared
  have hlt := (hsample h.phase).1
  exact ⟨by unfold State.sampleIndex; omega, hch⟩

/-- At the ENGINE's turn such a RENDER_BLOCK takes its SAMPLE step (44_commands.md R241). -/
theorem Sampling.step {s : State} (h : Sampling s) (hturn : s.turn = .engine) :
    Machine.step s = .next (s.retire s.renderSample) := by
  have hcmd : s.engineCommand = some .renderBlock :=
    (engineCommand_eq_some s _).mpr (.inr ⟨h.noAbort, nofun, h.command⟩)
  have hgain : s.gainDefined = true := gainDefined_of_ok s h.inv.spec.live h.inv.spec.egs
  have hin : s.insideOutbuf = true := by simp [State.insideOutbuf, h.inside]
  refine step_of_engineRuns ⟨hturn, h.busy, h.released, hcmd⟩ ?_
  simp [exec, execRenderBlock, hturn, h.phase, hgain, hin]

/-- A HOST write to OUTBUF leaves the RENDER_BLOCK where it is (44_commands.md R241). -/
theorem Sampling.retire_setOut {s : State} (h : Sampling s) {ch i : Nat} {d : Word}
    (hstep : Machine.step s = .next (s.retire (s.setOut ch i d))) : Sampling (s.retire (s.setOut ch i d)) :=
  ⟨everyStepKeepsTheInvariant _ _ h.inv hstep, h.busy, h.noAbort, h.command, h.phase⟩

/-- A sample step leaves in its word of each channel the saturated sum of what was there and the sample (43_render.md R209). -/
theorem out_renderSample {s : State} (hm : Memory.wf s.outbuf) {ch : Nat} (hch : ch < s.channels.toNat)
    (hi : s.sampleIndex < s.inst.blockMax) :
    (s.renderSample.out ch s.sampleIndex).toInt =
      min (max ((s.out ch s.sampleIndex).toInt + s.renderSample.lastSample.toInt) (-2 ^ 31)) (2 ^ 31 - 1) := by
  have hword : s.renderSample.out ch s.sampleIndex = accumulated (s.out ch s.sampleIndex) (sat32 s.sampleSum.2) :=
    word_accumulateOut_of_mem _ _ _ _ _ _ _ hm hi List.nodup_range (List.mem_range.mpr hch)
  have hlast : s.renderSample.lastSample.toInt = sat32 s.sampleSum.2 := toInt_s32_sat32 _
  rw [hword, hlast]
  exact toInt_s32_sat32 _

/-- Two steps, each with its next state, are a run of two. -/
theorem run_two {s u t : State} (h1 : step s = .next u) (h2 : step u = .next t) : Sys2Proof.core.run 2 s = .next t := by
  rw [run_succ_of_step 1 s u h1, run_succ_of_step 0 u t h2]
  rfl

section
variable {s : State} (h : Sampling s) {ch : Nat} (hch : ch < s.channels.toNat) {d : Word} {ops : List HostOp} {l : List Turn}
  (hhost : s.host = .write (BitVec.ofNat 16 (outAddr s.inst ch s.sampleIndex)) 4 d :: ops)
include h hch hhost

/-- With the HOST's turn first, the word ends as the saturated sum of the value written and the sample (20_memory.md R81). -/
theorem Sampling.write_then_sample (hturns : s.sched = .host :: .engine :: l) :
    ∃ t, Sys2Proof.core.run 2 s = Host.Outcome.next t ∧ (t.host = ops ∧ t.sched = l ∧ t.rbI = s.rbI + 1#32) ∧
      t.lastSample = s.renderSample.lastSample ∧
      (t.out ch s.sampleIndex).toInt = min (max (d.toInt + t.lastSample.toInt) (-2 ^ 31)) (2 ^ 31 - 1) := by
  obtain ⟨hi, hchs⟩ := h.inside
  have hturn : s.turn = .host := by simp [State.turn, hturns]
  have hwrite := step_host_write_out hturn h.released h.inv.inst (hch.trans_le hchs) hi hhost
  have hw := h.retire_setOut hwrite
  have hturn' : (s.retire (s.setOut ch s.sampleIndex d)).turn = .engine := by simp [State.turn, hturns]
  refine ⟨_, run_two hwrite (hw.step hturn'), ⟨?_, ?_, rfl⟩, rfl, ?_⟩
  · simp [hturn, hturn', hhost, hostRest]
  · simp [hturns]
  · have hsum := out_renderSample hw.inv.memory hch hi
    rw [show (s.retire (s.setOut ch s.sampleIndex d)).out ch (s.retire (s.setOut ch s.sampleIndex d)).sampleIndex = d from
      out_setOut_self s ch s.sampleIndex d h.inv.memory] at hsum
    exact hsum

/-- With the ENGINE's turn first, the word ends as the value written (20_memory.md R81). -/
theorem Sampling.sample_then_write (hturns : s.sched = .engine :: .host :: l) :
    ∃ u, Sys2Proof.core.run 2 s = Host.Outcome.next u ∧ (u.host = ops ∧ u.sched = l ∧ u.rbI = s.rbI + 1#32) ∧
      u.lastSample = s.renderSample.lastSample ∧ u.out ch s.sampleIndex = d := by
  obtain ⟨hi, hchs⟩ := h.inside
  have hturn : s.turn = .engine := by simp [State.turn, hturns]
  have hturn' : (s.retire s.renderSample).turn = .host := by simp [State.turn, hturns]
  have hhost' : (s.retire s.renderSample).host = .write (BitVec.ofNat 16 (outAddr s.inst ch s.sampleIndex)) 4 d :: ops := by
    simp [hturn, hhost]
  have hwrite := step_host_write_out hturn' h.released h.inv.inst (hch.trans_le hchs) hi hhost'
  refine ⟨_, run_two (h.step hturn) hwrite, ⟨?_, ?_, rfl⟩, rfl, ?_⟩
  · rw [State.retire_host, if_pos hturn', hhost']
    rfl
  · simp [hturns]
  · exact out_setOut_self (s.retire s.renderSample) ch s.sampleIndex d (accumulateOut_wf _ _ _ _ _ _ h.inv.memory)

end

/-- The order of the turns is nothing that a RENDER_BLOCK in progress depends on. -/
theorem Sampling.withSched {s : State} (h : Sampling s) (l : List Turn) : Sampling { s with sched := l } := by
  obtain ⟨v, c⟩ := (inv_iff s).mp h.inv
  exact ⟨(inv_iff _).mpr ⟨{ v with }, { c with }⟩, h.busy, h.noAbort, h.command, h.phase⟩

/-- Settles O43: the HOST's step stores the word and the sample step adds to it, in either order. -/
theorem outbufRaceHasBothOutcomes : Obligations.OutbufRaceHasBothOutcomes := by
  intro s ch d ops l hinv hb ha hc hph hch hhost
  have h : Sampling s := ⟨hinv, hb, ha, hc, hph⟩
  obtain ⟨t, ht, hrest, hlast, hsum⟩ := (h.withSched (.host :: .engine :: l)).write_then_sample hch hhost rfl
  obtain ⟨u, hu, hrest', hlast', hout⟩ := (h.withSched (.engine :: .host :: l)).sample_then_write hch hhost rfl
  exact ⟨t, u, ht, hu, hrest, hrest', hlast'.trans hlast.symm, hsum, hout⟩

/-! ## The argument registers -/

/-- The state with other values in ARG0..ARG2 (10_state.md R21). -/
def State.withArgs (s : State) (a b c : Word) : State := { s with arg0 := a, arg1 := b, arg2 := c }

@[simp] theorem State.withArgs_turn (s : State) (a b c : Word) : (s.withArgs a b c).turn = s.turn := rfl
@[simp] theorem State.withArgs_due (s : State) (a b c : Word) : (s.withArgs a b c).due = s.due := rfl
@[simp] theorem State.withArgs_fs (s : State) (a b c : Word) : (s.withArgs a b c).fs = s.fs := rfl
@[simp] theorem State.withArgs_rbPhase (s : State) (a b c : Word) : (s.withArgs a b c).rbPhase = s.rbPhase := rfl
@[simp] theorem State.withArgs_gainDefined (s : State) (a b c : Word) : (s.withArgs a b c).gainDefined = s.gainDefined := rfl
@[simp] theorem State.withArgs_insideOutbuf (s : State) (a b c : Word) :
    (s.withArgs a b c).insideOutbuf = s.insideOutbuf := rfl

/-- The ENGINE's step of a command does the same whatever the argument registers hold (20_memory.md R77). -/
theorem exec_engine_withArgs (i : Instr) (s u : State) (a b c : Word) (hturn : s.turn = .engine) (hu : exec i s = .next u) :
    exec i (s.withArgs a b c) = .next (u.withArgs a b c) := by
  rcases exec_engine i s u hturn hu with
    ⟨rfl, rfl⟩ | ⟨rfl, rfl⟩ | ⟨rfl, hfs, rfl⟩ | ⟨rfl, rfl⟩ | ⟨rfl, rfl⟩ | ⟨rfl, hph, rfl⟩ | ⟨rfl, hph, hgain, hin, rfl⟩ |
      ⟨rfl, hph, rfl⟩
  · simp [exec, execNop, hturn]; rfl
  · simp [exec, execPrepare, hturn]; rfl
  · simp [exec, execNoteOn, hturn, hfs]; rfl
  · simp [exec, execNoteOff, hturn]; rfl
  · simp [exec, execForceStop, hturn]; rfl
  · simp [exec, execRenderBlock, hturn, hph]; rfl
  · simp [exec, execRenderBlock, hturn, hph, hgain, hin]; rfl
  · simp [exec, execRenderBlock, hturn, hph]; rfl

/-- What can be due at the ENGINE's turn (44_commands.md R234). -/
theorem due_of_engine_turn (s : State) (hturn : s.turn = .engine) : s.due = .idle ∨ s.due = .stuck ∨ ∃ i, s.due = .command i := by
  simp only [State.due, hturn, State.engineDue]
  split
  · cases s.engineCommand <;> simp
  · simp

/-- Settles O49: which step is due does not depend on the argument registers, and what the ENGINE's step does not either. -/
theorem argumentsDoNotReachARunningCommand : Obligations.ArgumentsDoNotReachARunningCommand := by
  intro s t a b c hturn hstep
  change step (s.withArgs a b c) = .next (t.withArgs a b c)
  rcases due_of_engine_turn s hturn with hd | hd | ⟨i, hd⟩
  · rw [step_of_idle s hd] at hstep
    cases hstep
    exact step_of_idle (s.withArgs a b c) hd
  · simp [step, hd] at hstep
  · rw [step_of_command hd] at hstep
    rw [step_of_command (s := s.withArgs a b c) hd]
    cases hu : exec i s with
    | next u =>
      rw [hu] at hstep
      cases hstep
      rw [exec_engine_withArgs i s u a b c hturn hu]
      rfl
    | fault f => rw [hu] at hstep; cases hstep
    | refused r => rw [hu] at hstep; cases hstep

end Sys2Proof.Machine
end

section
/-! SUPPORT. Command words read by their fields, and command bytes read and written: the decoder as equivalences. -/

namespace Sys2Proof

/-- An instruction's reserved bits are 0 (30_encoding.md R90). -/
theorem fields_rsvd (i : Instr) : i.fields.rsvd = 0#24 := by cases i <;> rfl

/-- Every instruction's command word is legal: it has no operand fields to check (30_encoding.md R90). -/
theorem instr_wf (i : Instr) : i.wf = true := by cases i <;> rfl

/-- A word is determined by its two fields (30_encoding.md R90). -/
theorem eq_append_iff_splitWord (w : Word) (r : BitVec 24) (o : BitVec 8) : w = r ++ o ↔ splitWord w = ⟨r, o⟩ := by
  constructor
  · rintro rfl
    exact splitWord_append r o
  · intro h
    rw [← append_splitWord w, h]

/-- A word selects a command by its fields (30_encoding.md R91). -/
theorem decodeWord_eq_ok_iff_fields (w : Word) (i : Instr) :
    decodeWord w = .ok i ↔ w.extractLsb' 8 24 = 0#24 ∧ w.extractLsb' 0 8 = i.opcode := by
  rw [decodeWord_eq_ok, encodeWord, fields_rsvd, eq_append_iff_splitWord, splitWord, CmdWord.mk.injEq]
  rfl

/-- A byte is no opcode exactly when it is above those of the map (30_encoding.md R94). -/
theorem forall_ne_opcode_iff (op : BitVec 8) : (∀ i : Instr, op ≠ i.opcode) ↔ 6 ≤ op.toNat := by
  rw [← opcodeInstr_eq_none, Option.eq_none_iff_forall_ne_some]
  exact forall_congr' fun i => not_congr (opcodeInstr_eq_some op i).symm

/-- A word selects no command exactly when it fails the check of one of its fields (30_encoding.md R94). -/
theorem decodeWord_ne_ok_iff_fields (w : Word) :
    (∀ i, decodeWord w ≠ .ok i) ↔ w.extractLsb' 8 24 ≠ 0#24 ∨ 6 ≤ (w.extractLsb' 0 8).toNat := by
  simp only [ne_eq, decodeWord_eq_ok_iff_fields, ← forall_ne_opcode_iff, not_and, ← imp_iff_not_or]
  exact forall_comm

/-- Four bytes make a word exactly when they are the ones it is stored in (20_memory.md R62). -/
theorem wordOfBytes_eq_iff (b0 b1 b2 b3 : Byte) (w : Word) :
    wordOfBytes b0 b1 b2 b3 = w ↔ [b0, b1, b2, b3] = bytesOfWord w := by
  constructor
  · rintro rfl
    exact (bytesOfWord_wordOfBytes b0 b1 b2 b3).symm
  · intro h
    obtain ⟨rfl, rfl, rfl, rfl⟩ : b0 = byteOfWord w 0 ∧ b1 = byteOfWord w 1 ∧ b2 = byteOfWord w 2 ∧ b3 = byteOfWord w 3 := by
      simpa [bytesOfWord] using h
    exact wordOfBytes_bytes w

/-- From four bytes or more the decoder takes the command of their word, and leaves the rest (30_encoding.md R95). -/
theorem decodeBytes_of_four (b0 b1 b2 b3 : Byte) (tail rest : List Byte) (i : Instr) :
    decodeBytes (b0 :: b1 :: b2 :: b3 :: tail) = .ok (i, rest) ↔
      decodeWord (wordOfBytes b0 b1 b2 b3) = .ok i ∧ tail = rest := by
  rw [decodeBytes]
  cases decodeWord (wordOfBytes b0 b1 b2 b3) <;> simp

/-- The decoder accepts exactly an instruction's bytes with anything after them (30_encoding.md R91, R95). -/
theorem decodeBytes_eq_ok (bytes : List Byte) (i : Instr) (rest : List Byte) :
    decodeBytes bytes = .ok (i, rest) ↔ bytes = encode i ++ rest := by
  match bytes with
  | b0 :: b1 :: b2 :: b3 :: tail =>
    rw [decodeBytes_of_four, decodeWord_eq_ok, wordOfBytes_eq_iff]
    simp [encode, bytesOfWord, and_assoc]
  | [] | [_] | [_, _] | [_, _, _] => simp [decodeBytes, encode, bytesOfWord]

/-- Settles O3, by the equivalence of decoding and encoding; every instruction is well formed. -/
theorem decodeAndEncodeAgree : Obligations.DecodeAndEncodeAgree :=
  ⟨fun i rest _ => (decodeBytes_eq_ok _ i rest).mpr rfl,
    fun bytes i rest h => ⟨instr_wf i, (decodeBytes_eq_ok bytes i rest).mp h⟩⟩

/-- Settles O2: each command is its row of the opcode map, and no row is left for the other words. -/
theorem wordSelectsCommandByItsFields : Obligations.WordSelectsCommandByItsFields := fun w =>
  ⟨decodeWord_eq_ok_iff_fields w .nop, decodeWord_eq_ok_iff_fields w .prepare, decodeWord_eq_ok_iff_fields w .noteOn,
    decodeWord_eq_ok_iff_fields w .noteOff, decodeWord_eq_ok_iff_fields w .forceStop,
    decodeWord_eq_ok_iff_fields w .renderBlock, decodeWord_ne_ok_iff_fields w⟩

/-- Settles O1: each word is the one that its command is written as. -/
theorem sixCommandWordsDecode : Obligations.SixCommandWordsDecode :=
  ⟨(decodeWord_eq_ok _ .nop).mpr rfl, (decodeWord_eq_ok _ .prepare).mpr rfl, (decodeWord_eq_ok _ .noteOn).mpr rfl,
    (decodeWord_eq_ok _ .noteOff).mpr rfl, (decodeWord_eq_ok _ .forceStop).mpr rfl,
    (decodeWord_eq_ok _ .renderBlock).mpr rfl⟩

end Sys2Proof
end

section
/-! SUPPORT. The HOST's statements as steps: which statements issue a command word, what a read gets, and what is left of the program
after the step. -/

namespace Sys2Proof.Machine

/-! ## Command words -/

/-- With the reset input released, a write to CMD issues the word written (44_commands.md R230). -/
theorem commandWord_write_cmd {s : State} (hp : s.resetPin = false) (w : Word) :
    s.commandWord (.write 0x0010#16 4 w) = some w := by
  simp [State.commandWord, hp, legalAccess, cmdAddr]

/-- A write under reset, of another size or to another address issues no command word (44_commands.md R230;
70_reset_and_hazards.md R300). -/
theorem commandWord_write_eq_none {s : State} {a : Addr} {n : Nat} (h : s.resetPin = true ∨ n ≠ 4 ∨ a ≠ 0x0010#16)
    (d : Word) : s.commandWord (.write a n d) = none := by
  rcases h with hp | hn | ha
  · simp [State.commandWord, hp]
  · simp [State.commandWord, legalAccess, hn]
  · simp [State.commandWord, cmdAddr, ha]

/-- A word written to CMD that is no command is due to be rejected (30_encoding.md R94). -/
theorem due_illegalWord {s : State} {w : Word} (h : s.hostIssues w) (hw : ∀ i, decodeWord w ≠ .ok i) :
    s.due = .illegalWord := by
  obtain ⟨hturn, hp, hhead⟩ := h
  obtain ⟨ops, hhost⟩ := List.head?_eq_some_iff.mp hhead
  cases hd : decodeWord w with
  | ok i => exact absurd hd (hw i)
  | error e => simp [State.due, hturn, State.hostDue, hhost, commandWord_write_cmd hp, hd]

/-- Settles O5: the word is due to be rejected, and the rejection leaves all but the error. -/
theorem illegalWordIsRejected : Obligations.IllegalWordIsRejected := by
  intro s w hissue hfields
  have hdue := due_illegalWord hissue ((decodeWord_ne_ok_iff_fields w).mpr hfields)
  obtain ⟨hturn, -, hhead⟩ := hissue
  obtain ⟨ops, hhost⟩ := List.head?_eq_some_iff.mp hhead
  have hstep : step s = .next (s.retire (s.reject .illegal)) := by simp only [step, hdue]
  rw [hstep, State.retire, if_pos hturn, hhost]
  rfl

/-! ## Base statements -/

/-- A HOST statement that issues no command word is one step, its transaction (30_encoding.md R96). -/
theorem step_of_access {s : State} {op : HostOp} {ops : List HostOp} (hturn : s.turn = .host) (hhost : s.host = op :: ops)
    (hop : s.commandWord op = none) :
    step s = .next
      { s.hostAccess op with sched := s.sched.tail, host := hostRest (s.hostAccess op) (op :: ops) } := by
  have hdue : s.due = .access op := by simp [State.due, hturn, State.hostDue, hhost, hop]
  simp only [step, hdue, State.retire, if_pos hturn, hhost]

/-- What a HOST read gets is what it leaves in the HOST's hands and in IRQ_STATUS, and nothing else changes
(20_memory.md R63, R66; 70_reset_and_hazards.md R300). -/
theorem hostRead_of_readGives {s : State} {a : Addr} {n : Nat} {v : Word} {st : BitVec 5} (h : s.readGives a n v st) :
    s.hostRead a n = { s with rdata := v, irqStatus := st } := by
  rcases h with ⟨hp, rfl, rfl⟩ | ⟨hp, hbad, rfl, rfl⟩ | ⟨hp, hn, ha, r, hr, rfl, rfl⟩
  · rw [State.hostRead, if_pos hp]
  · exact hostAccess_read_of_no_target hp ((target_eq_none s a n).mpr hbad)
  · exact hostAccess_read_of_target hp ((target_eq_some s a n r).mpr ⟨⟨hn, ha⟩, hr⟩)

/-- Settles O7: each statement is its transaction; only a poll can stay. -/
theorem hostStatementsTakeTheirSteps : Obligations.HostStatementsTakeTheirSteps := by
  refine ⟨fun s a n v st ops hturn hread => ⟨fun hhost => ?_, fun e hhost => ?_⟩, fun s a n d ops hturn hhost hcmd => ?_,
    fun s a m e v st ops hturn hhost hread => ?_⟩
  · rw [step_of_access hturn hhost rfl, State.hostAccess, hostRead_of_readGives hread]
    rfl
  · rw [step_of_access hturn hhost rfl, State.hostAccess, hostRead_of_readGives hread]
    by_cases hv : v = e <;> simp [hv, hostRest]
  · exact step_of_access hturn hhost (commandWord_write_eq_none hcmd d)
  · rw [step_of_access hturn hhost rfl, State.hostAccess, hostRead_of_readGives hread]
    rfl

end Sys2Proof.Machine
end

section
/-! SUPPORT. The harmonics of a sample: which oscillators it advances, and how many HARM_COUNT says there are. -/

namespace Sys2Proof.Machine

/-! ## The phases after a sample -/

/-- The Nyquist test as the inequality it decides (40_oscillator.md R121). -/
theorem included_iff (f fs : Word) (k : Nat) : included f fs k = true ↔ k * f.toNat ≤ fs.toNat * 2 ^ 15 :=
  decide_eq_true_iff

/-- RENDER_BLOCK's ENGINE step in a state that is ready for a sample is its SAMPLE step (44_commands.md R241). -/
theorem exec_renderBlock_of_sampleReady {s : State} (h : s.sampleReady) : exec .renderBlock s = .next s.renderSample := by
  obtain ⟨hturn, hphase, hlive, hegs, hidx, hch⟩ := h
  have hgain : s.gainDefined = true := gainDefined_of_ok s hlive hegs
  have hin : s.insideOutbuf = true := by simp [State.insideOutbuf, State.sampleIndex, hidx, hch]
  simp [exec, execRenderBlock, hturn, hphase, hgain, hin]

/-- The harmonics of a sample are the included ones, one after the other (43_render.md R203, 40_oscillator.md R122). -/
theorem sampleSum_eq_foldl (s : State) :
    s.sampleSum =
      ((List.finRange 24).filter fun h => included s.noteFreq s.fs (h.val + 1)).foldl
        (fun r h => harmonicStep s.sampleEnv h r.1 r.2) (s.osc, 0) := by
  rw [← takeWhile_included]
  exact harmonics_eq_foldl s.sampleEnv _ _ _

/-- The phases after a sample: an included harmonic's advanced, an excluded one's kept (40_oscillator.md R116, R123). -/
theorem sampleSum_phase (s : State) (j : Layer) (h : Fin 24) :
    (s.sampleSum.1.phase j)[h] =
      if (h.val + 1) * s.noteFreq.toNat ≤ s.fs.toNat * 2 ^ 15 then (s.osc.phase j)[h] + (s.osc.inc j)[h]
      else (s.osc.phase j)[h] := by
  have hnodup := (List.nodup_finRange 24).filter fun h => included s.noteFreq s.fs (h.val + 1)
  rw [sampleSum_eq_foldl, (foldl_harmonicStep s.sampleEnv _ hnodup s.osc 0).2 j h]
  simp only [List.mem_filter, List.mem_finRange, true_and, included_iff]

/-- A phase advances mod 2^32 (40_oscillator.md R116). -/
theorem sampleSum_phase_toNat (s : State) (j : Layer) (h : Fin 24) :
    (s.sampleSum.1.phase j)[h].toNat =
      if (h.val + 1) * s.noteFreq.toNat ≤ s.fs.toNat * 2 ^ 15 then
        ((s.osc.phase j)[h].toNat + (s.osc.inc j)[h].toNat) % 2 ^ 32
      else (s.osc.phase j)[h].toNat := by
  rw [sampleSum_phase, apply_ite BitVec.toNat, BitVec.toNat_add]

/-- Settles O18: the bank that the sample step leaves is that of its harmonics, in both layers. -/
theorem sampleAdvancesIncludedOscillators : Obligations.SampleAdvancesIncludedOscillators := by
  intro s hready
  exact ⟨s.renderSample, exec_renderBlock_of_sampleReady hready,
    fun h => ⟨sampleSum_phase_toNat s .l1 h, sampleSum_phase_toNat s .l2 h⟩⟩

/-! ## HARM_COUNT -/

/-- HARM_COUNT counts the included harmonics: harmonic k is included exactly up to it (40_oscillator.md R122). -/
theorem le_harmCount_iff (f fs : Word) {k : Nat} (hk : k ≤ 24) :
    k ≤ harmCount f fs ↔ k * f.toNat ≤ fs.toNat * 2 ^ 15 := by
  unfold harmCount
  split
  case isTrue hf => simp [hf, hk]
  case isFalse hf => rw [le_min_iff, Nat.le_div_iff_mul_le (Nat.pos_of_ne_zero hf), and_iff_right hk]

/-- There are no more included harmonics than harmonics (10_state.md R45). -/
theorem harmCount_le (f fs : Word) : harmCount f fs ≤ 24 := by
  unfold harmCount
  split <;> omega

/-- HARM_COUNT's read returns the count (10_state.md R45, 20_memory.md R65). -/
theorem harmCount_read {s : State} (hp : s.resetPin = false) :
    (s.hostAccess (.read 0x0044#16 4 none)).rdata.toNat = harmCount s.noteFreq s.fs := by
  have hread : (s.hostAccess (.read 0x0044#16 4 none)).rdata = mod32 (harmCount s.noteFreq s.fs) :=
    congrArg State.rdata (hostAccess_read_row hp 0x0044#16 .harmCount rfl)
  have hle := harmCount_le s.noteFreq s.fs
  rw [hread, mod32, BitVec.toNat_ofNat, Nat.mod_eq_of_lt (by omega)]

/-- With no harmonic included the accumulator stays 0 (40_oscillator.md R122, 43_render.md R206). -/
theorem sampleSum_of_harmCount_zero {s : State} (h : harmCount s.noteFreq s.fs = 0) : s.sampleSum.2 = 0 := by
  have hnone : ((List.finRange 24).filter fun k => included s.noteFreq s.fs (k.val + 1)) = [] := by
    refine List.filter_eq_nil_iff.mpr fun k _ hk => ?_
    have hle := (le_harmCount_iff s.noteFreq s.fs k.isLt).mpr ((included_iff _ _ _).mp hk)
    omega
  rw [sampleSum_eq_foldl, hnone]
  rfl

/-- Settles O30: the count bounds the included harmonics, its register returns it, and at 0 no harmonic adds to the sample. -/
theorem harmonicCountIsTheNyquistGuard : Obligations.HarmonicCountIsTheNyquistGuard :=
  ⟨fun f fs _ _ hk => (le_harmCount_iff f fs hk).symm, fun _ _ => rfl, fun _ hp => harmCount_read hp,
    fun _ h => sampleSum_of_harmCount_zero h, by decide⟩

end Sys2Proof.Machine
end

section
/-! SUPPORT. The sine table against the real sine. A phasor turns by a 4096th of a turn a step, in whole numbers of 2^-48; its
error grows by at most 2^-39 a step, so that over the 1024 steps of a quarter turn it tells which integer is nearest. The other
three quarters follow by symmetry (40_oscillator.md R117, R118). -/

namespace Sys2Proof.Machine

/-! ## The angles of the table -/

/-- The angle of entry i: i of 4096 parts of a turn (40_oscillator.md R117). -/
noncomputable def tableAngle (i : Nat) : ℝ := 2 * Real.pi * i / 4096

/-- The angle of entry i is i steps of the table. -/
theorem tableAngle_eq_mul (i : Nat) : tableAngle i = i * tableAngle 1 := by
  unfold tableAngle
  push_cast
  ring

/-- Entry 2048 - i has the sine of entry i. -/
theorem sin_tableAngle_sub {i : Nat} (hi : i ≤ 2048) :
    Real.sin (tableAngle (2048 - i)) = Real.sin (tableAngle i) := by
  have hangle : tableAngle (2048 - i) = Real.pi - tableAngle i := by
    unfold tableAngle
    push_cast [hi]
    ring
  rw [hangle, Real.sin_pi_sub]

/-- Half a turn on, the sine is negated. -/
theorem sin_tableAngle_add (i : Nat) : Real.sin (tableAngle (i + 2048)) = -Real.sin (tableAngle i) := by
  have hangle : tableAngle (i + 2048) = tableAngle i + Real.pi := by
    unfold tableAngle
    push_cast
    ring
  rw [hangle, Real.sin_add_pi]

/-! ## One step of the phasor -/

/-- The point of the complex plane that two whole numbers of 2^-48 stand for. -/
noncomputable def fixedPoint (z : Int × Int) : ℂ := ⟨z.1 / 2 ^ 48, z.2 / 2 ^ 48⟩

@[simp] theorem fixedPoint_re (z : Int × Int) : (fixedPoint z).re = z.1 / 2 ^ 48 := rfl
@[simp] theorem fixedPoint_im (z : Int × Int) : (fixedPoint z).im = z.2 / 2 ^ 48 := rfl

/-- The step of the phasor: the cosine and the sine of the table's first angle, rounded down to 2^-48. -/
def phasorStep : Int × Int := (281474645541751, 431777037209)

/-- The product of two such points, rounded down to 2^-48. -/
def fixedMul (z w : Int × Int) : Int × Int :=
  ((z.1 * w.1 - z.2 * w.2) / 2 ^ 48, (z.1 * w.2 + z.2 * w.1) / 2 ^ 48)

/-- Rounding a whole number of 2^-96 down to one of 2^-48 loses at most 2^-48. -/
theorem abs_ediv_sub_le (a : Int) : |((a / 2 ^ 48 : Int) : ℝ) / 2 ^ 48 - a / 2 ^ 96| ≤ 1 / 2 ^ 48 := by
  have hlo : ((2 ^ 48 * (a / 2 ^ 48) : Int) : ℝ) ≤ a := by
    exact_mod_cast Int.mul_ediv_self_le (by norm_num)
  have hhi : (a : ℝ) < ((2 ^ 48 * (a / 2 ^ 48) + 2 ^ 48 : Int) : ℝ) := by
    exact_mod_cast Int.lt_mul_ediv_self_add (by norm_num)
  push_cast at hlo hhi
  rw [abs_le]
  constructor <;> linarith

/-- The rounded product is within 2^-47 of the product. -/
theorem fixedMul_near (z w : Int × Int) : ‖fixedPoint (fixedMul z w) - fixedPoint z * fixedPoint w‖ ≤ 1 / 2 ^ 47 := by
  have hre := abs_ediv_sub_le (z.1 * w.1 - z.2 * w.2)
  have him := abs_ediv_sub_le (z.1 * w.2 + z.2 * w.1)
  push_cast at hre him
  have hre' : (fixedPoint (fixedMul z w) - fixedPoint z * fixedPoint w).re =
      ((z.1 * w.1 - z.2 * w.2) / 2 ^ 48 : Int) / 2 ^ 48 - (z.1 * w.1 - z.2 * w.2 : ℝ) / 2 ^ 96 := by
    simp only [fixedMul, Complex.sub_re, Complex.mul_re, fixedPoint_re, fixedPoint_im]
    ring
  have him' : (fixedPoint (fixedMul z w) - fixedPoint z * fixedPoint w).im =
      ((z.1 * w.2 + z.2 * w.1) / 2 ^ 48 : Int) / 2 ^ 48 - (z.1 * w.2 + z.2 * w.1 : ℝ) / 2 ^ 96 := by
    simp only [fixedMul, Complex.sub_im, Complex.mul_im, fixedPoint_re, fixedPoint_im]
    ring
  have hsum := Complex.norm_le_abs_re_add_abs_im (fixedPoint (fixedMul z w) - fixedPoint z * fixedPoint w)
  rw [hre', him'] at hsum
  linarith

/-- The step does not lengthen the phasor. -/
theorem norm_phasorStep_le : ‖fixedPoint phasorStep‖ ≤ 1 := by
  rw [← sq_le_one_iff₀ (norm_nonneg _), Complex.sq_norm, Complex.normSq_apply]
  norm_num [phasorStep]

/-- The table's first angle, to 20 decimals. -/
theorem tableAngle_one_bounds : 0.00153398078788564122 < tableAngle 1 ∧ tableAngle 1 < 0.00153398078788564123 := by
  have hlo := Real.pi_gt_d20
  have hhi := Real.pi_lt_d20
  unfold tableAngle
  push_cast
  constructor <;> linarith

/-- The step's first coordinate is the cosine of the table's first angle, by its Taylor polynomial of degree 2. -/
theorem phasorStep_near_cos : |(phasorStep.1 : ℝ) / 2 ^ 48 - Real.cos (tableAngle 1)| ≤ 1 / 2 ^ 40 := by
  obtain ⟨hlo, hhi⟩ := tableAngle_one_bounds
  generalize tableAngle 1 = x at *
  have habs : |x| = x := abs_of_pos (by linarith)
  have htaylor := Real.cos_bound (x := x) (by linarith)
  have hsq_lo : (0.00153398078788564122 : ℝ) ^ 2 ≤ x ^ 2 := by gcongr
  have hsq_hi : x ^ 2 ≤ (0.00153398078788564123 : ℝ) ^ 2 := by gcongr
  have hrest : x ^ 4 ≤ (0.00153398078788564123 : ℝ) ^ 4 := by gcongr
  rw [habs, abs_le] at htaylor
  simp only [phasorStep, abs_le]
  push_cast
  constructor <;> linarith

/-- The step's second coordinate is the sine of the table's first angle, by its Taylor polynomial of degree 3. -/
theorem phasorStep_near_sin : |(phasorStep.2 : ℝ) / 2 ^ 48 - Real.sin (tableAngle 1)| ≤ 1 / 2 ^ 41 := by
  obtain ⟨hlo, hhi⟩ := tableAngle_one_bounds
  generalize tableAngle 1 = x at *
  have habs : |x| = x := abs_of_pos (by linarith)
  have htaylor := Real.sin_bound (x := x) (by linarith)
  have hcube_lo : (0.00153398078788564122 : ℝ) ^ 3 ≤ x ^ 3 := by gcongr
  have hcube_hi : x ^ 3 ≤ (0.00153398078788564123 : ℝ) ^ 3 := by gcongr
  have hrest : x ^ 5 ≤ (0.00153398078788564123 : ℝ) ^ 5 := by gcongr
  rw [habs, abs_le] at htaylor
  simp only [phasorStep, abs_le]
  push_cast
  constructor <;> linarith

/-- The step is within 3 · 2^-41 of a 4096th of a turn. -/
theorem phasorStep_near : ‖fixedPoint phasorStep - Complex.exp (tableAngle 1 * Complex.I)‖ ≤ 3 / 2 ^ 41 := by
  have hcos := phasorStep_near_cos
  have hsin := phasorStep_near_sin
  have hsum := Complex.norm_le_abs_re_add_abs_im (fixedPoint phasorStep - Complex.exp (tableAngle 1 * Complex.I))
  rw [Complex.sub_re, Complex.sub_im, Complex.exp_ofReal_mul_I_re, Complex.exp_ofReal_mul_I_im, fixedPoint_re,
    fixedPoint_im] at hsum
  linarith

/-! ## The phasor after some steps -/

/-- The phasor after n steps from angle 0. -/
def phasor : Nat → Int × Int
  | 0 => (2 ^ 48, 0)
  | n + 1 => fixedMul (phasor n) phasorStep

/-- Each step adds at most 2^-39 to the phasor's error. -/
theorem phasor_near (n : Nat) : ‖fixedPoint (phasor n) - Complex.exp (tableAngle 1 * Complex.I) ^ n‖ ≤ n / 2 ^ 39 := by
  induction n with
  | zero => norm_num [fixedPoint, phasor, Complex.ext_iff]
  | succ n ih =>
    have hunit : ‖Complex.exp (tableAngle 1 * Complex.I) ^ n‖ = 1 := by
      rw [norm_pow, Complex.norm_exp_ofReal_mul_I, one_pow]
    have hround := fixedMul_near (phasor n) phasorStep
    have hstep := phasorStep_near
    have hlen := norm_phasorStep_le
    rw [phasor]
    generalize fixedPoint (fixedMul (phasor n) phasorStep) = z' at *
    generalize fixedPoint (phasor n) = z at *
    generalize fixedPoint phasorStep = w at *
    generalize Complex.exp (tableAngle 1 * Complex.I) = e at *
    calc ‖z' - e ^ (n + 1)‖ = ‖(z' - z * w) + (z - e ^ n) * w + e ^ n * (w - e)‖ := by ring_nf
      _ ≤ ‖z' - z * w‖ + ‖z - e ^ n‖ * ‖w‖ + ‖e ^ n‖ * ‖w - e‖ := by
        rw [← norm_mul, ← norm_mul]
        exact norm_add₃_le
      _ ≤ 1 / 2 ^ 47 + n / 2 ^ 39 * 1 + 1 * (3 / 2 ^ 41) := by
        rw [hunit]
        gcongr
      _ ≤ (n + 1 : Nat) / 2 ^ 39 := by
        push_cast
        linarith

/-- The phasor's second coordinate follows the sine of the table's angles. -/
theorem phasor_near_sin (n : Nat) : |((phasor n).2 : ℝ) / 2 ^ 48 - Real.sin (tableAngle n)| ≤ (n : ℝ) / 2 ^ 39 := by
  have hexp : Complex.exp (tableAngle 1 * Complex.I) ^ n = Complex.exp (tableAngle n * Complex.I) := by
    rw [← Complex.exp_nat_mul, tableAngle_eq_mul n]
    push_cast
    ring_nf
  have him := (Complex.abs_im_le_norm _).trans (phasor_near n)
  rwa [hexp, Complex.sub_im, Complex.exp_ofReal_mul_I_im, fixedPoint_im] at him

/-! ## The table is the rounded sine -/

/-- Each entry of the quarter wave is the integer nearest to 32767 times the phasor's second coordinate, by a margin of 2^-14:
more than the phasor's error. The 1025 entries are compared one by one. -/
theorem quarterWave_near_phasor :
    ∀ i < 1025, |32767 * (phasor i).2 - (quarterWave i : Int) * 2 ^ 48| ≤ 2 ^ 47 - 2 ^ 34 := by
  decide +kernel

/-- Every entry of the quarter wave is within one half of the sine (40_oscillator.md R117). -/
theorem quarterWave_near_sin {i : Nat} (hi : i ≤ 1024) :
    |((quarterWave i : Int) : ℝ) - 32767 * Real.sin (tableAngle i)| < 1 / 2 := by
  have htable : |32767 * ((phasor i).2 : ℝ) - ((quarterWave i : Int) : ℝ) * 2 ^ 48| ≤ 2 ^ 47 - 2 ^ 34 := by
    exact_mod_cast quarterWave_near_phasor i (by omega)
  have hphasor := phasor_near_sin i
  have hi' : (i : ℝ) ≤ 1024 := by exact_mod_cast hi
  rw [abs_le] at htable hphasor
  rw [abs_lt]
  constructor <;> linarith

/-- Every entry of the first half turn is within one half of the sine (40_oscillator.md R117, R118). -/
theorem halfWave_near_sin {i : Nat} (hi : i ≤ 2048) : |(halfWave i : ℝ) - 32767 * Real.sin (tableAngle i)| < 1 / 2 := by
  unfold halfWave
  split
  case isTrue h => exact quarterWave_near_sin h
  case isFalse h =>
    rw [← sin_tableAngle_sub hi]
    exact quarterWave_near_sin (by omega)

/-- Every entry of the table is within one half of the sine (40_oscillator.md R117, R118). -/
theorem sineLut_near_sin {i : Nat} (hi : i < 4096) : |(sineLut i : ℝ) - 32767 * Real.sin (tableAngle i)| < 1 / 2 := by
  unfold sineLut
  split
  case isTrue h => exact halfWave_near_sin h.le
  case isFalse h =>
    obtain ⟨j, rfl⟩ := Nat.exists_eq_add_of_le' (not_lt.mp h)
    have hnear := halfWave_near_sin (i := j) (by omega)
    rw [Nat.add_sub_cancel, sin_tableAngle_add, ← abs_neg]
    convert hnear using 2
    push_cast
    ring

/-- An integer within one half of a number is that number rounded, halves away from zero (00_scope.md R17). -/
theorem eq_rounded_of_near {n : Int} {r : ℝ} (h : |(n : ℝ) - r| < 1 / 2) :
    n = if 0 ≤ r then ⌊|r| + 1 / 2⌋ else -⌊|r| + 1 / 2⌋ := by
  obtain ⟨hlo, hhi⟩ := abs_lt.mp h
  split
  case isTrue hr =>
    rw [abs_of_nonneg hr, eq_comm, Int.floor_eq_iff]
    constructor <;> linarith
  case isFalse hr =>
    rw [abs_of_neg (not_le.mp hr), eq_comm, neg_eq_iff_eq_neg, Int.floor_eq_iff]
    push_cast
    constructor <;> linarith

/-! ## Zeros and symmetries -/

/-- The quarter wave is 0 only at 0: above, the sine is past one half of a table unit (40_oscillator.md R118). -/
theorem quarterWave_eq_zero_iff {i : Nat} (hi : i ≤ 1024) : quarterWave i = 0 ↔ i = 0 := by
  refine ⟨fun hz => ?_, fun h => by rw [h]; rfl⟩
  by_contra hne
  have hpos : (1 : ℝ) ≤ i := by exact_mod_cast Nat.pos_of_ne_zero hne
  have hi' : (i : ℝ) ≤ 1024 := by exact_mod_cast hi
  have hangle : tableAngle i = i / 1024 * (Real.pi / 2) := by
    unfold tableAngle
    ring
  have hjordan := Real.mul_le_sin (x := tableAngle i) (by rw [hangle]; positivity)
    (by rw [hangle]; exact mul_le_of_le_one_left (by positivity) (by linarith))
  have hchord : 2 / Real.pi * tableAngle i = i / 1024 := by
    rw [hangle]
    field_simp
  have hnear := (abs_lt.mp (quarterWave_near_sin hi)).1
  rw [hz] at hnear
  push_cast at hnear
  linarith

/-- The first half turn is 0 only at its start (40_oscillator.md R118). -/
theorem halfWave_eq_zero_iff {i : Nat} (hi : i < 2048) : halfWave i = 0 ↔ i = 0 := by
  unfold halfWave
  split
  case isTrue h => rw [Int.natCast_eq_zero, quarterWave_eq_zero_iff h]
  case isFalse h =>
    rw [Int.natCast_eq_zero, quarterWave_eq_zero_iff (by omega)]
    omega

/-- The table is 0 only at the start of each half turn (40_oscillator.md R118). -/
theorem sineLut_eq_zero_iff {i : Nat} (hi : i < 4096) : sineLut i = 0 ↔ i = 0 ∨ i = 2048 := by
  unfold sineLut
  split
  case isTrue h =>
    rw [halfWave_eq_zero_iff h]
    omega
  case isFalse h =>
    rw [neg_eq_zero, halfWave_eq_zero_iff (by omega)]
    omega

/-- The second quarter turn mirrors the first (40_oscillator.md R118). -/
theorem sineLut_mirror {i : Nat} (h1 : 1024 < i) (h2 : i < 2048) : sineLut i = sineLut (2048 - i) := by
  simp only [sineLut, halfWave, if_pos h2, if_pos (show 2048 - i < 2048 by omega), if_neg (not_le.mpr h1),
    if_pos (show 2048 - i ≤ 1024 by omega)]

/-- The second half turn negates the first (40_oscillator.md R118). -/
theorem sineLut_half_turn {i : Nat} (h1 : 2048 ≤ i) (h2 : i < 4096) : sineLut i = -sineLut (i - 2048) := by
  simp only [sineLut, if_neg (not_lt.mpr h1), if_pos (show i - 2048 < 2048 by omega)]

/-- Settles O31: no entry is half a unit or more from the sine, which fixes each as the rounded sine, and the
halves and quarters of the table are built from one another. -/
theorem sineTableSymmetries : Obligations.SineTableSymmetries := by
  refine ⟨fun i hi r hr => ?_, ⟨rfl, rfl⟩, fun i => sineLut_eq_zero_iff,
    fun i _ => sineLut_bounds i, fun i => sineLut_mirror, fun i => sineLut_half_turn⟩
  have hnear : |(sineLut i : ℝ) - r| < 1 / 2 := hr ▸ sineLut_near_sin hi
  exact ⟨eq_rounded_of_near hnear, hnear⟩

end Sys2Proof.Machine
end

section
/-! SUPPORT. The envelope generators: what a tick leaves at each stage, the ramp of a whole segment, and what ends Sustain. -/

namespace Sys2Proof.Machine

/-! ## Segment durations -/

/-- Settles O24: the division by 65536 with 32768 added rounds half up. -/
theorem durationRoundsHalfUp : Obligations.DurationRoundsHalfUp := by
  intro t fs
  refine ⟨?_, dur_le t fs, fun ht hfs => ?_⟩
  · unfold dur
    generalize t * 4 * fs = x
    omega
  · have := dur_le t fs ht
    omega

/-! ## One tick of each stage -/

/-- A tick inside a ramp of `N` samples from level `a` to level `b`: one sample more has elapsed, and the level is the line's
there (41_envelope.md R147, R148, R150). -/
def Eg.ramp (g : Eg) (a b N : Nat) : Eg :=
  { g with
    elapsed := mod32 (g.elapsed.toNat + 1)
    level := levelOf (lerp a b (g.elapsed.toNat + 1 : Nat) N) }

/-- Inside a ramp ELAPSED counts without wrapping, as no segment has 2^32 samples (41_envelope.md R141). -/
theorem Eg.ramp_elapsed {g : Eg} {N : Nat} (a b : Nat) (hn : g.elapsed.toNat + 1 < N) (hN : N ≤ 4194300) :
    (g.ramp a b N).elapsed.toNat = g.elapsed.toNat + 1 := by
  simp only [Eg.ramp, mod32, BitVec.toNat_ofNat]
  omega

/-- The level inside a ramp is that of the line, truncated toward its start (41_envelope.md R158; 00_scope.md R15). -/
theorem Eg.ramp_level {g : Eg} {a b N : Nat} (ha : a ≤ 65536) (hb : b ≤ 65536) (hn : g.elapsed.toNat + 1 < N) :
    ((g.ramp a b N).level.toNat : Int) = a + Int.tdiv (((b : Int) - a) * (g.elapsed.toNat + 1)) N :=
  levelOf_lerp a b (g.elapsed.toNat + 1) N ha hb hn.le

/-- An Idle envelope generator is the zeroed one (10_state.md R49 item 1). -/
theorem Eg.eq_zero_of_idle {g : Eg} (hg : g.ok) (hs : g.stage = .idle) : g = Eg.zero := by
  obtain ⟨stage, level, elapsed, start⟩ := g
  obtain ⟨rfl, rfl, rfl⟩ := hg.1 hs
  cases hs
  rfl

/-- A release of a sounding envelope generator (41_envelope.md R143). -/
theorem Eg.noteOff_of_ne_idle {g : Eg} (hs : g.stage ≠ .idle) : g.noteOff = ⟨.release, g.level, 0#32, g.level⟩ := by
  rw [Eg.noteOff, if_neg hs]

section
variable {g : Eg} {p : EgParams} {fs : Nat}

/-- An Attack without length goes on into Decay in the same tick (41_envelope.md R151). -/
theorem Eg.tick_attack_of_zero (hs : g.stage = .attack) (hN : dur p.attack.toNat fs = 0) :
    g.tick p fs = Eg.tick ⟨.decay, 0x10000#17, 0#32, g.start⟩ p fs := by
  simp [Eg.tick, Eg.tickAttack, Eg.enterDecay, levelTop, hs, hN]

/-- The last tick of an Attack (41_envelope.md R147). -/
theorem Eg.tick_attack_of_le (hs : g.stage = .attack) (hN : 0 < dur p.attack.toNat fs)
    (hn : dur p.attack.toNat fs ≤ g.elapsed.toNat + 1) : g.tick p fs = ⟨.decay, 0x10000#17, 0#32, g.start⟩ := by
  simp [Eg.tick, Eg.tickAttack, Eg.enterDecay, levelTop, hs, hN.ne', hn]

/-- A tick inside an Attack (41_envelope.md R147). -/
theorem Eg.tick_attack_of_lt (hs : g.stage = .attack) (hn : g.elapsed.toNat + 1 < dur p.attack.toNat fs) :
    g.tick p fs = g.ramp g.start.toNat 65536 (dur p.attack.toNat fs) := by
  simp [Eg.tick, Eg.tickAttack, Eg.ramp, lvl, hs, Nat.ne_zero_of_lt hn, hn]

/-- The last tick of a Decay, one without length among them (41_envelope.md R148, R151). -/
theorem Eg.tick_decay_of_le (hs : g.stage = .decay) (hn : dur p.decay.toNat fs ≤ g.elapsed.toNat + 1) :
    g.tick p fs = ⟨.sustain, p.sustain, 0#32, g.start⟩ := by
  simp [Eg.tick, Eg.tickDecay, Eg.enterSustain, Eg.tickSustain, hs, hn]

/-- A tick inside a Decay (41_envelope.md R148). -/
theorem Eg.tick_decay_of_lt (hs : g.stage = .decay) (hn : g.elapsed.toNat + 1 < dur p.decay.toNat fs) :
    g.tick p fs = g.ramp 65536 p.sustain.toNat (dur p.decay.toNat fs) := by
  simp [Eg.tick, Eg.tickDecay, Eg.ramp, lvl, hs, Nat.ne_zero_of_lt hn, hn]

/-- A tick in Sustain only follows SUSTAIN_A (41_envelope.md R149). -/
theorem Eg.tick_sustain (hs : g.stage = .sustain) : g.tick p fs = { g with level := p.sustain } := by
  simp only [Eg.tick, Eg.tickSustain, hs]

/-- The last tick of a Release, one without length among them (41_envelope.md R150, R151). -/
theorem Eg.tick_release_of_le (hs : g.stage = .release) (hn : dur p.release.toNat fs ≤ g.elapsed.toNat + 1) :
    g.tick p fs = Eg.zero := by
  simp [Eg.tick, Eg.tickRelease, hs, hn]

/-- A tick inside a Release (41_envelope.md R150). -/
theorem Eg.tick_release_of_lt (hs : g.stage = .release) (hn : g.elapsed.toNat + 1 < dur p.release.toNat fs) :
    g.tick p fs = g.ramp g.start.toNat 0 (dur p.release.toNat fs) := by
  simp [Eg.tick, Eg.tickRelease, Eg.ramp, lvl, hs, Nat.ne_zero_of_lt hn, hn]

end

/-- Settles O22: each row of R157 is the equation of its stage, and the cascading rows are Decay's from ELAPSED = 0. -/
theorem envelopeTransitionRelation : Obligations.EnvelopeTransitionRelation := by
  intro g p fs NA ND NR hg hp hfs (hNA : NA = dur p.attack.toNat fs) (hND : ND = dur p.decay.toNat fs)
    (hNR : NR = dur p.release.toNat fs)
  subst hNA hND hNR
  have ⟨_, _, hstart, helapsed⟩ := hg
  obtain ⟨hA, hD, hS, hR⟩ := hp
  have hlen {t : Nat} (ht : t ≤ 65536) : dur t fs ≤ 4194300 := (durationRoundsHalfUp t fs).2.2 ht hfs
  refine ⟨rfl, Eg.noteOff_of_ne_idle, fun hs => ?noteOffIdle, rfl, fun hs => ?idle, fun hs h0 h1 => ?cascadeToSustain,
    fun hs h0 h2 => ?cascadeIntoDecay, Eg.tick_attack_of_le, fun hs hn => ?attack, Eg.tick_decay_of_le,
    fun hs hn => ?decay, fun hs => ?sustain, Eg.tick_release_of_le, fun hs hn => ?release⟩
  case noteOffIdle =>
    rw [Eg.eq_zero_of_idle hg hs]
    rfl
  case idle =>
    rw [Eg.eq_zero_of_idle hg hs]
    rfl
  case cascadeToSustain =>
    rw [Eg.tick_attack_of_zero hs h0]
    exact Eg.tick_decay_of_le rfl h1
  case cascadeIntoDecay =>
    rw [Eg.tick_attack_of_zero hs h0, Eg.tick_decay_of_lt (g := ⟨.decay, 0x10000#17, 0#32, g.start⟩) rfl h2]
    exact ⟨rfl, rfl, rfl, Eg.ramp_level le_rfl hS h2⟩
  case attack =>
    rw [Eg.tick_attack_of_lt hs hn]
    exact ⟨hs, Eg.ramp_elapsed _ _ hn (hlen hA), rfl, Eg.ramp_level hstart le_rfl hn⟩
  case decay =>
    rw [Eg.tick_decay_of_lt hs hn]
    exact ⟨hs, Eg.ramp_elapsed _ _ hn (hlen hD), rfl, Eg.ramp_level le_rfl hS hn⟩
  case sustain => rw [Eg.tick_sustain hs, hs, helapsed hs]
  case release =>
    rw [Eg.tick_release_of_lt hs hn]
    exact ⟨hs, Eg.ramp_elapsed _ _ hn (hlen hR), rfl, Eg.ramp_level hstart (Nat.zero_le _) hn⟩

/-! ## A whole segment -/

/-- An envelope generator `n` samples into a ramp of `N` samples from its start level `a` to level `b`. -/
def Eg.onRamp (st : Stage) (a : Level) (b N n : Nat) : Eg := ⟨st, levelOf (lerp a.toNat b n N), mod32 n, a⟩

/-- A register level read as a number and stored again is itself. -/
theorem levelOf_toNat (a : Level) : levelOf a.toNat = a := by simp [levelOf]

/-- A ramp begins at its start level, as a note event leaves it (41_envelope.md R142, R143). -/
theorem Eg.onRamp_zero (st : Stage) (a : Level) (b N : Nat) : Eg.onRamp st a b N 0 = ⟨st, a, 0#32, a⟩ := by
  rw [Eg.onRamp, Nat.cast_zero, lerp_start, levelOf_toNat]
  rfl

/-- ELAPSED counts the samples of a ramp (41_envelope.md R141). -/
theorem Eg.onRamp_elapsed (st : Stage) (a : Level) {b N n : Nat} (hn : n < N) (hN : N ≤ 4194300) :
    (Eg.onRamp st a b N n).elapsed.toNat = n := by
  simp only [Eg.onRamp, mod32, BitVec.toNat_ofNat]
  omega

/-- A tick inside a ramp goes one sample along it. -/
theorem Eg.onRamp_ramp (st : Stage) (a : Level) {b N n : Nat} (hn : n < N) (hN : N ≤ 4194300) :
    (Eg.onRamp st a b N n).ramp a.toNat b N = Eg.onRamp st a b N (n + 1) := by
  rw [Eg.ramp, Eg.onRamp_elapsed st a hn hN]
  rfl

/-- `f` runs a segment of `N` samples from level `a` to level `b` along its ramp and ends it in `e`, at level `b`. -/
structure RunsSegment (f : Eg → Eg) (st : Stage) (a : Level) (b N : Nat) (e : Eg) : Prop where
  nonempty : 1 ≤ N
  start_le : a.toNat ≤ 65536
  end_le : b ≤ 65536
  goesOn : ∀ n, n + 1 < N → f (Eg.onRamp st a b N n) = Eg.onRamp st a b N (n + 1)
  ends : f (Eg.onRamp st a b N (N - 1)) = e
  endLevel : e.level.toNat = b

section
variable {f : Eg → Eg} {st : Stage} {a : Level} {b N : Nat} {e : Eg}

/-- Before its last tick a segment is on its ramp. -/
theorem RunsSegment.iterate_of_lt (h : RunsSegment f st a b N e) {n : Nat} (hn : n < N) :
    f^[n] (Eg.onRamp st a b N 0) = Eg.onRamp st a b N n := by
  induction n with
  | zero => rfl
  | succ n ih => rw [Function.iterate_succ_apply', ih (by omega), h.goesOn n hn]

/-- The N-th tick ends the segment. -/
theorem RunsSegment.iterate_end (h : RunsSegment f st a b N e) : f^[N] (Eg.onRamp st a b N 0) = e := by
  have hlast : N - 1 + 1 = N := Nat.sub_add_cancel h.nonempty
  calc f^[N] (Eg.onRamp st a b N 0) = f (f^[N - 1] (Eg.onRamp st a b N 0)) := by
        rw [← Function.iterate_succ_apply' f, Nat.succ_eq_add_one, hlast]
    _ = e := by rw [h.iterate_of_lt (by omega), h.ends]

/-- Along a whole segment, its last tick among them, the level is the line's. -/
theorem RunsSegment.iterate_level (h : RunsSegment f st a b N e) {n : Nat} (hn : n ≤ N) :
    ((f^[n] (Eg.onRamp st a b N 0)).level.toNat : Int) = lerp a.toNat b n N := by
  rcases hn.lt_or_eq with hlt | rfl
  · rw [h.iterate_of_lt hlt]
    exact levelOf_lerp _ _ _ _ h.start_le h.end_le hn
  · rw [h.iterate_end, h.endLevel, lerp_end _ _ _ (by exact_mod_cast h.nonempty)]

/-- A segment to a higher level never falls (00_scope.md R15). -/
theorem RunsSegment.level_mono (h : RunsSegment f st a b N e) (hab : a.toNat ≤ b) {m n : Nat} (hmn : m ≤ n) (hn : n ≤ N) :
    (f^[m] (Eg.onRamp st a b N 0)).level.toNat ≤ (f^[n] (Eg.onRamp st a b N 0)).level.toNat := by
  have hline := lerp_mono_of_le a.toNat b m n N hab hmn
  rw [← h.iterate_level hn, ← h.iterate_level (hmn.trans hn)] at hline
  exact_mod_cast hline

/-- A segment to a lower level never rises (00_scope.md R15). -/
theorem RunsSegment.level_anti (h : RunsSegment f st a b N e) (hba : b ≤ a.toNat) {m n : Nat} (hmn : m ≤ n) (hn : n ≤ N) :
    (f^[n] (Eg.onRamp st a b N 0)).level.toNat ≤ (f^[m] (Eg.onRamp st a b N 0)).level.toNat := by
  have hline := lerp_anti_of_le a.toNat b m n N hba hmn
  rw [← h.iterate_level hn, ← h.iterate_level (hmn.trans hn)] at hline
  exact_mod_cast hline

end

/-- The ticks of an Attack with length run it up to 1.0 and enter Decay (41_envelope.md R147). -/
theorem runsSegment_attack {p : EgParams} {fs : Nat} {a : Level} (ha : a.toNat ≤ 65536) (hN : 1 ≤ dur p.attack.toNat fs)
    (hlen : dur p.attack.toNat fs ≤ 4194300) :
    RunsSegment (fun x : Eg => x.tick p fs) .attack a 65536 (dur p.attack.toNat fs) ⟨.decay, 0x10000#17, 0#32, a⟩ where
  nonempty := hN
  start_le := ha
  end_le := le_rfl
  goesOn n hn := by
    have htick := Eg.tick_attack_of_lt (g := Eg.onRamp .attack a 65536 _ n) (p := p) (fs := fs) rfl
      (by rwa [Eg.onRamp_elapsed _ _ (by omega) hlen])
    exact htick.trans (Eg.onRamp_ramp _ a (by omega) hlen)
  ends := Eg.tick_attack_of_le rfl hN (by rw [Eg.onRamp_elapsed _ _ (by omega) hlen]; omega)
  endLevel := rfl

/-- The ticks of a Release with length run it down to 0 and enter Idle (41_envelope.md R150). -/
theorem runsSegment_release {p : EgParams} {fs : Nat} {a : Level} (ha : a.toNat ≤ 65536) (hN : 1 ≤ dur p.release.toNat fs)
    (hlen : dur p.release.toNat fs ≤ 4194300) :
    RunsSegment (fun x : Eg => x.tick p fs) .release a 0 (dur p.release.toNat fs) Eg.zero where
  nonempty := hN
  start_le := ha
  end_le := Nat.zero_le _
  goesOn n hn := by
    have htick := Eg.tick_release_of_lt (g := Eg.onRamp .release a 0 _ n) (p := p) (fs := fs) rfl
      (by rwa [Eg.onRamp_elapsed _ _ (by omega) hlen])
    exact htick.trans (Eg.onRamp_ramp _ a (by omega) hlen)
  ends := Eg.tick_release_of_le rfl (by rw [Eg.onRamp_elapsed _ _ (by omega) hlen]; omega)
  endLevel := rfl

/-- Settles O23: Attack and Release run along their ramps, and a ramp between two levels is monotone. -/
theorem envelopeRampsAreMonotone : Obligations.EnvelopeRampsAreMonotone := by
  rintro g p fs ⟨-, hlevel, -, -⟩ ⟨hA, -, -, hR⟩ hfs
  have hlen {t : Nat} (ht : t ≤ 65536) : dur t fs ≤ 4194300 := (durationRoundsHalfUp t fs).2.2 ht hfs
  refine ⟨fun _ hN => ?attack, fun _ hN => Eg.tick_attack_of_zero rfl hN, fun hs hN => ?release⟩
  case attack =>
    have hrun := runsSegment_attack hlevel hN (hlen hA)
    have hstart : g.noteOn = Eg.onRamp .attack g.level 65536 (dur p.attack.toNat fs) 0 := by
      rw [Eg.onRamp_zero]
      rfl
    rw [hstart, hrun.iterate_end]
    exact ⟨fun m n _ hmn hn => hrun.level_mono hlevel hmn hn, rfl, rfl⟩
  case release =>
    have hrun := runsSegment_release hlevel hN (hlen hR)
    have hstart : g.noteOff = Eg.onRamp .release g.level 0 (dur p.release.toNat fs) 0 := by
      rw [Eg.noteOff_of_ne_idle (by simp [hs]), Eg.onRamp_zero]
    rw [hstart]
    exact ⟨fun m n _ hmn hn => hrun.level_anti (Nat.zero_le _) hmn hn, hrun.iterate_end⟩

/-! ## What ends Sustain -/

/-- From `s` to `t` EG e stays in Sustain, and a voice whose amplitude EG it is stays active (41_envelope.md R156). -/
def State.SustainHeld (s t : State) (e : EgId) : Prop :=
  (t.egs.get e).stage = .sustain ∧ (e ≠ .e3 → s.active = true → t.active = true)

/-- What leaves the envelope generators and ACTIVE holds a Sustain. -/
theorem State.SustainHeld.of_eq {s t : State} {e : EgId} (hs : (s.egs.get e).stage = .sustain) (hegs : t.egs = s.egs)
    (hactive : t.active = s.active) : s.SustainHeld t e :=
  ⟨by rw [hegs, hs], fun _ h => hactive.trans h⟩

/-- EG e's part of the tick of all three (43_render.md R201). -/
theorem EgBank.get_tick (b : EgBank) (p : ParamSet) (fs : Nat) (e : EgId) :
    (b.tick p fs).get e = (b.get e).tick (p.eg e) fs := by
  cases e <;> rfl

/-- While an amplitude EG is in Sustain the completion test does not find the voice finished (43_render.md R211). -/
theorem voiceFinished_of_sustain {s : State} {e : EgId} (he : e ≠ .e3) (hs : (s.egs.get e).stage = .sustain) :
    s.voiceFinished = false := by
  cases e with
  | e1 => simp [State.voiceFinished, show s.egs.eg1.stage = .sustain from hs]
  | e2 => simp [State.voiceFinished, show s.egs.eg2.stage = .sustain from hs]
  | e3 => exact absurd rfl he

/-- RENDER_BLOCK's SAMPLE step ticks the envelope generators and leaves ACTIVE (43_render.md R201). -/
theorem renderSample_sustainHeld {s : State} {e : EgId} (hs : (s.egs.get e).stage = .sustain) :
    s.SustainHeld s.renderSample e := by
  refine ⟨?_, fun _ h => h⟩
  rw [State.renderSample_egs, State.tickedEgs, EgBank.get_tick, Eg.tick_sustain hs, hs]

/-- RENDER_BLOCK's FINISH step leaves the envelope generators, and ACTIVE while an amplitude EG sounds (43_render.md R211). -/
theorem renderFinish_sustainHeld {s : State} {e : EgId} (hs : (s.egs.get e).stage = .sustain) :
    s.SustainHeld s.renderFinish e := by
  refine ⟨hs, fun he h => ?_⟩
  have hactive : s.renderFinish.active = s.active := if_neg (by simp [voiceFinished_of_sustain he hs])
  rw [hactive, h]

/-- Of the ENGINE's steps only those of NOTE_ON, NOTE_OFF, FORCE_STOP and PREPARE can end a Sustain: NOP and RENDER_BLOCK hold it
(44_commands.md R236, R241). -/
theorem exec_engine_sustainHeld (i : Instr) (s u : State) (e : EgId) (hturn : s.turn = .engine) (hu : exec i s = .next u)
    (hs : (s.egs.get e).stage = .sustain) :
    s.SustainHeld u e ∨ i = .noteOn ∨ i = .noteOff ∨ i = .forceStop ∨ i = .prepare := by
  rcases exec_engine i s u hturn hu with
    ⟨-, rfl⟩ | ⟨hi, -⟩ | ⟨hi, -, -⟩ | ⟨hi, -⟩ | ⟨hi, -⟩ | ⟨-, -, rfl⟩ | ⟨-, -, -, -, rfl⟩ | ⟨-, -, rfl⟩
  · exact .inl (.of_eq hs rfl rfl)
  iterate 4 (· simp [hi])
  · exact .inl (.of_eq hs rfl rfl)
  · exact .inl (renderSample_sustainHeld hs)
  · exact .inl (renderFinish_sustainHeld hs)

/-- Settles O25: the HOST and idle turns touch no envelope generator, and the ENGINE ends a Sustain only by the four commands. -/
theorem sustainIsLeftOnlyByCommand : Obligations.SustainIsLeftOnlyByCommand := by
  intro s t e hstep hs
  obtain ⟨u, rfl, hu⟩ := step_cases s t hstep
  change s.SustainHeld u e ∨ _
  have hvoice (h : u.voiceSide = s.voiceSide) : s.SustainHeld u e := by
    simp only [State.voiceSide, Prod.mk.injEq] at h
    obtain ⟨-, -, -, -, -, hactive, -, hegs, -⟩ := h
    exact .of_eq hs hegs hactive
  rcases hu with ⟨-, i, -, rfl⟩ | ⟨-, -, rfl⟩ | ⟨-, op, -, rfl⟩ | ⟨-, -, rfl⟩ | ⟨-, rfl, -⟩ | ⟨i, hrun, hu⟩ | ⟨hreset, -⟩ | ⟨-, rfl⟩
  · exact .inl (hvoice (issue_voiceSide s i).1)
  · exact .inl (hvoice rfl)
  · exact .inl (hvoice (hostAccess_voiceSide s op).1)
  · exact .inl (hvoice rfl)
  · exact .inl (hvoice rfl)
  · rcases exec_engine_sustainHeld i s u e hrun.1 hu hs with h | rfl | rfl | rfl | rfl
    · exact .inl h
    · exact .inr (.inl hrun)
    · exact .inr (.inr (.inl hrun))
    · exact .inr (.inr (.inr (.inl hrun)))
    · exact .inr (.inr (.inr (.inr (.inl hrun))))
  · exact .inr (.inr (.inr (.inr (.inr hreset))))
  · exact .inl (hvoice rfl)

end Sys2Proof.Machine
end

section
/-! SUPPORT. The spectral filter: the gain against the real lowpass response, its exact values and its bound, and the cutoff that a
sample takes. -/

namespace Sys2Proof.Machine

/-! ## The cutoff of a sample -/

/-- The cutoff is the interpolation itself: nothing is lost when it is taken as a natural number (42_filter.md R181). -/
theorem cutoff_eq_lerp (fl pk : Word) {e : Level} (he : e.toNat ≤ 65536) :
    ((cutoff fl pk e : Nat) : Int) = lerp fl.toNat pk.toNat e.toNat 65536 := by
  have hmin := (lerp_between fl.toNat pk.toNat e.toNat 65536 he).1
  exact Int.toNat_of_nonneg ((Int.natCast_nonneg _).trans hmin)

/-- LAST_CUTOFF holds the whole cutoff: it lies between two 32-bit words (42_filter.md R181, 43_render.md R210). -/
theorem toNat_mod32_cutoff (fl pk : Word) {e : Level} (he : e.toNat ≤ 65536) :
    (mod32 (cutoff fl pk e)).toNat = cutoff fl pk e := by
  have hle := (cutoff_between fl pk e he).2
  have hlt : max fl.toNat pk.toNat < 2 ^ 32 := max_lt fl.isLt pk.isLt
  exact Nat.mod_eq_of_lt (hle.trans_lt hlt)

/-- Settles O20: the cutoff is the line's value at EG3's level after its tick, and that level is in range. -/
theorem sampleCutoffFollowsTheFilterEnvelope : Obligations.SampleCutoffFollowsTheFilterEnvelope := by
  intro s hready
  have hexec := exec_renderBlock_of_sampleReady hready
  obtain ⟨-, -, ⟨-, -, hp3, -⟩, ⟨-, -, hg3⟩, -⟩ := hready
  have hlevel : s.tickedEgs.eg3.level.toNat ≤ 65536 := (Eg.tick_ok _ _ s.fs.toNat hg3 hp3).2.1
  have hkept : s.renderSample.lastCutoff.toNat = s.sampleCutoff := toNat_mod32_cutoff _ _ hlevel
  refine ⟨s.renderSample, hexec, ?_⟩
  rw [hkept]
  exact ⟨cutoff_eq_lerp _ _ hlevel, cutoff_between _ _ _ hlevel⟩

/-! ## The gain is the floored response -/

/-- The root of a quotient, both floored, is the floored real root of the real quotient (00_scope.md R14). -/
theorem isqrt_div_eq_floor_sqrt (n : Nat) {m : Nat} (hm : 0 < m) : ((isqrt (n / m) : Nat) : Int) = ⌊√((n : ℝ) / m)⌋ := by
  obtain ⟨hle, hlt⟩ := isqrt_bounds (n / m)
  rw [Nat.le_div_iff_mul_le hm] at hle
  rw [Nat.div_lt_iff_lt_mul hm] at hlt
  have hm' : (0 : ℝ) < m := by exact_mod_cast hm
  symm
  rw [Int.floor_eq_iff]
  constructor
  · apply Real.le_sqrt_of_sq_le
    rw [le_div_iff₀ hm', sq]
    exact_mod_cast hle
  · rw [Real.sqrt_lt' (by positivity), div_lt_iff₀ hm', sq]
    exact_mod_cast hlt

/-- The gain's denominator over C⁴ · Q² is the radicand of the source's response (42_filter.md R183). -/
theorem gainDenominator_div_eq_radicand (fk : Nat) {c q : Nat} (hc : 1 ≤ c) (hq : 1 ≤ q) :
    (gainDenominator fk c q : ℝ) / ((c : ℝ) ^ 4 * q ^ 2) =
      (1 - ((fk : ℝ) / c) ^ 2) ^ 2 + ((fk : ℝ) / c / ((q : ℝ) / 2 ^ 16)) ^ 2 := by
  have hcast : (gainDenominator fk c q : ℝ) =
      ((c * c : ℝ) - fk * fk) ^ 2 * (q * q) + fk * fk * (c * c) * 2 ^ 32 := by
    exact_mod_cast congrArg (Int.cast (R := ℝ)) (gainDenominator_cast fk c q)
  have hc' : (c : ℝ) ≠ 0 := by positivity
  have hq' : (q : ℝ) ≠ 0 := by positivity
  rw [hcast]
  field_simp

/-- Settles O26: 2^16 goes under the root, where the response's radicand makes the quotient that the gain takes the root of. -/
theorem gainIsTheFlooredResponse : Obligations.GainIsTheFlooredResponse := by
  intro fk c q hc hq
  have hM : 0 < gainDenominator fk c q := gainDenominator_pos fk c q hc hq
  rw [← gainDenominator_div_eq_radicand fk hc hq, gain, isqrt_div_eq_floor_sqrt _ hM]
  congr 1
  have h16 : (2 ^ 16 : ℝ) = √(2 ^ 32) := by
    rw [show (2 ^ 32 : ℝ) = (2 ^ 16) ^ 2 by norm_num, Real.sqrt_sq (by positivity)]
  calc √(((2 ^ 32 * c ^ 4 * (q * q) : Nat) : ℝ) / gainDenominator fk c q)
      = √(2 ^ 32 / (gainDenominator fk c q / ((c : ℝ) ^ 4 * q ^ 2))) := by
        congr 1
        push_cast
        rw [div_div_eq_mul_div]
        ring
    _ = 2 ^ 16 * (1 / √(gainDenominator fk c q / ((c : ℝ) ^ 4 * q ^ 2))) := by
        rw [Real.sqrt_div (by positivity), ← h16, mul_one_div]

/-! ## Exact gains -/

/-- Where the gain's quotient is a square, the gain is its root (42_filter.md R184, R185). -/
theorem gain_eq_of_quotient {fk c q g : Nat} (hc : 1 ≤ c) (hq : 1 ≤ q)
    (h : 2 ^ 32 * c ^ 4 * (q * q) = g * g * gainDenominator fk c q) : gain fk c q = g := by
  rw [gain, h, Nat.mul_div_cancel _ (gainDenominator_pos fk c q hc hq), isqrt_mul_self]

/-- At the cutoff only the second term of the denominator is left (42_filter.md R184). -/
theorem gainDenominator_self (c q : Nat) : gainDenominator c c q = c ^ 4 * 2 ^ 32 := by
  zify
  rw [gainDenominator_cast]
  ring

/-- At 0 Hz only the first term of the denominator is left (42_filter.md R185). -/
theorem gainDenominator_zero (c q : Nat) : gainDenominator 0 c q = c ^ 4 * q ^ 2 := by
  zify
  rw [gainDenominator_cast]
  push_cast
  ring

/-- At the cutoff the gain is q (42_filter.md R184). -/
theorem gain_self {c q : Nat} (hc : 1 ≤ c) (hq : 1 ≤ q) : gain c c q = q :=
  gain_eq_of_quotient hc hq (by rw [gainDenominator_self]; ring)

/-- At 0 Hz the gain is 1.0 (42_filter.md R185). -/
theorem gain_zero {c q : Nat} (hc : 1 ≤ c) (hq : 1 ≤ q) : gain 0 c q = 65536 :=
  gain_eq_of_quotient hc hq (by rw [gainDenominator_zero]; ring)

/-- Settles O27: the quotient is Q² at the cutoff, and the spec's examples are instances of it. -/
theorem gainAtTheCutoffIsQ : Obligations.GainAtTheCutoffIsQ := by
  have hC : 1 ≤ 1572864000 := by norm_num
  exact ⟨fun c q hc hq => ⟨gainDenominator_self c q, gain_self hc hq⟩, gain_self hC (by norm_num), gain_self hC (by norm_num),
    gain_self hC (by norm_num), gain_self hC (by norm_num), gain_self hC (by norm_num)⟩

/-- Settles O28: the quotient is 2^32 at 0 Hz, the frequency of every harmonic of a fundamental of 0 Hz. -/
theorem gainAtZeroIsOne : Obligations.GainAtZeroIsOne := by
  intro c q hc hq
  refine ⟨gainDenominator_zero c q, gain_zero hc hq, ?_⟩
  rintro k f rfl
  exact gain_zero hc hq

/-! ## The gain's bound -/

/-- For a legal q the second term of the denominator is at least Fk² · C² · Q² / 2^16, so that 2^18 · M is at least
4 · ((C² - Fk²)² + Fk² · C²) · Q², itself at least 3 · C⁴ · Q² (42_filter.md R186). -/
theorem lt_mul_gainDenominator (fk : Nat) {c q : Nat} (hc : 1 ≤ c) (hq : 1 ≤ q) (hmax : q ≤ 0xFFFFFF) :
    c ^ 4 * (q * q) < 2 ^ 18 * gainDenominator fk c q := by
  have hpos : (0 : Int) < c ^ 4 * (q * q) := by positivity
  have hqq : (q * q : Int) ≤ 2 ^ 48 := by
    have : q * q ≤ 0xFFFFFF * 0xFFFFFF := Nat.mul_le_mul hmax hmax
    zify at this
    omega
  have hsquares : 3 * (c : Int) ^ 4 ≤ 4 * (((c * c : Int) - fk * fk) ^ 2 + fk * fk * (c * c)) := by
    nlinarith [sq_nonneg ((c * c : Int) - 2 * (fk * fk))]
  zify
  rw [gainDenominator_cast]
  calc (c : Int) ^ 4 * (q * q)
      < 3 * c ^ 4 * (q * q) := by linarith
    _ ≤ 4 * (((c * c : Int) - fk * fk) ^ 2 + fk * fk * (c * c)) * (q * q) :=
        mul_le_mul_of_nonneg_right hsquares (by positivity)
    _ = 4 * (((c * c : Int) - fk * fk) ^ 2 * (q * q)) + 4 * (fk * fk * (c * c) * (q * q)) := by ring
    _ ≤ 2 ^ 18 * (((c * c : Int) - fk * fk) ^ 2 * (q * q)) + 4 * (fk * fk * (c * c) * 2 ^ 48) := by
        gcongr
        norm_num
    _ = 2 ^ 18 * (((c * c : Int) - fk * fk) ^ 2 * (q * q) + fk * fk * (c * c) * 2 ^ 32) := by ring

/-- A gain's square is at most the quotient it is the root of (42_filter.md R182). -/
theorem gain_mul_self_le (fk c q : Nat) : gain fk c q * gain fk c q ≤ 2 ^ 32 * c ^ 4 * (q * q) / gainDenominator fk c q :=
  (isqrt_bounds _).1

/-- Settles O29: the quotient is below 2^50. -/
theorem gainIsDefinedAndBounded : Obligations.GainIsDefinedAndBounded := by
  intro fk c q hc hq hmax
  have hM := gainDenominator_pos fk c q hc hq
  refine ⟨hM, Nat.mul_self_lt_mul_self_iff.mp ?_⟩
  calc gain fk c q * gain fk c q
      ≤ 2 ^ 32 * c ^ 4 * (q * q) / gainDenominator fk c q := gain_mul_self_le fk c q
    _ < 2 ^ 25 * 2 ^ 25 := by
        rw [Nat.div_lt_iff_lt_mul hM]
        have := lt_mul_gainDenominator fk hc hq hmax
        linarith

end Sys2Proof.Machine
end

section
/-! SUPPORT. The sample step: the sum that a sample is, its rounding, its word of every channel, its count, and the RENDER_BLOCK of an
inactive voice, which takes none. -/

namespace Sys2Proof.Machine

/-! ## The sum of the harmonics -/

/-- The accumulator after a sample: the sum of what the included harmonics add (43_render.md R203, R206). -/
theorem sampleSum_acc (s : State) :
    s.sampleSum.2 =
      ∑ h : Fin 24,
        if (h.val + 1) * s.noteFreq.toNat ≤ s.fs.toNat * 2 ^ 15 then harmonicSum s.sampleEnv s.osc h else 0 := by
  have hnodup := (List.nodup_finRange 24).filter fun h => included s.noteFreq s.fs (h.val + 1)
  rw [sampleSum_eq_foldl, (foldl_harmonicStep s.sampleEnv _ hnodup s.osc 0).1, zero_add, ← List.sum_toFinset _ hnodup,
    List.toFinset_filter, List.toFinset_finRange, Finset.sum_filter]
  simp only [included_iff]

/-- A phase selects the table entry of its high twelve bits (40_oscillator.md R120). -/
theorem sineOf_eq (phase : Word) : sineOf phase = sineLut (phase.toNat / 2 ^ 20) := by
  unfold sineOf
  rw [BitVec.extractLsb'_toNat, Nat.shiftRight_eq_div_pow, Nat.mod_eq_of_lt (by omega)]

/-- The stages A, P1, P2 and P3 of one layer of one harmonic as the divisions that the shifts stand for
(43_render.md R204). -/
theorem contribution_amplitude (e mix : Level) (saw sqr phase : Word) (g : Nat) :
    contribution e (amplitude mix saw sqr) (sineOf phase) g =
      (e.toNat * (((65536 - mix.toNat) * saw.toInt + mix.toNat * sqr.toInt) / 65536) / 65536 *
          sineLut (phase.toNat / 2 ^ 20) / 32768 * g) / 65536 := by
  rw [sineOf_eq]
  rfl

/-- LAST_CUTOFF after a sample step is the cutoff that the sample's gains take (43_render.md R202, R210). -/
theorem renderSample_lastCutoff_toNat {s : State} (h : s.sampleReady) : s.renderSample.lastCutoff.toNat = s.sampleCutoff := by
  obtain ⟨-, -, ⟨-, -, hp3, -⟩, ⟨-, -, hg3⟩, -⟩ := h
  exact toNat_mod32_cutoff _ _ (Eg.tick_ok _ _ s.fs.toNat hg3 hp3).2.1

/-- CLIP's condition is on the magnitude (43_render.md R207). -/
theorem clips_iff (acc : Int) : clips acc = true ↔ 2 ^ 24 < |acc| := by
  rw [clips, decide_eq_true_iff, lt_abs]
  omega

/-- Settles O17: the accumulator is the sum of the harmonics' stages, at the cutoff that LAST_CUTOFF keeps. -/
theorem sampleIsTheSumOfItsHarmonics : Obligations.SampleIsTheSumOfItsHarmonics := by
  intro s hready
  refine ⟨s.renderSample, exec_renderBlock_of_sampleReady hready, fun acc hacc => ?_⟩
  have hsum : acc = s.sampleSum.2 := by
    rw [hacc, sampleSum_acc, renderSample_lastCutoff_toNat hready]
    simp only [harmonicSum, contribution_amplitude]
    rfl
  subst hsum
  refine ⟨toInt_s32_sat32 _, ?_⟩
  simp only [State.renderSample_irqStatus, clips_iff]
  rfl

/-! ## The rounding of one contribution -/

/-- A shift right is the floor of the exact quotient (00_scope.md R13). -/
theorem asr_floor (a : Int) (n : Nat) : ((asr a n : Int) : ℚ) ≤ a / 2 ^ n ∧ (a : ℚ) / 2 ^ n < (asr a n : Int) + 1 := by
  have hfloor : asr a n = ⌊(a : ℚ) / 2 ^ n⌋ := by
    have h := Rat.floor_intCast_div_natCast a (2 ^ n)
    push_cast at h
    exact h.symm
  rw [hfloor]
  exact ⟨Int.floor_le _, Int.lt_floor_add_one _⟩

/-- Stages P1 and P2: the product shifted by 16 and then, times a sine entry, by 15 is less than 2 below the exact product and less
than 1 above it (43_render.md R205). -/
theorem asr_mul_asr_bounds (a s : Int) (hlo : -32767 ≤ s) (hhi : s ≤ 32767) :
    (a : ℚ) * s / 2 ^ 31 - 2 < (asr (asr a 16 * s) 15 : Int) ∧ ((asr (asr a 16 * s) 15 : Int) : ℚ) < a * s / 2 ^ 31 + 1 := by
  obtain ⟨hle, hlt⟩ := asr_floor a 16
  obtain ⟨hle', hlt'⟩ := asr_floor (asr a 16 * s) 15
  push_cast at hle' hlt'
  have hs : |(s : ℚ)| ≤ 32767 := abs_le.mpr ⟨by exact_mod_cast hlo, by exact_mod_cast hhi⟩
  have hfrac : |(a : ℚ) / 2 ^ 16 - asr a 16| ≤ 1 := abs_le.mpr ⟨by linarith, by linarith⟩
  have herr : |((a : ℚ) / 2 ^ 16 - asr a 16) * s| ≤ 32767 := by
    rw [abs_mul]
    nlinarith [abs_nonneg (s : ℚ)]
  obtain ⟨hneg, hpos⟩ := abs_le.mp herr
  constructor <;> linarith

/-- A contribution against the exact product: the errors of the first two stages, scaled by the gain, and that of the last shift
(43_render.md R205). -/
theorem contribution_bounds (e : Level) (A s : Int) (G : Nat) {T : ℚ} (hlo : -32767 ≤ s) (hhi : s ≤ 32767)
    (hT : T = (e.toNat : ℚ) * A * s * G / 2 ^ 47) :
    T - 2 * (G : ℚ) / 2 ^ 16 - 1 < (contribution e A s G : Int) ∧
      ((contribution e A s G : Int) : ℚ) ≤ T + (G : ℚ) / 2 ^ 16 ∧
      (1 ≤ G → ((contribution e A s G : Int) : ℚ) < T + (G : ℚ) / 2 ^ 16) := by
  obtain ⟨hlow, hupp⟩ := asr_mul_asr_bounds (lvl e * A) s hlo hhi
  have hlvl : ((lvl e * A : Int) : ℚ) = e.toNat * A := by simp [lvl]
  rw [hlvl] at hlow hupp
  obtain ⟨hle, hlt⟩ := asr_floor (asr (asr (lvl e * A) 16 * s) 15 * G) 16
  push_cast at hle hlt
  have hG : (0 : ℚ) ≤ G := Nat.cast_nonneg G
  have hlowG := mul_le_mul_of_nonneg_right hlow.le hG
  have huppG := mul_le_mul_of_nonneg_right hupp.le hG
  unfold contribution
  refine ⟨by linarith, by linarith, fun h1 => ?_⟩
  have hpos : (0 : ℚ) < G := by exact_mod_cast h1
  have hltG := mul_lt_mul_of_pos_right hupp hpos
  linarith

/-- A harmonic of gain 0 contributes nothing (43_render.md R204). -/
theorem contribution_gain_zero (e : Level) (A s : Int) : contribution e A s 0 = 0 := by
  simp [contribution, asr]

/-- Settles O32: the errors of the three shifts after stage A are bounded one by one, and a gain of 0 is the case apart. -/
theorem contributionRoundingIsBounded : Obligations.ContributionRoundingIsBounded := by
  intro e A s G T hlo hhi hT
  obtain ⟨hlow, hupp, hstrict⟩ := contribution_bounds e A s G hlo hhi hT
  have hG : (0 : ℚ) ≤ G := Nat.cast_nonneg G
  refine ⟨abs_lt.mpr ⟨by linarith, by linarith⟩, hlow, hstrict, ?_⟩
  rintro rfl
  exact ⟨contribution_gain_zero e A s, by simp [hT]⟩

/-! ## The sample in OUTBUF -/

/-- A word of another channel or at another index is not one that a sample step writes (43_render.md R209). -/
theorem out_renderSample_of_ne {s : State} (hm : Memory.wf s.outbuf) (hidx : s.sampleIndex < s.inst.blockMax) {ch i : Nat}
    (hi : i < s.inst.blockMax) (hne : s.channels.toNat ≤ ch ∨ i ≠ s.sampleIndex) : s.renderSample.out ch i = s.out ch i := by
  refine word_accumulateOut_of_outside _ _ _ _ _ _ _ hm fun d hd => ?_
  have hd : d < s.channels.toNat := List.mem_range.mp hd
  exact outAddr_disjoint s.inst ch d i s.sampleIndex hi hidx (by omega)

/-- Settles O19: the step adds to its word of each channel below CHANNELS, and every other word lies apart from those. -/
theorem sampleAccumulatesIntoOutbuf : Obligations.SampleAccumulatesIntoOutbuf := by
  intro s hready hm
  have hexec := exec_renderBlock_of_sampleReady hready
  obtain ⟨-, -, -, -, hidx, -⟩ := hready
  exact ⟨s.renderSample, hexec, fun c hc => out_renderSample hm hc hidx,
    fun c i hi hne => out_renderSample_of_ne hm hidx hi hne⟩

/-! ## The count of samples -/

/-- Of the ENGINE's steps only RENDER_BLOCK's SAMPLE step counts a sample (43_render.md R210). -/
theorem exec_engine_sampleCnt (i : Instr) (s u : State) (hturn : s.turn = .engine) (hu : exec i s = .next u) :
    u.sampleCnt = if i = .renderBlock ∧ s.rbPhase = .sample then s.sampleCnt + 1#32 else s.sampleCnt := by
  rcases exec_engine i s u hturn hu with
    ⟨rfl, rfl⟩ | ⟨rfl, rfl⟩ | ⟨rfl, -, rfl⟩ | ⟨rfl, rfl⟩ | ⟨rfl, rfl⟩ | ⟨rfl, hph, rfl⟩ | ⟨rfl, hph, -, -, rfl⟩ |
      ⟨rfl, hph, rfl⟩
  iterate 5 (· simp)
  all_goals simp [hph]

/-- At most one command's step is the next one (44_commands.md R234). -/
theorem engineRuns_iff_eq {s : State} {i j : Instr} (hi : s.engineRuns i) : s.engineRuns j ↔ i = j := by
  obtain ⟨hturn, hb, hp, hcmd⟩ := hi
  constructor
  · rintro ⟨-, -, -, hcmd'⟩
    exact Option.some.inj (hcmd.symm.trans hcmd')
  · rintro rfl
    exact ⟨hturn, hb, hp, hcmd⟩

/-- A step that is not a reset counts a sample exactly when it is RENDER_BLOCK's SAMPLE step (43_render.md R210). -/
theorem step_sampleCnt (s t : State) (hstep : step s = .next t) (hreset : s.turn ≠ .assertReset) :
    t.sampleCnt =
      if s.engineRuns .renderBlock ∧ s.rbPhase = .sample then s.sampleCnt + 1#32 else s.sampleCnt := by
  by_cases hhost : s.turn = .host
  · obtain ⟨-, -, -, -, -, -, -, -, -, -, -, hcnt, -, -⟩ := hostNeverWritesVoiceState s t hhost hstep
    simp [hhost, hcnt]
  obtain ⟨u, rfl, hu⟩ := step_cases s t hstep
  rw [State.retire_sampleCnt]
  rcases hu with ⟨ht, -⟩ | ⟨ht, -⟩ | ⟨ht, -⟩ | ⟨ht, -⟩ | ⟨-, rfl, hidle⟩ | ⟨i, hrun, hu⟩ | ⟨ht, -⟩ | ⟨ht, rfl⟩
  iterate 4 (· exact absurd ht hhost)
  · rw [if_neg]
    rintro ⟨⟨-, hb, hp, -⟩, -⟩
    simp [hb, hp] at hidle
  · rw [exec_engine_sampleCnt i s u hrun.1 hu]
    exact if_congr (and_congr_left' (engineRuns_iff_eq hrun).symm) rfl rfl
  · exact absurd ht hreset
  · simp [ht]

/-- Settles O48: no other step of the ENGINE and no step of the HOST touches the count, which is a word. -/
theorem sampleCountCountsSampleSteps : Obligations.SampleCountCountsSampleSteps := by
  intro s t hstep hreset
  rw [step_sampleCnt s t hstep hreset, apply_ite BitVec.toNat, BitVec.toNat_add]
  rfl

/-! ## The RENDER_BLOCK of an inactive voice -/

/-- While a command is in progress the turn is the ENGINE's if the list's next one is, also where the list is used up. -/
theorem turn_of_engine_turns {s : State} {n : Nat} (hb : s.busy = true) (hp : s.resetPin = false)
    (hturns : ∀ u ∈ s.sched.take (n + 1), u = .engine) : s.turn = .engine := by
  unfold State.turn
  cases hs : s.sched with
  | nil => simp [hb, hp]
  | cons u us => exact hturns u (by simp [hs])

/-- The turns left after the ENGINE's next one. -/
theorem tail_engine_turns {l : List Turn} {n : Nat} (h : ∀ u ∈ l.take (n + 1), u = .engine) :
    ∀ u ∈ l.tail.take n, u = .engine := by
  cases l with
  | nil => simp
  | cons a l => exact fun u hu => h u (List.mem_cons_of_mem a hu)

/-- The ENGINE's turn uses up the turn and none of the HOST's statements. -/
theorem retire_of_engine_turn {s u : State} (hturn : s.turn = .engine) (hhost : u.host = s.host) :
    s.retire u = { u with sched := s.sched.tail } := by
  simp [State.retire, hturn, hhost]

/-- RENDER_BLOCK's COMMIT step as a step of the total order (44_commands.md R241). -/
theorem step_renderCommit {s : State} (hrun : s.engineRuns .renderBlock) (hph : s.rbPhase = .commit) :
    step s = .next (s.retire s.renderCommit) :=
  step_of_engineRuns hrun (by simp [exec, execRenderBlock, hrun.1, hph])

/-- RENDER_BLOCK's FINISH step as a step of the total order (44_commands.md R241). -/
theorem step_renderFinish {s : State} (hrun : s.engineRuns .renderBlock) (hph : s.rbPhase = .finish) :
    step s = .next (s.retire s.renderFinish) :=
  step_of_engineRuns hrun (by simp [exec, execRenderBlock, hrun.1, hph])

/-- The COMMIT step of an inactive voice goes on to FINISH (43_render.md R212, 44_commands.md R241). -/
theorem renderCommit_of_inactive {s : State} (h : s.active = false) :
    s.renderCommit = { s.commit with rbI := 0#32, rbPhase := .finish } := by
  simp [State.renderCommit, h]

/-- The FINISH step of an inactive voice only completes (43_render.md R211, R212). -/
theorem renderFinish_of_inactive {s : State} (h : s.active = false) : s.renderFinish = s.complete := by
  have hvoice : s.voiceFinished = false := by simp [State.voiceFinished, h]
  simp [State.renderFinish, State.completionTest, hvoice]

/-- Settles O59: the COMMIT step and the FINISH step, each as it is when the voice is inactive. -/
theorem inactiveVoiceRendersNothing : Obligations.InactiveVoiceRendersNothing := by
  intro s _ hrun hph hactive hturns
  have hcommit := step_renderCommit hrun hph
  obtain ⟨hturn, hb, hp, hcmd⟩ := hrun
  have hturn' : (s.retire s.renderCommit).turn = .engine := turn_of_engine_turns (n := 0) hb hp (tail_engine_turns hturns)
  have hfinish := step_renderFinish (s := s.retire s.renderCommit) ⟨hturn', hb, hp, hcmd⟩ (by simp [hactive])
  have hdrop : s.sched.drop 2 = s.sched.tail.tail := by simp only [← List.drop_one, List.drop_drop]
  refine (run_two hcommit hfinish).trans (congrArg Host.Outcome.next ?_)
  rw [renderFinish_of_inactive (s := s.retire s.renderCommit) hactive, retire_of_engine_turn hturn' (State.complete_host _),
    retire_of_engine_turn hturn (State.renderCommit_host s), renderCommit_of_inactive hactive, hdrop]
  rfl

end Sys2Proof.Machine
end

section
/-! SUPPORT. The commands, one equation per kind of step: what a command's issue answers, and what each command's ENGINE step leaves;
and the step of the total order that runs them. -/

namespace Sys2Proof.Machine

/-! ## The step that runs a command -/

/-- The command in progress is due at the ENGINE's turn (44_commands.md R234). -/
theorem due_of_engineRuns {s : State} {i : Instr} (h : s.engineRuns i) : s.due = .command i := by
  obtain ⟨hturn, hrest⟩ := h
  simp only [State.due, hturn]
  exact (engineDue_command s i).mpr hrest

/-- The ENGINE's step of the command in progress uses up the turn and no statement of the HOST (44_commands.md R234). -/
theorem step_of_engineRuns_eq {s t : State} {i : Instr} (hrun : s.engineRuns i) (ht : exec i s = .next t) :
    step s = .next { t with sched := s.sched.tail, host := s.host } := by
  rw [step_of_engineRuns hrun ht, State.retire, if_neg (by simp [hrun.1])]

/-- The issue of a command uses up the turn and the statement that wrote the command's word (44_commands.md R230). -/
theorem step_of_hostIssues {s t : State} {i : Instr} (hissue : s.hostIssues (encodeWord i)) (ht : exec i s = .next t) :
    step s = .next { t with sched := s.sched.tail, host := s.host.tail } := by
  obtain ⟨hturn, hp, hhead⟩ := hissue
  have hdue : s.due = .command i := by
    simp only [State.due, hturn]
    exact (hostDue_command s i).mpr ⟨hp, hhead⟩
  obtain ⟨ops, hhost⟩ := List.head?_eq_some_iff.mp hhead
  rw [step_of_command hdue, ht, retired, State.retire, if_pos hturn, hhost]
  rfl

/-- The bytes of a word that decode to a command are those of the command's own word (30_encoding.md R91, R95). -/
theorem eq_encodeWord_of_decodeBytes {w : Word} {i : Instr} (h : decodeBytes (bytesOfWord w) = .ok (i, [])) :
    w = encodeWord i := by
  obtain ⟨hword, -⟩ := (decodeBytes_of_four _ _ _ _ _ _ _).mp h
  rwa [wordOfBytes_bytes, decodeWord_eq_ok] at hword

/-- Settles O4: at either turn the decoded command is the one that is due, an abort request before CUR_CMD. -/
theorem stepRunsTheDecodedCommand : Obligations.StepRunsTheDecodedCommand := by
  refine ⟨fun s t w i hissue hdec ht => ?_, fun s t i hturn hb hp ha hc hi ht => ?_, fun s t hturn hb hp ha ht => ?_,
    fun s i f hrun hf => ?_⟩
  · rw [eq_encodeWord_of_decodeBytes hdec] at hissue
    exact step_of_hostIssues hissue ht
  · exact step_of_engineRuns_eq ⟨hturn, hb, hp, (engineCommand_eq_some s i).mpr (.inr ⟨ha, hi, hc⟩)⟩ ht
  · exact step_of_engineRuns_eq ⟨hturn, hb, hp, (engineCommand_eq_some s .forceStop).mpr (.inl ⟨ha, rfl⟩)⟩ ht
  · rw [step_of_command (due_of_engineRuns hrun), hf]
    rfl

/-! ## Issue -/

/-- While a command is in progress every other command but FORCE_STOP is rejected (44_commands.md R230). -/
theorem issue_of_busy {s : State} {i : Instr} (hb : s.busy = true) (hi : i ≠ .forceStop) : s.issue i = s.reject .busy := by
  simp [State.issue, hb, hi]

/-- NOTE_ON and RENDER_BLOCK need a prepared voice (44_commands.md R230). -/
theorem issue_of_unprepared {s : State} {i : Instr} (hb : s.busy = false) (hp : s.prepared = false)
    (hi : i = .noteOn ∨ i = .renderBlock) : s.issue i = s.reject .notPrepared := by
  simp [State.issue, hb, hp, hi]

/-- PREPARE needs a legal configuration, and without one the voice is no longer prepared (44_commands.md R230). -/
theorem issue_prepare_of_illegal {s : State} (hb : s.busy = false)
    (hc : ¬LegalConfig s.inst s.arg0 s.arg1 s.arg2) : s.issue .prepare = { s with prepared := false }.reject .config := by
  have hbad : s.configOk = false := by rwa [← Bool.not_eq_true, configOk_iff]
  simp [State.issue, hb, hbad]

/-- RENDER_BLOCK's check at issue is that its samples lie in the block (44_commands.md R230). -/
theorem rangeOk_iff (s : State) : s.rangeOk = true ↔ s.arg0.toNat + s.arg1.toNat ≤ s.blockSize.toNat :=
  decide_eq_true_iff

/-- RENDER_BLOCK's samples must lie in the block (44_commands.md R230). -/
theorem issue_renderBlock_of_outside {s : State} (hb : s.busy = false) (hp : s.prepared = true)
    (hr : s.blockSize.toNat < s.arg0.toNat + s.arg1.toNat) : s.issue .renderBlock = s.reject .range := by
  have hbad : s.rangeOk = false := by
    rw [← Bool.not_eq_true, rangeOk_iff]
    omega
  simp [State.issue, hb, hp, hbad]

/-- A command that passes the checks of its own is accepted (44_commands.md R230, R233). -/
theorem issue_eq_accept {s : State} {i : Instr} (hb : s.busy = false ∨ i = .forceStop)
    (hp : i = .noteOn ∨ i = .renderBlock → s.prepared = true)
    (hc : i = .prepare → LegalConfig s.inst s.arg0 s.arg1 s.arg2)
    (hr : i = .renderBlock → s.arg0.toNat + s.arg1.toNat ≤ s.blockSize.toNat) : s.issue i = s.accept i := by
  simp only [← configOk_iff, ← rangeOk_iff] at hc hr
  rcases issue_cases s i with
    ⟨hb', hi, -⟩ | ⟨-, hp', hi, -⟩ | ⟨-, hi, hc', -⟩ | ⟨-, hi, -, hr', -⟩ | ⟨-, -, -, -, he⟩
  · simp [hb', hi] at hb
  · simp [hp hi] at hp'
  · simp [hc hi] at hc'
  · simp [hr hi] at hr'
  · exact he

/-- Settles O8: at the HOST's turn a command is its issue, and each check that fails has its rejection. -/
theorem issueRejectsInOrder : Obligations.IssueRejectsInOrder := by
  refine ⟨fun s i hturn hb hi => ?_, fun s i hturn hb hp hi => ?_, fun s hturn hb hc => ?_, fun s hturn hb hp hr => ?_⟩ <;>
    rw [exec_host _ s hturn]
  · rw [issue_of_busy hb hi]
    rfl
  · rw [issue_of_unprepared hb hp hi]
    rfl
  · rw [issue_prepare_of_illegal hb hc]
    rfl
  · rw [issue_renderBlock_of_outside hb hp hr]
    rfl

/-- At the HOST's turn a command that passes the checks of its own is accepted (44_commands.md R230, R233). -/
theorem exec_host_accepts {s : State} {i : Instr} (hturn : s.turn = .host) (hb : s.busy = false ∨ i = .forceStop)
    (hp : i = .noteOn ∨ i = .renderBlock → s.prepared = true)
    (hc : i = .prepare → LegalConfig s.inst s.arg0 s.arg1 s.arg2)
    (hr : i = .renderBlock → s.arg0.toNat + s.arg1.toNat ≤ s.blockSize.toNat) : exec i s = .next (s.accept i) := by
  rw [exec_host i s hturn, issue_eq_accept hb hp hc hr]

/-- A FORCE_STOP accepted with no command in progress is latched, its abort requested (44_commands.md R233). -/
theorem accept_forceStop_of_idle {s : State} (hb : s.busy = false) :
    s.accept .forceStop = { s.latch .forceStop with abortReq := true } := by
  rw [State.accept, if_neg (by simp [hb])]

/-- A FORCE_STOP accepted during a command requests its abort and leaves it latched (44_commands.md R233). -/
theorem accept_forceStop_of_busy {s : State} (hb : s.busy = true) : s.accept .forceStop = { s with abortReq := true } := by
  rw [State.accept, if_pos hb]

/-- Settles O9: a command that passes its checks is accepted; only FORCE_STOP's acceptance depends on BUSY. -/
theorem issueAcceptsAndLatches : Obligations.IssueAcceptsAndLatches := by
  intro s hturn
  have hstop : exec .forceStop s = .next (s.accept .forceStop) := exec_host_accepts hturn (.inr rfl) nofun nofun nofun
  refine ⟨fun hb => ?_, fun hb hc => ?_, fun hb hp => ?_, fun hb => ?_, fun hb => ?_, fun hb => ?_, fun hb hp hr => ?_⟩
  · exact exec_host_accepts hturn (.inl hb) nofun nofun nofun
  · exact exec_host_accepts hturn (.inl hb) nofun (fun _ => hc) nofun
  · exact exec_host_accepts hturn (.inl hb) (fun _ => hp) nofun nofun
  · exact exec_host_accepts hturn (.inl hb) nofun nofun nofun
  · rw [hstop, accept_forceStop_of_idle hb]
    rfl
  · rw [hstop, accept_forceStop_of_busy hb]
  · exact exec_host_accepts hturn (.inl hb) (fun _ => hp) nofun fun _ => hr

/-! ## The ENGINE step of each command -/

section
variable {s : State} (hturn : s.turn = .engine)
include hturn

/-- NOP's ENGINE step (44_commands.md R236). -/
theorem exec_nop_engine : exec .nop s = .next s.complete := by simp [exec, execNop, hturn]

/-- PREPARE's ENGINE step (44_commands.md R237). -/
theorem exec_prepare_engine :
    exec .prepare s =
      .next
        { s with
          fs := s.larg0
          blockSize := s.larg1
          channels := s.larg2
          prepared := true
          egs := s.egs.stop
          active := false }.complete := by
  simp [exec, execPrepare, hturn]

/-- NOTE_ON's ENGINE step, where the sample rate is not 0 (44_commands.md R238). -/
theorem exec_noteOn_engine (hfs : s.fs ≠ 0#32) : exec .noteOn s = .next s.startNote := by
  simp [exec, execNoteOn, hturn, hfs]

/-- NOTE_OFF's ENGINE step (44_commands.md R239). -/
theorem exec_noteOff_engine : exec .noteOff s = .next { s with egs := s.egs.noteOff }.complete := by
  simp [exec, execNoteOff, hturn]

/-- FORCE_STOP's ENGINE step (44_commands.md R240). -/
theorem exec_forceStop_engine : exec .forceStop s = .next s.abortStep := by simp [exec, execForceStop, hturn]

/-- RENDER_BLOCK's COMMIT step (44_commands.md R241). -/
theorem exec_renderBlock_commit (hph : s.rbPhase = .commit) : exec .renderBlock s = .next s.renderCommit := by
  simp [exec, execRenderBlock, hturn, hph]

/-- RENDER_BLOCK's SAMPLE step, where its gains are defined and its words exist (44_commands.md R241). -/
theorem exec_renderBlock_sample (hph : s.rbPhase = .sample) (hgain : s.gainDefined = true) (hin : s.insideOutbuf = true) :
    exec .renderBlock s = .next s.renderSample := by
  simp [exec, execRenderBlock, hturn, hph, hgain, hin]

/-- RENDER_BLOCK's FINISH step (44_commands.md R241). -/
theorem exec_renderBlock_finish (hph : s.rbPhase = .finish) : exec .renderBlock s = .next s.renderFinish := by
  simp [exec, execRenderBlock, hturn, hph]

end

/-- Settles O10: NOP's step is the completion alone. -/
theorem nopOnlyCompletes : Obligations.NopOnlyCompletes := fun _ hturn => exec_nop_engine hturn

/-- Settles O11: a stopped envelope generator is the zeroed one. -/
theorem prepareConfiguresAndStops : Obligations.PrepareConfiguresAndStops := fun _ hturn => exec_prepare_engine hturn

/-- An increment is the rounded quotient, mod 2^32 (40_oscillator.md R113, R114). -/
theorem increments_toNat (f ratio fs : Nat) (h : Fin 24) :
    (increments f ratio fs)[h].toNat = (2 * ((h.val + 1) * f * ratio) + fs) / (2 * fs) % 2 ^ 32 := by
  simp [increments, mod32, rhu]

/-- The ratio after a commit is the shadow's if its group is dirty (44_commands.md R232). -/
theorem committed_ratio_toNat (dirty : BitVec 5) (shadow live : ParamSet) :
    (committed dirty shadow live).osc.ratio.toNat =
      if dirty.getLsbD 4 then shadow.osc.ratio.toNat else live.osc.ratio.toNat := by
  simp only [committed, apply_ite OscParams.ratio, apply_ite BitVec.toNat]

/-- Settles O12: the two layers' increments are those of R113's ratio 1 and of the ratio after the commit. -/
theorem noteOnStartsTheNote : Obligations.NoteOnStartsTheNote := by
  intro s hturn hfs
  refine ⟨increments s.larg0.toNat 65536 s.fs.toNat,
    increments s.larg0.toNat (committed s.dirty s.shadow s.live).osc.ratio.toNat s.fs.toNat,
    exec_noteOn_engine hturn hfs, fun h => ⟨increments_toNat _ _ _ h, ?_⟩⟩
  rw [← committed_ratio_toNat]
  exact increments_toNat _ _ _ h

/-- Settles O13: a release leaves an Idle generator as it is. -/
theorem noteOffReleasesEveryEnvelope : Obligations.NoteOffReleasesEveryEnvelope := fun _ hturn => exec_noteOff_engine hturn

/-- Settles O14: a stopped envelope generator is the zeroed one. -/
theorem abortStepStopsTheVoice : Obligations.AbortStepStopsTheVoice := fun _ hturn => exec_forceStop_engine hturn

/-- A RENDER_BLOCK produces samples if the voice is active and it asks for any (44_commands.md R241). -/
theorem hasSamples_iff (s : State) : (s.active && s.numSamples != 0#32) = true ↔ s.active = true ∧ 0 < s.larg1.toNat := by
  simp only [State.numSamples, Bool.and_eq_true, bne_iff_ne]
  exact and_congr_right' (by bv_omega)

/-- Settles O15: the step goes on to SAMPLE exactly when there are samples to produce. -/
theorem renderCommitStep : Obligations.RenderCommitStep := by
  intro s hturn hph
  rw [exec_renderBlock_commit hturn hph, State.renderCommit]
  simp only [hasSamples_iff]
  rfl

/-- The voice is finished when it is active and its two amplitude envelopes are Idle (43_render.md R211). -/
theorem voiceFinished_iff (s : State) :
    s.voiceFinished = true ↔ s.active = true ∧ s.egs.eg1.stage = .idle ∧ s.egs.eg2.stage = .idle := by
  simp [State.voiceFinished, and_assoc]

/-- Settles O21: VOICE_DONE and CMD_DONE are set together when the voice is finished, else CMD_DONE alone. -/
theorem renderFinishStep : Obligations.RenderFinishStep := by
  intro s hturn hph
  rw [exec_renderBlock_finish hturn hph, State.renderFinish, State.complete, State.completionTest]
  simp only [← voiceFinished_iff]
  by_cases hdone : s.voiceFinished = true
  · simp only [if_pos hdone, BitVec.or_assoc]
    rfl
  · simp only [if_neg hdone]
    rfl

/-! ## What a SAMPLE step leaves -/

/-- The bank after a sample differs in its phases only (43_render.md R200). -/
theorem sampleSum_osc (s : State) :
    s.sampleSum.1 = { s.osc with phase1 := s.sampleSum.1.phase1, phase2 := s.sampleSum.1.phase2 } := by
  have hinc1 : s.sampleSum.1.inc1 = s.osc.inc1 := harmonics_inc s.sampleEnv _ _ _ .l1
  have hinc2 : s.sampleSum.1.inc2 = s.osc.inc2 := harmonics_inc s.sampleEnv _ _ _ .l2
  calc
    s.sampleSum.1 = ⟨s.sampleSum.1.phase1, s.sampleSum.1.phase2, s.sampleSum.1.inc1, s.sampleSum.1.inc2⟩ := rfl
    _ = ⟨s.sampleSum.1.phase1, s.sampleSum.1.phase2, s.osc.inc1, s.osc.inc2⟩ := by rw [hinc1, hinc2]

/-- Of the flags a sample step sets CLIP at most (43_render.md R207). -/
theorem renderSample_irqStatus_cases (s : State) :
    s.renderSample.irqStatus = s.irqStatus ∨ s.renderSample.irqStatus = s.irqStatus ||| Flag.clip.mask := by
  rw [State.renderSample_irqStatus]
  split
  · exact .inr rfl
  · exact .inl rfl

/-- A byte outside the sample's words reads as before (43_render.md R209). -/
theorem outByte_renderSample_of_outside {s : State} (hm : Memory.wf s.outbuf) {a : Nat}
    (ha : ∀ ch < s.channels.toNat,
      a < outAddr s.inst ch s.sampleIndex ∨ outAddr s.inst ch s.sampleIndex + 4 ≤ a) :
    s.renderSample.outByte a = s.outByte a :=
  byte_accumulateOut_of_outside _ _ _ _ _ _ _ hm fun ch hch => ha ch (List.mem_range.mp hch)

/-- Settles O16: the sample step's record, with the bank's increments and the bytes outside the sample's words as before. -/
theorem sampleStepChangesOnlyItsOwn : Obligations.SampleStepChangesOnlyItsOwn := by
  intro s hready hm
  exact ⟨s.renderSample, exec_renderBlock_of_sampleReady hready,
    congrArg (fun bank => { s.renderSample with osc := bank }) (sampleSum_osc s),
    renderSample_irqStatus_cases s, fun a ha => outByte_renderSample_of_outside hm ha⟩

end Sys2Proof.Machine
end

section
/-! SUPPORT. Runs of the commands: the commit points, the velocity that nothing reads, the commands of one ENGINE step, and the steps
of a whole RENDER_BLOCK. -/

namespace Sys2Proof.Machine

/-! ## The commit points -/

/-- Of the ENGINE's steps only NOTE_ON's and RENDER_BLOCK's COMMIT step touch the active copies (44_commands.md R232). -/
theorem exec_engine_live (i : Instr) (s u : State) (hturn : s.turn = .engine) (hu : exec i s = .next u) :
    u.live = s.live ∨ i = .noteOn ∨ (i = .renderBlock ∧ s.rbPhase = .commit) := by
  rcases exec_engine i s u hturn hu with
    ⟨-, rfl⟩ | ⟨-, rfl⟩ | ⟨hi, -, -⟩ | ⟨-, rfl⟩ | ⟨-, rfl⟩ | ⟨hi, hph, -⟩ | ⟨-, -, -, -, rfl⟩ | ⟨-, -, rfl⟩
  iterate 2 (· exact .inl rfl)
  · exact .inr (.inl hi)
  iterate 2 (· exact .inl rfl)
  · exact .inr (.inr ⟨hi, hph⟩)
  all_goals exact .inl rfl

/-- Settles O47: no step of the HOST touches the active copies, nor does the reset input's release or any other step of the
ENGINE. -/
theorem activeCopiesChangeOnlyAtACommit : Obligations.ActiveCopiesChangeOnlyAtACommit := by
  intro s t hstep hne
  by_cases hhost : s.turn = .host
  · obtain ⟨-, -, -, -, -, -, hlive, -⟩ := hostNeverWritesVoiceState s t hhost hstep
    exact absurd hlive hne
  obtain ⟨u, rfl, hu⟩ := step_cases s t hstep
  rw [State.retire_live] at hne
  rcases hu with ⟨ht, -⟩ | ⟨ht, -⟩ | ⟨ht, -⟩ | ⟨ht, -⟩ | ⟨-, rfl, -⟩ | ⟨i, hrun, hu⟩ | ⟨ht, -⟩ | ⟨-, rfl⟩
  iterate 4 (· exact absurd ht hhost)
  · exact absurd rfl hne
  · rcases exec_engine_live i s u hrun.1 hu with hlive | rfl | ⟨rfl, hph⟩
    · exact absurd hlive hne
    · exact .inl hrun
    · exact .inr (.inl ⟨hrun, hph⟩)
  · exact .inr (.inr ht)
  · exact absurd rfl hne

/-! ## The velocity -/

/-- The state with another value in NOTE_VEL (10_state.md R34). -/
def State.withVel (s : State) (v : Word) : State := { s with noteVel := v }

/-- An ENGINE step of a command does the same whatever NOTE_VEL holds, and NOTE_ON's replaces it (44_commands.md R238, R243). -/
theorem exec_engine_withVel (i : Instr) (s u : State) (v : Word) (hturn : s.turn = .engine) (hu : exec i s = .next u) :
    exec i (s.withVel v) = .next (u.withVel (if i = .noteOn then u.noteVel else v)) := by
  have hturn' : (s.withVel v).turn = .engine := hturn
  rcases exec_engine i s u hturn hu with
    ⟨rfl, rfl⟩ | ⟨rfl, rfl⟩ | ⟨rfl, hfs, rfl⟩ | ⟨rfl, rfl⟩ | ⟨rfl, rfl⟩ | ⟨rfl, hph, rfl⟩ | ⟨rfl, hph, hgain, hin, rfl⟩ |
      ⟨rfl, hph, rfl⟩
  · exact exec_nop_engine hturn'
  · exact exec_prepare_engine hturn'
  · exact exec_noteOn_engine hturn' hfs
  · exact exec_noteOff_engine hturn'
  · exact exec_forceStop_engine hturn'
  · exact exec_renderBlock_commit hturn' hph
  · exact exec_renderBlock_sample hturn' hph hgain hin
  · exact exec_renderBlock_finish hturn' hph

/-- The ENGINE's turn with no command in progress, or under reset, changes nothing but the turn (44_commands.md R234). -/
theorem step_of_engine_idle {s : State} (hturn : s.turn = .engine) (hidle : s.busy = false ∨ s.resetPin = true) :
    step s = .next (s.retire s) := by
  refine step_of_idle s ?_
  rcases hidle with h | h <;> simp [State.due, hturn, State.engineDue, h]

/-- Settles O50: whether the ENGINE has a step does not depend on NOTE_VEL, and what its step does not either. -/
theorem velocityHasNoEffect : Obligations.VelocityHasNoEffect := by
  intro s t v hturn hstep
  change step (s.withVel v) = .next (t.withVel (if s.engineRuns .noteOn then t.noteVel else v))
  obtain ⟨u, rfl, hu⟩ := step_cases s t hstep
  rcases hu with ⟨ht, -⟩ | ⟨ht, -⟩ | ⟨ht, -⟩ | ⟨ht, -⟩ | ⟨-, rfl, hidle⟩ | ⟨i, hrun, hu⟩ | ⟨ht, -⟩ | ⟨ht, -⟩
  iterate 4 (· simp [hturn] at ht)
  · rw [if_neg]
    · exact step_of_engine_idle (s := u.withVel v) hturn hidle
    · rintro ⟨-, hb, hp, -⟩
      simp [hb, hp] at hidle
  · rw [step_of_engineRuns (s := s.withVel v) hrun (exec_engine_withVel i s u v hturn hu)]
    simp only [engineRuns_iff_eq hrun]
    rfl
  all_goals simp [hturn] at ht

/-! ## The commands of one step -/

/-- A completed command has left CMD_DONE set (44_commands.md R242). -/
theorem complete_cmdDone (s : State) : s.complete.irqStatus.getLsbD 0 = true := by
  simp [Flag.mask, Flag.bit]

/-- A NOTE_ON in progress finds a sample rate (10_state.md R49 item 6, 44_commands.md R230). -/
theorem Inv.fs_ne_zero {s : State} (h : Inv s) (hrun : s.engineRuns .noteOn) : s.fs ≠ 0#32 := by
  obtain ⟨-, hb, -, hcmd⟩ := hrun
  obtain ⟨-, hf⟩ | ⟨-, -, hc⟩ := (engineCommand_eq_some s .noteOn).mp hcmd
  · cases hf
  · have hfs := h.spec.sampleRate (h.starting hb hc)
    intro h0
    simp [h0] at hfs

/-- Settles O58: each of the five commands has one ENGINE step, and it completes. -/
theorem otherCommandsTakeOneStep : Obligations.OtherCommandsTakeOneStep := by
  intro s i hinv hrun hi
  have hturn := hrun.1
  cases i
  case nop => exact ⟨_, step_of_engineRuns hrun (exec_nop_engine hturn), rfl, complete_cmdDone _, rfl⟩
  case prepare => exact ⟨_, step_of_engineRuns hrun (exec_prepare_engine hturn), rfl, complete_cmdDone _, rfl⟩
  case noteOn =>
    exact ⟨_, step_of_engineRuns hrun (exec_noteOn_engine hturn (hinv.fs_ne_zero hrun)), rfl, complete_cmdDone _, rfl⟩
  case noteOff => exact ⟨_, step_of_engineRuns hrun (exec_noteOff_engine hturn), rfl, complete_cmdDone _, rfl⟩
  case forceStop => exact ⟨_, step_of_engineRuns hrun (exec_forceStop_engine hturn), rfl, complete_cmdDone _, rfl⟩
  case renderBlock => exact absurd rfl hi

/-! ## The steps of a RENDER_BLOCK -/

/-- From `s` the command in progress takes `n` steps more, none of them the HOST's, and counts `c` samples: BUSY is 1 before the last
of them, and 0 with CMD_DONE set after it (44_commands.md R242, R246; 43_render.md R210). -/
structure CompletesIn (n c : Nat) (s : State) : Prop where
  before : ∀ k, k < n → ∃ u : State, Sys2Proof.core.run k s = Host.Outcome.next u ∧ u.busy = true ∧ u.host = s.host
  after : ∃ t : State,
    Sys2Proof.core.run n s = Host.Outcome.next t ∧ t.busy = false ∧ t.irqStatus.getLsbD 0 = true ∧
      t.host = s.host ∧ t.sched = s.sched.drop n ∧ t.sampleCnt.toNat = (s.sampleCnt.toNat + c) % 2 ^ 32

/-- A command whose next step completes it takes one step more (44_commands.md R242). -/
theorem CompletesIn.last {s u : State} (hb : s.busy = true) (hturn : s.turn = .engine)
    (hstep : step s = .next (s.retire u.complete)) (hcnt : u.sampleCnt = s.sampleCnt) : CompletesIn 1 0 s where
  before k hk := by
    obtain rfl : k = 0 := by omega
    exact ⟨s, rfl, hb, rfl⟩
  after := by
    refine ⟨_, run_succ_of_step 0 s _ hstep, rfl, complete_cmdDone u, by simp [hturn], by simp, ?_⟩
    have hlt := s.sampleCnt.isLt
    simp only [State.retire_sampleCnt, State.complete_sampleCnt, hcnt]
    omega

/-- A step of the ENGINE in front of the others adds itself and the samples it counts. -/
theorem CompletesIn.cons {s u : State} {n c d : Nat} (hb : s.busy = true) (hturn : s.turn = .engine)
    (hstep : step s = .next (s.retire u)) (hcnt : u.sampleCnt.toNat = (s.sampleCnt.toNat + d) % 2 ^ 32)
    (h : CompletesIn n c (s.retire u)) : CompletesIn (n + 1) (c + d) s where
  before k hk := by
    cases k with
    | zero => exact ⟨s, rfl, hb, rfl⟩
    | succ k =>
      obtain ⟨v, hrun, hbusy, hhost⟩ := h.before k (by omega)
      exact ⟨v, (run_succ_of_step k s _ hstep).trans hrun, hbusy, by simp [hhost, hturn]⟩
  after := by
    obtain ⟨t, hrun, hbusy, hdone, hhost, hsched, hcount⟩ := h.after
    refine ⟨t, (run_succ_of_step n s _ hstep).trans hrun, hbusy, hdone, by simp [hhost, hturn], by simp [hsched], ?_⟩
    simp only [State.retire_sampleCnt] at hcount
    omega

/-- The FINISH step is the last (44_commands.md R241). -/
theorem completesIn_of_finish {s : State} (hrun : s.engineRuns .renderBlock) (hph : s.rbPhase = .finish) : CompletesIn 1 0 s :=
  .last hrun.2.1 hrun.1 (step_renderFinish hrun hph) rfl

/-- A sample step counts one sample (43_render.md R210). -/
theorem renderSample_sampleCnt_toNat (s : State) : s.renderSample.sampleCnt.toNat = (s.sampleCnt.toNat + 1) % 2 ^ 32 := by
  simp

/-- With samples left to produce, the RENDER_BLOCK goes on to the next (44_commands.md R241). -/
theorem Sampling.next {s : State} (h : Sampling s) (hturn : s.turn = .engine) (hlt : s.rbI.toNat + 1 < s.larg1.toNat) :
    Sampling (s.retire s.renderSample) := by
  have hne : s.rbI + 1#32 ≠ s.numSamples := by
    unfold State.numSamples
    bv_omega
  exact ⟨everyStepKeepsTheInvariant _ _ h.inv (h.step hturn), by simp [h.busy], by simp [h.noAbort], by simp [h.command],
    by simp [hne]⟩

/-- After the last sample the RENDER_BLOCK goes on to FINISH (44_commands.md R241). -/
theorem renderSample_rbPhase_of_last {s : State} (hlast : s.rbI.toNat + 1 = s.larg1.toNat) :
    s.renderSample.rbPhase = .finish := by
  have heq : s.rbI + 1#32 = s.numSamples := by
    unfold State.numSamples
    bv_omega
  simp [heq]

/-- After a sample the RENDER_BLOCK still runs, if the next turn is the ENGINE's (44_commands.md R234). -/
theorem Sampling.engineRuns_renderSample {s : State} {n : Nat} (h : Sampling s)
    (hturns : ∀ u ∈ s.sched.tail.take (n + 1), u = .engine) : (s.retire s.renderSample).engineRuns .renderBlock := by
  have hb : (s.retire s.renderSample).busy = true := by simp [h.busy]
  have hp : (s.retire s.renderSample).resetPin = false := by simp [h.released]
  refine ⟨turn_of_engine_turns hb hp hturns, hb, hp, (engineCommand_eq_some _ _).mpr (.inr ⟨?_, nofun, ?_⟩)⟩
  · simp [h.noAbort]
  · simp only [State.retire_curCmd, State.renderSample_curCmd]
    exact h.command

/-- With `m + 1` samples left a RENDER_BLOCK takes a step for each and the FINISH step (44_commands.md R241). -/
theorem Sampling.completesIn {s : State} {m : Nat} (h : Sampling s) (hturn : s.turn = .engine)
    (hm : s.rbI.toNat + m + 1 = s.larg1.toNat) (hturns : ∀ u ∈ s.sched.tail.take (m + 1), u = .engine) :
    CompletesIn (m + 2) (m + 1) s := by
  induction m generalizing s with
  | zero =>
    have hfinish : s.renderSample.rbPhase = .finish := renderSample_rbPhase_of_last (by omega)
    exact .cons h.busy hturn (h.step hturn) (renderSample_sampleCnt_toNat s)
      (completesIn_of_finish (h.engineRuns_renderSample hturns) hfinish)
  | succ m ih =>
    have hi : (s.retire s.renderSample).rbI.toNat + m + 1 = (s.retire s.renderSample).larg1.toNat := by
      simp only [State.retire_rbI, State.renderSample_rbI, State.retire_larg1, State.renderSample_larg1]
      bv_omega
    exact .cons h.busy hturn (h.step hturn) (renderSample_sampleCnt_toNat s)
      (ih (h.next hturn (by omega)) (h.engineRuns_renderSample hturns).1 hi (tail_engine_turns hturns))

/-- How many samples a RENDER_BLOCK produces (44_commands.md R241, 43_render.md R212). -/
def State.samplesDue (s : State) : Nat := if s.active then s.larg1.toNat else 0

/-- The COMMIT step goes on to SAMPLE exactly when there are samples to produce (44_commands.md R241). -/
theorem renderCommit_rbPhase_eq (s : State) : s.renderCommit.rbPhase = if 0 < s.samplesDue then .sample else .finish := by
  have hiff : (s.active && s.numSamples != 0#32) = true ↔ 0 < s.samplesDue := by
    rw [hasSamples_iff, State.samplesDue]
    split <;> simp [*]
  rw [State.renderCommit_rbPhase]
  exact if_congr hiff rfl rfl

/-- From its COMMIT step a RENDER_BLOCK takes a step for each sample and two more (44_commands.md R241, R246). -/
theorem completesIn_of_commit {s : State} (hinv : Inv s) (hrun : s.engineRuns .renderBlock) (hph : s.rbPhase = .commit)
    (hturns : ∀ u ∈ s.sched.take (s.samplesDue + 2), u = .engine) : CompletesIn (s.samplesDue + 2) s.samplesDue s := by
  have hstep := step_renderCommit hrun hph
  have hphase := renderCommit_rbPhase_eq s
  have hrest := tail_engine_turns hturns
  obtain ⟨hturn, hb, hp, hcmd⟩ := hrun
  have hcnt : s.renderCommit.sampleCnt.toNat = (s.sampleCnt.toNat + 0) % 2 ^ 32 := by
    have hlt := s.sampleCnt.isLt
    rw [State.renderCommit_sampleCnt]
    omega
  have hturn' : (s.retire s.renderCommit).turn = .engine := turn_of_engine_turns hb hp hrest
  cases hm : s.samplesDue with
  | zero =>
    exact .cons (d := 0) hb hturn hstep hcnt (completesIn_of_finish ⟨hturn', hb, hp, hcmd⟩ (by simpa [hm] using hphase))
  | succ m =>
    obtain ⟨-, hf⟩ | ⟨hnoabort, -, hcur⟩ := (engineCommand_eq_some s .renderBlock).mp hcmd
    · cases hf
    have hsampling : Sampling (s.retire s.renderCommit) :=
      ⟨everyStepKeepsTheInvariant _ _ hinv hstep, hb, hnoabort, hcur, by simpa [hm] using hphase⟩
    have hnum : s.larg1.toNat = m + 1 := by
      unfold State.samplesDue at hm
      split at hm
      · exact hm
      · cases hm
    rw [hm] at hrest
    exact .cons (d := 0) hb hturn hstep hcnt (hsampling.completesIn hturn' (by simp [hnum]) (tail_engine_turns hrest))

/-- Settles O57: the COMMIT step, a step for each sample that is due, and the FINISH step. -/
theorem renderBlockTakesNumPlusTwoSteps : Obligations.RenderBlockTakesNumPlusTwoSteps := by
  intro s n hinv hrun hph hn hturns
  obtain rfl : n = s.samplesDue + 2 := by
    rw [hn, State.samplesDue]
    split <;> rfl
  obtain ⟨hbefore, hafter⟩ := completesIn_of_commit hinv hrun hph hturns
  exact ⟨hbefore, hafter⟩

end Sys2Proof.Machine
end

section
/-! SUPPORT. No step stops (60_exceptions.md R278, R281): each of the four faults stands where the invariant is broken
(assumption log 7), so from a state of the invariant none is reached. -/

namespace Sys2Proof.Machine

/-! ## A step is always named -/

/-- At the HOST's turn there is a transaction, or nothing left to do (20_memory.md R72). -/
theorem hostDue_ne_stuck (s : State) : s.hostDue ≠ .stuck := by
  unfold State.hostDue
  split
  case h_1 => exact nofun
  case h_2 op _ _ =>
    cases s.commandWord op with
    | none => exact nofun
    | some w => cases hw : decodeWord w <;> simp [hw]

/-- The ENGINE is stuck only where a command is in progress and 44_commands.md R234 names no step of it. -/
theorem engineDue_eq_stuck {s : State} (h : s.engineDue = .stuck) : s.busy = true ∧ s.engineCommand = none := by
  unfold State.engineDue at h
  split at h
  case isTrue hb =>
    refine ⟨(Bool.and_eq_true_iff.mp hb).1, ?_⟩
    cases hc : s.engineCommand with
    | none => rfl
    | some i => simp [hc] at h
  case isFalse => cases h

/-- While a command is in progress 44_commands.md R234 names its step: the abort step, or that of CUR_CMD. -/
theorem Inv.engineCommand_ne_none {s : State} (h : Inv s) (hb : s.busy = true) : s.engineCommand ≠ none := by
  cases ha : s.abortReq with
  | true => simp [(engineCommand_eq_some s .forceStop).mpr (.inl ⟨ha, rfl⟩)]
  | false => exact Option.isSome_iff_ne_none.mp (h.command hb ha)

/-- No state of the invariant is without a step to name. -/
theorem Inv.due_ne_stuck {s : State} (h : Inv s) : s.due ≠ .stuck := by
  unfold State.due
  cases s.turn with
  | host => exact hostDue_ne_stuck s
  | engine =>
    intro hd
    obtain ⟨hb, hnone⟩ := engineDue_eq_stuck hd
    exact h.engineCommand_ne_none hb hnone
  | assertReset => exact nofun
  | releaseReset => exact nofun

/-! ## A command's step always goes on -/

/-- About to produce a sample, a RENDER_BLOCK in progress can: its gains are defined and its words exist
(42_filter.md R182, 20_memory.md R80). -/
theorem Sampling.sampleReady {s : State} (h : Sampling s) (hturn : s.turn = .engine) : s.sampleReady :=
  ⟨hturn, h.phase, h.inv.spec.live, h.inv.spec.egs, h.inside⟩

/-- The ENGINE step of a RENDER_BLOCK in progress goes on in each of its phases (44_commands.md R241). -/
theorem Inv.exec_renderBlock_next {s : State} (h : Inv s) (hrun : s.engineRuns .renderBlock) :
    ∃ u, exec .renderBlock s = .next u := by
  obtain ⟨hturn, hb, -, hcmd⟩ := hrun
  cases hph : s.rbPhase with
  | commit => exact ⟨_, exec_renderBlock_commit hturn hph⟩
  | finish => exact ⟨_, exec_renderBlock_finish hturn hph⟩
  | sample =>
    obtain ⟨-, hf⟩ | ⟨hnoabort, -, hcur⟩ := (engineCommand_eq_some s .renderBlock).mp hcmd
    · cases hf
    have hsampling : Sampling s := ⟨h, hb, hnoabort, hcur, hph⟩
    exact ⟨_, exec_renderBlock_of_sampleReady (hsampling.sampleReady hturn)⟩

/-- The ENGINE step of the command in progress goes on: NOTE_ON finds a sample rate, and a sample its gains and its words
(44_commands.md R235 to R241). -/
theorem Inv.exec_engine_next {s : State} (h : Inv s) (i : Instr) (hrun : s.engineRuns i) : ∃ u, exec i s = .next u := by
  have hturn := hrun.1
  cases i
  case nop => exact ⟨_, exec_nop_engine hturn⟩
  case prepare => exact ⟨_, exec_prepare_engine hturn⟩
  case noteOn => exact ⟨_, exec_noteOn_engine hturn (h.fs_ne_zero hrun)⟩
  case noteOff => exact ⟨_, exec_noteOff_engine hturn⟩
  case forceStop => exact ⟨_, exec_forceStop_engine hturn⟩
  case renderBlock => exact h.exec_renderBlock_next hrun

/-- A command that is due goes on: its issue always, its ENGINE step under the invariant (44_commands.md R230, R234). -/
theorem Inv.exec_next_of_due {s : State} (h : Inv s) {i : Instr} (hd : s.due = .command i) : ∃ u, exec i s = .next u := by
  obtain ⟨hturn, -⟩ | hrun := due_command s i hd
  · exact ⟨_, exec_host i s hturn⟩
  · exact h.exec_engine_next i hrun

/-- Settles O56: some step is due, a command's step goes on, and every other step has its next state by definition. -/
theorem noStepStops : Obligations.NoStepStops := by
  intro s h
  cases hd : s.due with
  | command i =>
    obtain ⟨u, hu⟩ := h.exec_next_of_due hd
    exact ⟨s.retire u, by rw [step_of_command hd, hu, retired]⟩
  | stuck => exact absurd hd h.due_ne_stuck
  | illegalWord | access op | assertReset | releaseReset | idle => simp [step, hd]

end Sys2Proof.Machine
end

section
/-! SUPPORT. Reset, and the wait for BUSY = 0: what reset leaves, what a poll of STATUS reads, and how the wait ends under every
list of turns. -/

namespace Sys2Proof.Machine

/-! ## The reset input -/

/-- At its turn the reset input is asserted, whatever is in progress (70_reset_and_hazards.md R300). -/
theorem step_assertReset {s : State} (hturn : s.turn = .assertReset) : step s = .next (s.retire s.hardReset) := by
  simp only [step, State.due, hturn]

/-- At its turn the reset input is released (70_reset_and_hazards.md R300). -/
theorem step_releaseReset {s : State} (hturn : s.turn = .releaseReset) :
    step s = .next (s.retire { s with resetPin := false }) := by
  simp only [step, State.due, hturn]

/-- A turn that is not the HOST's uses up the turn and none of the HOST's statements. -/
theorem retire_of_not_host_turn {s u : State} (hturn : s.turn ≠ .host) (hhost : u.host = s.host) :
    s.retire u = { u with sched := s.sched.tail } := by
  simp only [State.retire, if_neg hturn, hhost]

/-- Under reset a HOST write has no effect (70_reset_and_hazards.md R300). -/
theorem hostAccess_write_of_reset {s : State} (hp : s.resetPin = true) (a : Addr) (n : Nat) (d : Word) :
    s.hostAccess (.write a n d) = s := by
  simp only [State.hostAccess, if_pos hp]

/-- Under reset a HOST read returns 0 and has no other effect (70_reset_and_hazards.md R300). -/
theorem hostRead_of_reset {s : State} (hp : s.resetPin = true) (a : Addr) (n : Nat) :
    s.hostRead a n = { s with rdata := 0#32 } := by
  simp only [State.hostRead, if_pos hp]

/-- Settles O51: the step at each of the reset input's turns, and the two accesses while it is asserted. -/
theorem resetInputResetsEverything : Obligations.ResetInputResetsEverything := by
  refine ⟨fun s hturn => ?_, fun s hturn => ?_, fun s a n d hp => ⟨?_, ?_⟩⟩
  · rw [step_assertReset hturn, retire_of_not_host_turn (by simp [hturn]) (State.hardReset_host s)]
    rfl
  · rw [step_releaseReset hturn]
    exact congrArg Host.Outcome.next (retire_of_not_host_turn (by simp [hturn]) rfl)
  · exact hostAccess_write_of_reset hp a n d
  · exact hostRead_of_reset hp a n

/-! ## The state after reset -/

/-- Every entry of an oscillator bank is 0 after reset (10_state.md R48). -/
theorem zeroBank_get (h : Fin 24) : zeroBank[h] = 0#32 := by simp [zeroBank]

/-- What a program reads right after reset at a single register's address (20_memory.md R66, 70_reset_and_hazards.md R302). -/
theorem rdata_resetOf_row (c : Instance) (a : Addr) (r : Reg) (h : mapRows.lookup a.toNat = some r) :
    ((State.resetOf c).hostAccess (.read a 4 none)).rdata = (State.resetOf c).readReg r :=
  congrArg State.rdata (hostAccess_read_row rfl a r h)

/-- STATUS after reset (10_state.md R27, R48). -/
theorem statusWord_resetOf (c : Instance) : (State.resetOf c).statusWord = 0#32 :=
  BitVec.eq_of_toNat_eq (statusWord_toNat (State.resetOf c))

/-- Settles O52: the reset values by definition, and the four reads by the registers that the addresses name. -/
theorem resetAsAProgramSeesIt : Obligations.ResetAsAProgramSeesIt := by
  rintro c s rfl
  refine ⟨⟨rfl, rfl, rfl⟩, ⟨rfl, rfl⟩, ⟨rfl, rfl, rfl, rfl, rfl, rfl⟩, ⟨rfl, rfl, rfl, rfl⟩, ⟨rfl, rfl, rfl, rfl⟩,
    ⟨rfl, rfl, rfl⟩, ?params, fun h => ?bank, ?egs, ⟨rfl, rfl, rfl⟩, rfl, ⟨?status, ?irqStatus, ?irqEnable, ?dirty⟩, ?irq,
    rfl⟩
  case params =>
    intro p hp
    obtain rfl : p = ParamSet.reset := hp.elim id id
    refine ⟨fun q hq => ?_, rfl, rfl, rfl, rfl, rfl, rfl⟩
    obtain rfl : q = EgParams.reset := hq.elim id (Or.elim · id id)
    exact ⟨rfl, rfl, rfl, rfl⟩
  case bank => exact ⟨zeroBank_get h, zeroBank_get h, zeroBank_get h, zeroBank_get h⟩
  case egs =>
    intro g hg
    obtain rfl : g = Eg.zero := hg.elim id (Or.elim · id id)
    exact ⟨rfl, rfl, rfl, rfl⟩
  case status => exact (rdata_resetOf_row c 0x0020#16 .status rfl).trans (statusWord_resetOf c)
  case irqStatus => exact rdata_resetOf_row c 0x0024#16 .irqStatus rfl
  case irqEnable => exact rdata_resetOf_row c 0x0028#16 .irqEnable rfl
  case dirty => exact rdata_resetOf_row c 0x002C#16 .dirty rfl
  case irq => simp [State.irq, State.resetOf]

/-! ## A poll of BUSY -/

/-- The HOST waits for BUSY = 0, with `ops` to come after the wait (70_reset_and_hazards.md R316). -/
abbrev State.waits (s : State) (ops : List HostOp) : Prop := s.host = .poll 0x0020#16 1#32 0#32 :: ops

/-- Bit 0 of STATUS is BUSY (10_state.md R27). -/
theorem statusWord_busy_bit (s : State) : s.statusWord &&& 1#32 = 0#32 ↔ s.busy = false := by
  have hword := statusWord_toNat s
  rw [← BitVec.toNat_inj, BitVec.toNat_and, BitVec.toNat_ofNat, Nat.mod_eq_of_lt (by omega), Nat.and_one_is_mod]
  cases hb : s.busy <;> simp [hb] at hword ⊢ <;> omega

/-- A poll of STATUS reads 0 in bit 0 exactly when no command is in progress, also under reset, where there is none
(20_memory.md R66, 70_reset_and_hazards.md R300). -/
theorem Inv.poll_busy_bit {s : State} (h : Inv s) :
    (s.hostAccess (.poll 0x0020#16 1#32 0#32)).rdata &&& 1#32 = 0#32 ↔ s.busy = false := by
  change (s.hostRead 0x0020#16 4).rdata &&& 1#32 = 0#32 ↔ s.busy = false
  cases hp : s.resetPin with
  | true => simp [hostRead_of_reset hp, h.resetIdle hp]
  | false =>
    have hread : s.hostRead 0x0020#16 4 = { s with rdata := s.statusWord } := hostAccess_read_row hp 0x0020#16 .status rfl
    rw [hread]
    exact statusWord_busy_bit s

/-- The HOST's step of the wait: past the poll with no command in progress, else still at it (30_encoding.md R96). -/
theorem Inv.step_of_waits {s t : State} {ops : List HostOp} (h : Inv s) (hwait : s.waits ops) (hturn : s.turn = .host)
    (hstep : step s = .next t) : t.busy = s.busy ∧ t.host = if s.busy = false then ops else s.host := by
  have hbusy : (s.hostAccess (.poll 0x0020#16 1#32 0#32)).busy = s.busy := by
    obtain ⟨_, _, _, _, _, _, _, _, _, _, _, he, -⟩ := hostAccess_eq s (.poll 0x0020#16 1#32 0#32)
    rw [he]
  rw [step_of_access hturn hwait rfl] at hstep
  cases hstep
  refine ⟨hbusy, ?_⟩
  simp only [hostRest, h.poll_busy_bit, hwait]

/-- Every step of the total order uses up one turn of the list. -/
theorem step_sched {s t : State} (hstep : step s = .next t) : t.sched = s.sched.tail := by
  obtain ⟨u, rfl, -⟩ := step_cases s t hstep
  exact State.retire_sched s u

/-- A step at a turn that is not the HOST's leaves the HOST's statements as they are (10_state.md R20). -/
theorem step_host_of_not_host_turn {s t : State} (hturn : s.turn ≠ .host) (hstep : step s = .next t) : t.host = s.host := by
  obtain ⟨u, rfl, -⟩ := step_cases s t hstep
  rw [State.retire_host, if_neg hturn]

/-- A step of whichever agent leaves the HOST waiting, or past its poll with no command in progress. -/
theorem Inv.waits_or_past {s t : State} {ops : List HostOp} (h : Inv s) (hwait : s.waits ops) (hstep : step s = .next t) :
    t.waits ops ∨ t.host = ops ∧ t.busy = false := by
  by_cases hturn : s.turn = .host
  · obtain ⟨hbusy, hhost⟩ := h.step_of_waits hwait hturn hstep
    cases hb : s.busy with
    | true => exact .inl (by simpa [hb, hwait] using hhost)
    | false => exact .inr ⟨by simpa [hb] using hhost, hbusy.trans hb⟩
  · exact .inl ((step_host_of_not_host_turn hturn hstep).trans hwait)

/-! ## After the list of turns -/

/-- While a command is in progress the reset input is released (70_reset_and_hazards.md R300). -/
theorem Inv.released_of_busy {s : State} (h : Inv s) (hb : s.busy = true) : s.resetPin = false :=
  Bool.eq_false_iff.mpr fun hp => by simpa [hb] using h.resetIdle hp

/-- The command in progress runs to its end, and the HOST takes no step meanwhile; no turn of the list is left then
(44_commands.md R246; assumption log 3). -/
def State.Completes (s : State) : Prop :=
  ∃ (n : Nat) (t : State), Sys2Proof.core.run n s = Host.Outcome.next t ∧ t.busy = false ∧ t.host = s.host ∧ t.sched = []

/-- With no turn left in the list, a command that has a count of steps to its end completes. -/
theorem CompletesIn.completes {n c : Nat} {s : State} (h : CompletesIn n c s) (hs : s.sched = []) : s.Completes := by
  obtain ⟨t, hrun, hbusy, -, hhost, hsched, -⟩ := h.after
  exact ⟨n, t, hrun, hbusy, hhost, by simp [hsched, hs]⟩

/-- With no turn left in the list, a RENDER_BLOCK completes from each of its phases (44_commands.md R241). -/
theorem Inv.completes_renderBlock {s : State} (h : Inv s) (hs : s.sched = []) (hrun : s.engineRuns .renderBlock) :
    s.Completes := by
  have hturns (k : Nat) : ∀ u ∈ s.sched.take k, u = .engine := by simp [hs]
  cases hph : s.rbPhase with
  | commit => exact (completesIn_of_commit h hrun hph (hturns _)).completes hs
  | finish => exact (completesIn_of_finish hrun hph).completes hs
  | sample =>
    obtain ⟨hturn, hb, -, hcmd⟩ := hrun
    obtain ⟨-, hf⟩ | ⟨hnoabort, -, hcur⟩ := (engineCommand_eq_some s .renderBlock).mp hcmd
    · cases hf
    have hlt : s.rbI.toNat < s.larg1.toNat := ((h.rendering hb hcur).2.2 hph).1
    have hsampling : Sampling s := ⟨h, hb, hnoabort, hcur, hph⟩
    have hleft : s.rbI.toNat + (s.larg1.toNat - s.rbI.toNat - 1) + 1 = s.larg1.toNat := by omega
    exact (hsampling.completesIn hturn hleft (by simp [hs])).completes hs

/-- With no turn left in the list, the command in progress completes: RENDER_BLOCK by its count of steps, every other command in
one (44_commands.md R246). -/
theorem Inv.completes {s : State} (h : Inv s) (hs : s.sched = []) (hb : s.busy = true) : s.Completes := by
  have hp := h.released_of_busy hb
  have hturn : s.turn = .engine := by simp [State.turn, hs, hb, hp]
  obtain ⟨i, hcmd⟩ := Option.ne_none_iff_exists'.mp (h.engineCommand_ne_none hb)
  have hrun : s.engineRuns i := ⟨hturn, hb, hp, hcmd⟩
  by_cases hi : i = .renderBlock
  · exact h.completes_renderBlock hs (hi ▸ hrun)
  · obtain ⟨t, hstep, hbusy, -⟩ := otherCommandsTakeOneStep s i h hrun hi
    exact ⟨1, t, run_succ_of_step 0 s t hstep, hbusy, step_host_of_not_host_turn (by simp [hturn]) hstep,
      by simp [step_sched hstep, hs]⟩

/-! ## Every wait terminates -/

/-- Some number of steps brings the HOST past its wait, with `ops` left and no command in progress. -/
def State.PassesWait (s : State) (ops : List HostOp) : Prop :=
  ∃ (k : Nat) (t : State), Sys2Proof.core.run k s = Host.Outcome.next t ∧ t.host = ops ∧ t.busy = false

/-- A step in front of a run that gets past the wait. -/
theorem State.PassesWait.cons {s u : State} {ops : List HostOp} (hstep : step s = .next u) (h : u.PassesWait ops) :
    s.PassesWait ops := by
  obtain ⟨k, t, hrun, ht⟩ := h
  exact ⟨k + 1, t, (run_succ_of_step k s u hstep).trans hrun, ht⟩

/-- A run in front of a run is a run. -/
theorem run_add (M : Host.Core) (m n : Nat) (s u : M.State) (h : M.run m s = .next u) : M.run (m + n) s = M.run n u := by
  induction m generalizing s with
  | zero =>
    cases h
    rw [Nat.zero_add]
  | succ m ih =>
    obtain ⟨v, hstep, hrest⟩ := run_succ_eq_next M m s u h
    rw [Nat.succ_add, Host.Core.run, hstep]
    exact ih v hrest

/-- With no turn left in the list and no command in progress, the HOST's next step gets past the wait. -/
theorem Inv.passesWait_of_idle {s : State} {ops : List HostOp} (h : Inv s) (hwait : s.waits ops) (hs : s.sched = [])
    (hb : s.busy = false) : s.PassesWait ops := by
  have hturn : s.turn = .host := by simp [State.turn, hs, hb]
  obtain ⟨t, hstep⟩ := noStepStops s h
  obtain ⟨hbusy, hhost⟩ := h.step_of_waits hwait hturn hstep
  exact .cons hstep ⟨0, t, rfl, by simpa [hb] using hhost, hbusy.trans hb⟩

/-- With no turn left in the list, the wait ends after the command in progress, if there is one (70_reset_and_hazards.md R316). -/
theorem Inv.passesWait_of_no_turns {s : State} {ops : List HostOp} (h : Inv s) (hwait : s.waits ops) (hs : s.sched = []) :
    s.PassesWait ops := by
  cases hb : s.busy with
  | false => exact h.passesWait_of_idle hwait hs hb
  | true =>
    obtain ⟨n, u, hrun, hidle, hhost, hsched⟩ := h.completes hs hb
    obtain ⟨k, t, hrest, ht⟩ := (h.run n hrun).passesWait_of_idle (hhost.trans hwait) hsched hidle
    exact ⟨n + k, t, (run_add Sys2Proof.core n k s u hrun).trans hrest, ht⟩

/-- The wait ends under every list of turns, also one with turns of the reset input (70_reset_and_hazards.md R316). -/
theorem Inv.passesWait {s : State} {ops : List HostOp} (h : Inv s) (hwait : s.waits ops) : s.PassesWait ops := by
  induction hs : s.sched generalizing s with
  | nil => exact h.passesWait_of_no_turns hwait hs
  | cons u us ih =>
    obtain ⟨t, hstep⟩ := noStepStops s h
    have hsched : t.sched = us := by rw [step_sched hstep, hs, List.tail_cons]
    rcases h.waits_or_past hwait hstep with hstill | hpast
    · exact .cons hstep (ih (everyStepKeepsTheInvariant s t h hstep) hstill hsched)
    · exact .cons hstep ⟨0, t, rfl, hpast⟩

/-- Settles O60: each turn of the list leaves the HOST waiting or past its poll, and after the list the command in progress
completes first. -/
theorem everyWaitTerminates : Obligations.EveryWaitTerminates := by
  intro s ops hinv _ hwait _
  exact hinv.passesWait hwait

end Sys2Proof.Machine
end
